-- ==== Sys2Proof/Word.lean ====
section
/-! DEFINITION. The bit-vector types of ASE-CORE's ports and registers (10_state.md, sections 1 and 2). -/

namespace Sys2Proof

/-- A byte on the bus, in the chip or on the request port. -/
abbrev Byte := BitVec 8

/-- A chip address, 9 bits (rule R6). -/
abbrev Addr := BitVec 9

/-- `req_op[3:0]` (rule R118). -/
abbrev OpCode := BitVec 4

/-- `mask[5:0]`, the pending-action mask (rule R47). -/
abbrev Mask := BitVec 6

/-- `req_buf[0..15][7:0]`, the page buffer, element 0 first (rule R30). -/
abbrev PageBuf := Vector Byte 16

end Sys2Proof
end

