-- ==== Sys2Proof/Syntax.lean ====
section
/-! DEFINITION. The instructions (one constructor per row of spec/opcode_table.json), the signals of the
ports they come from, and the turns of the environment. -/

namespace Sys2Proof

/-- The one-bit kind codes of the worker port and of `pump_kind`: 0 `AUTO`, 1 `MANUAL` (rule R124). -/
inductive Kind
  | auto
  | manual
  deriving DecidableEq, Repr, Inhabited

/-- `ARB.state` (rule R42). -/
inductive ArbState
  | idle
  | dSample
  | dAutoen
  | dAutowater
  | dManwater
  | dHistory
  | wHistory
  deriving DecidableEq, Repr, Inhabited

/-- The 37 rows of the opcode table. -/
inductive Instr
  -- serial frames (rules R111 to R116)
  | read (addr : Addr)
  | write (addr : Addr) (data : List Byte)
  | wrdi
  | rdsr
  | wren
  -- request port, EEC (rules R142 to R147)
  | readStatus
  | writeEnable
  | writeDisable
  | readByte (addr : Addr)
  | writeByte (addr : Addr) (byte : Byte)
  | writePage (addr : Addr) (len : BitVec 5) (buf : PageBuf)
  -- request port, LOG (rules R181 to R187)
  | resetLog (ts : BitVec 64)
  | appendReading (value : Byte)
  | readReading (index : BitVec 16)
  | readLastReading
  | readHeaderTimestamp
  | readingTimestamp (index : BitVec 16)
  -- request port, POL (rule R260) and the reserved codes (rule R125)
  | decideWatering (moisture : Byte)
  | reserved6
  | reserved7
  | reserved15
  -- event port (rules R211 to R215)
  | evTimer
  | evManualSample
  | evManualWater (duration : Byte)
  | evSetAuto (value : Bool)
  | evDumpHistory
  -- arbiter steps (rules R220 to R229)
  | wake
  | idleTimeoutWake
  | dSample
  | dAutoen
  | dAutowater
  | dManwater
  | dHistory
  | historyWaitEnd
  -- worker port inputs (rules R240 to R242)
  | doneSensor
  | donePump
  | doneHistory
  deriving DecidableEq, Repr

/-- The five serial opcodes (rule R16). -/
structure Opcodes where
  read  : Byte
  write : Byte
  wrdi  : Byte
  rdsr  : Byte
  wren  : Byte
  deriving DecidableEq, Repr, Inhabited

/-- The operand signals of the request port (rule R30); the operand latches hold one such set (rule R36). -/
structure Request where
  op    : OpCode
  addr  : Addr
  len   : BitVec 5
  data  : Byte
  buf   : PageBuf
  index : BitVec 16
  ts    : BitVec 64
  deriving DecidableEq, Repr, Inhabited

/-- The strobes and arguments of the event port (rule R33). -/
structure EventSignals where
  timer        : Bool
  manualSample : Bool
  manualWater  : Bool
  duration     : Byte
  setAuto      : Bool
  autoValue    : Bool
  dumpHistory  : Bool
  deriving DecidableEq, Repr, Inhabited

/-- The done lines of the worker port (rule R34). -/
structure DoneSignals where
  sensor  : Bool
  pump    : Bool
  history : Bool
  deriving DecidableEq, Repr, Inhabited

/-- What stands on a port when an instruction is taken from it: the five spaces of the opcode table.
The arbiter's steps have no numeric encoding and are selected by `ARB.state` (rule R42) and, in `IDLE`,
by `wake_pending` (rules R220 and R221). -/
inductive PortWord
  | frame (bytes : List Byte)
  | request (r : Request)
  | event (e : EventSignals)
  | arbiter (state : ArbState) (wakePending : Bool)
  | done (d : DoneSignals)
  deriving DecidableEq, Repr

/-- What the environment draws for one exchange (rules R81, R86, R91; 93_implementation_defined.md U5, U7, U8). -/
structure BusDraw where
  /-- the exchange returns `Fault` -/
  fault    : Bool
  /-- the status byte's bits other than WIP and WEL -/
  status   : Byte
  /-- the byte a busy chip returns to a read frame -/
  busyByte : Byte
  /-- the latch after a faulted exchange -/
  latch    : Bool
  /-- a faulted write frame: bit `i` says that byte `i` takes its new value -/
  landed   : BitVec 16
  /-- a faulted write frame: the chip took it as a write in progress -/
  started  : Bool
  deriving DecidableEq, Repr, Inhabited

/-- One turn: which agent of rule R3 takes the next step, with its inputs. -/
inductive Turn
  /-- a requester holds `req_valid` high with these operands -/
  | request (r : Request)
  /-- producers raise any subset of the strobes (rule R216) -/
  | events (e : EventSignals)
  /-- workers raise any subset of the done lines -/
  | done (d : DoneSignals)
  /-- ARB takes its enabled step -/
  | arbiter
  /-- EEC or LOG takes its next step; the draw is used if that is an exchange -/
  | sequencer (d : BusDraw)
  /-- the chip completes its internal write (rule R90) -/
  | chip
  /-- the controller is reset; `cut` says that an exchange was in progress (rule R317) -/
  | reset (cut : Bool) (d : BusDraw)
  /-- power is lost and comes back; byte `j` of `lost` is what the `j`-th byte of a chip write in
  progress is left holding (rules R93 and R337) -/
  | powerCycle (cut : Bool) (d : BusDraw) (lost : BitVec 128)
  deriving DecidableEq, Repr, Inhabited

end Sys2Proof
end

