-- ==== Sys2Proof/Config.lean ====
section
/-! DEFINITION. The implementation parameters of 00_scope.md section 3 and the free values. -/

namespace Sys2Proof

/-- The legal values of `SPH`, samples per hour (rules R9 to R11). -/
inductive Sph
  | sph1 | sph2 | sph3 | sph4 | sph5 | sph6 | sph8 | sph9 | sph10 | sph12 | sph15 | sph16 | sph18 | sph20
  deriving DecidableEq, Repr, Inhabited

/-- `SPH` as a number. -/
def Sph.toNat : Sph → Nat
  | .sph1 => 1
  | .sph2 => 2
  | .sph3 => 3
  | .sph4 => 4
  | .sph5 => 5
  | .sph6 => 6
  | .sph8 => 8
  | .sph9 => 9
  | .sph10 => 10
  | .sph12 => 12
  | .sph15 => 15
  | .sph16 => 16
  | .sph18 => 18
  | .sph20 => 20

/-- The switch `SAMPLE_COLLAPSE` (rules R20 and R223). -/
inductive SampleCollapse
  | clearBoth
  | keepManual
  deriving DecidableEq, Repr, Inhabited

/-- The parameters a machine is built with (rules R9, R13, R14, R16, R17, R20). -/
structure Params where
  sph               : Sph
  /-- `POLL_LIMIT`, a positive count; `none` is `INF` -/
  pollLimit         : Option Nat
  /-- `IDLE_TIMEOUT` is finite -/
  idleTimeoutFinite : Bool
  sampleCollapse    : SampleCollapse
  welAnyExchange    : Bool
  autoWaterReset    : Bool
  opcodes           : Opcodes
  /-- `WIP_BIT` -/
  wipBit            : Fin 8
  /-- `WEL_BIT` -/
  welBit            : Fin 8
  deriving DecidableEq, Repr, Inhabited

/-- The agent that moves, when the agenda in State is empty (rules R3, R298; log entry 2). -/
opaque Config.turn : Nat → Turn

/-- `rsp_status` outside a response step (rule R37; log entry 6). -/
opaque Config.idleStatus : Nat → BitVec 3

/-- `rsp_data` outside a response step (rule R37; log entry 6). -/
opaque Config.idleData : Nat → BitVec 64

/-- `rsp_data` of a response whose status is not `OK` (rule R31; log entry 6). -/
opaque Config.failData : Nat → BitVec 64

/-- What the chip holds at an address never written (rule R93; log entry 7). -/
opaque Config.unwritten : Addr → Byte

/-- The `SPH` of the machine of `State.reset` (rule R9; log entry 8). -/
opaque Config.sph : Sph

/-- Whether `IDLE_TIMEOUT` is finite in the machine of `State.reset` (rule R14; log entry 8). -/
opaque Config.idleTimeoutFinite : Bool

end Sys2Proof
end

