-- ==== Sys2Proof/WellFormed.lean ====
section
/-! DEFINITION. The checks on an instruction and on the parameters that their types leave open. -/

namespace Sys2Proof

/-- A write frame carries 1 to 16 data bytes (rule R115). -/
def writeFrameLengthOk (data : List Byte) : Bool :=
  1 ≤ data.length && data.length ≤ 16

/-- An instruction is well-formed: every operand is a value its encoding has room for. All operands but
a write frame's data have exactly the width of their signal, so any value of theirs is one. -/
def Instr.wf : Instr → Bool
  | .write _ data => writeFrameLengthOk data
  | .read _ | .wrdi | .rdsr | .wren => true
  | .readStatus | .writeEnable | .writeDisable | .readByte _ | .writeByte _ _ | .writePage _ _ _ => true
  | .resetLog _ | .appendReading _ | .readReading _ | .readLastReading => true
  | .readHeaderTimestamp | .readingTimestamp _ => true
  | .decideWatering _ | .reserved6 | .reserved7 | .reserved15 => true
  | .evTimer | .evManualSample | .evManualWater _ | .evSetAuto _ | .evDumpHistory => true
  | .wake | .idleTimeoutWake | .dSample | .dAutoen | .dAutowater | .dManwater => true
  | .dHistory | .historyWaitEnd | .doneSensor | .donePump | .doneHistory => true

/-- `POLL_LIMIT` is a positive integer or `INF` (rule R13). -/
def pollLimitOk : Option Nat → Bool
  | none => true
  | some limit => 1 ≤ limit

/-- The five opcodes of a machine have bit 3 clear, so the address fold collides with none of their bits
(rules R16, R113), and no two are equal (DEDUCED, log entry 9). -/
def Opcodes.wf (c : Opcodes) : Bool :=
  [c.read, c.write, c.wrdi, c.rdsr, c.wren].all (fun b => !b.getLsbD 3) &&
    decide [c.read, c.write, c.wrdi, c.rdsr, c.wren].Nodup

/-- The parameters have legal values (rules R13, R16); WIP and WEL are two bits (DEDUCED, log entry 9). -/
def Params.wf (c : Params) : Bool :=
  pollLimitOk c.pollLimit && c.opcodes.wf && c.wipBit != c.welBit

end Sys2Proof
end

