-- ==== Sys2Proof/Decode.lean ====
section
/-! DEFINITION. The decoder of every port of the opcode table, the encoder, and the reading of a word as
the table numbers its bits (30_encoding.md). -/

namespace Sys2Proof

/-! ## Instruction bytes (rules R16, R17, R111 to R117; log entry 9) -/

/-- The default opcodes (rule R16). -/
def defaultOpcodes : Opcodes :=
  { read := 0x03#8, write := 0x02#8, wrdi := 0x04#8, rdsr := 0x05#8, wren := 0x06#8 }

/-- The default `WIP_BIT` (rule R17). -/
def defaultWipBit : Fin 8 := 0

/-- The default `WEL_BIT` (rule R17). -/
def defaultWelBit : Fin 8 := 1

/-- The address fold `opc | ((address & 0x100) >> 5)` (rule R113). -/
def foldAddress (opc : Byte) (a : Addr) : Byte :=
  opc ||| ((a &&& 0x100#9) >>> 5).setWidth 8

/-- The second byte of an addressed frame, `address[7:0]` (rules R114, R115). -/
def lowAddress (a : Addr) : Byte :=
  a.setWidth 8

/-- The address of an addressed frame: bit 3 of the instruction byte is bit 8 (rule R113). -/
def unfoldAddress (instrByte low : Byte) : Addr :=
  ((instrByte &&& 0x08#8).setWidth 9 <<< 5) ||| low.setWidth 9

/-- The instruction byte without the folded address bit: the table's mask 0xF7 (rule R116). -/
def addressedOpcode (instrByte : Byte) : Byte :=
  instrByte &&& 0xF7#8

/-! ## Decoding -/

/-- Why a port's word is no instruction. -/
inductive DecodeError
  /-- a frame without an instruction byte -/
  | emptyFrame
  /-- an instruction byte other than the five of rule R116 (rule R126) -/
  | unlistedInstructionByte
  /-- a listed instruction byte with a number of bytes its format does not have -/
  | frameLength
  /-- no strobe of the port is high -/
  | noStrobe
  /-- several strobes are high: each is an instruction (rule R216) -/
  | severalStrobes
  deriving DecidableEq, Repr

/-- A serial frame under a machine's opcodes (rules R16, R111 to R116). -/
def decodeFrame (c : Opcodes) : List Byte → Except DecodeError Instr
  | [] => .error .emptyFrame
  | b :: rest =>
    if b = c.wrdi then
      match rest with
      | [] => .ok .wrdi
      | _ :: _ => .error .frameLength
    else if b = c.rdsr then
      match rest with
      | [] => .ok .rdsr
      | _ :: _ => .error .frameLength
    else if b = c.wren then
      match rest with
      | [] => .ok .wren
      | _ :: _ => .error .frameLength
    else if addressedOpcode b = c.read then
      match rest with
      | [low] => .ok (.read (unfoldAddress b low))
      | _ => .error .frameLength
    else if addressedOpcode b = c.write then
      match rest with
      | [] => .error .frameLength
      | low :: data =>
        if writeFrameLengthOk data then .ok (.write (unfoldAddress b low) data) else .error .frameLength
    else .error .unlistedInstructionByte

/-- The operation a request asks for, with the operand fields it reads (rules R118, R119). Every code
has a row: 6, 7 and 15, the last one left, are the reserved ones (rule R125). -/
def decodeRequest (r : Request) : Instr :=
  match r.op with
  | 0#4 => .readStatus
  | 1#4 => .writeEnable
  | 2#4 => .writeDisable
  | 3#4 => .readByte r.addr
  | 4#4 => .writeByte r.addr r.data
  | 5#4 => .writePage r.addr r.len r.buf
  | 6#4 => .reserved6
  | 7#4 => .reserved7
  | 8#4 => .resetLog r.ts
  | 9#4 => .appendReading r.data
  | 10#4 => .readReading r.index
  | 11#4 => .readLastReading
  | 12#4 => .readHeaderTimestamp
  | 13#4 => .readingTimestamp r.index
  | 14#4 => .decideWatering r.data
  | _ => .reserved15

/-- The instructions of the strobes that are high (rules R33, R216). -/
def decodeEvents (e : EventSignals) : List Instr :=
  (if e.timer then [.evTimer] else []) ++
  (if e.manualSample then [.evManualSample] else []) ++
  (if e.manualWater then [.evManualWater e.duration] else []) ++
  (if e.setAuto then [.evSetAuto e.autoValue] else []) ++
  (if e.dumpHistory then [.evDumpHistory] else [])

/-- The instructions of the done lines that are high (rule R34). -/
def decodeDone (d : DoneSignals) : List Instr :=
  (if d.sensor then [.doneSensor] else []) ++
  (if d.pump then [.donePump] else []) ++
  (if d.history then [.doneHistory] else [])

/-- The arbiter step `ARB.state` selects; in `IDLE`, `wake_pending` tells the two wakes apart
(rules R220 to R229). -/
def decodeArbiter (state : ArbState) (wakePending : Bool) : Instr :=
  match state with
  | .idle => if wakePending then .wake else .idleTimeoutWake
  | .dSample => .dSample
  | .dAutoen => .dAutoen
  | .dAutowater => .dAutowater
  | .dManwater => .dManwater
  | .dHistory => .dHistory
  | .wHistory => .historyWaitEnd

/-- One instruction out of the strobes that are high. -/
def decodeOne : List Instr → Except DecodeError Instr
  | [] => .error .noStrobe
  | [i] => .ok i
  | _ :: _ :: _ => .error .severalStrobes

/-- The decoder: the one instruction a port's word stands for; the opcodes tell the serial frames apart. -/
def decode (c : Opcodes) : PortWord → Except DecodeError Instr
  | .frame bytes => decodeFrame c bytes
  | .request r => .ok (decodeRequest r)
  | .event e => decodeOne (decodeEvents e)
  | .arbiter state wakePending => .ok (decodeArbiter state wakePending)
  | .done d => decodeOne (decodeDone d)

/-! ## Encoding -/

/-- The request signals of a code whose operands are not listed for it: an operation ignores a field
not listed for it (rule R119). -/
def bareRequest (op : OpCode) : Request :=
  { op := op, addr := 0, len := 0, data := 0, buf := Vector.replicate 16 0, index := 0, ts := 0 }

/-- The event port with every strobe low. -/
def quietEvents : EventSignals :=
  { timer := false, manualSample := false, manualWater := false, duration := 0, setAuto := false,
    autoValue := false, dumpHistory := false }

/-- The done lines, all low. -/
def quietDone : DoneSignals :=
  { sensor := false, pump := false, history := false }

/-- The encoder: what an instruction puts on its port (rules R16, R111 to R119, R123, R211 to R215). -/
def encode (c : Opcodes) : Instr → PortWord
  | .read a => .frame [foldAddress c.read a, lowAddress a]
  | .write a data => .frame (foldAddress c.write a :: lowAddress a :: data)
  | .wrdi => .frame [c.wrdi]
  | .rdsr => .frame [c.rdsr]
  | .wren => .frame [c.wren]
  | .readStatus => .request (bareRequest 0#4)
  | .writeEnable => .request (bareRequest 1#4)
  | .writeDisable => .request (bareRequest 2#4)
  | .readByte a => .request { bareRequest 3#4 with addr := a }
  | .writeByte a d => .request { bareRequest 4#4 with addr := a, data := d }
  | .writePage a len buf => .request { bareRequest 5#4 with addr := a, len := len, buf := buf }
  | .reserved6 => .request (bareRequest 6#4)
  | .reserved7 => .request (bareRequest 7#4)
  | .resetLog ts => .request { bareRequest 8#4 with ts := ts }
  | .appendReading v => .request { bareRequest 9#4 with data := v }
  | .readReading i => .request { bareRequest 10#4 with index := i }
  | .readLastReading => .request (bareRequest 11#4)
  | .readHeaderTimestamp => .request (bareRequest 12#4)
  | .readingTimestamp i => .request { bareRequest 13#4 with index := i }
  | .decideWatering p => .request { bareRequest 14#4 with data := p }
  | .reserved15 => .request (bareRequest 15#4)
  | .evTimer => .event { quietEvents with timer := true }
  | .evManualSample => .event { quietEvents with manualSample := true }
  | .evManualWater d => .event { quietEvents with manualWater := true, duration := d }
  | .evSetAuto v => .event { quietEvents with setAuto := true, autoValue := v }
  | .evDumpHistory => .event { quietEvents with dumpHistory := true }
  | .wake => .arbiter .idle true
  | .idleTimeoutWake => .arbiter .idle false
  | .dSample => .arbiter .dSample false
  | .dAutoen => .arbiter .dAutoen false
  | .dAutowater => .arbiter .dAutowater false
  | .dManwater => .arbiter .dManwater false
  | .dHistory => .arbiter .dHistory false
  | .historyWaitEnd => .arbiter .wHistory false
  | .doneSensor => .done { quietDone with sensor := true }
  | .donePump => .done { quietDone with pump := true }
  | .doneHistory => .done { quietDone with history := true }

/-- The bytes of a serial frame (rules R111 to R115); an instruction of another port has none. -/
def frameBytes (c : Opcodes) (i : Instr) : List Byte :=
  match encode c i with
  | .frame bytes => bytes
  | .request _ | .event _ | .arbiter _ _ | .done _ => []

/-! ## Words as spec/opcode_table.json numbers them (log entries 3 and 4)

The table gives the serial frames with the default opcodes. -/

/-- The `n` bytes of a table word, bits 7 to 0 first. -/
def wordBytes : Nat → Nat → List Byte
  | 0, _ => []
  | n + 1, w => BitVec.ofNat 8 w :: wordBytes n (w / 256)

/-- A table word on the bus. A write frame the table gives no data bits carries operand bytes of zero up
to its shortest form. -/
def tableFrame (nbits w : Nat) : List Byte :=
  let bytes := wordBytes ((nbits + 7) / 8) w
  match bytes with
  | [] => []
  | b :: rest =>
    if addressedOpcode b = defaultOpcodes.read then b :: (rest ++ List.replicate (1 - rest.length) 0#8)
    else if addressedOpcode b = defaultOpcodes.write then b :: (rest ++ List.replicate (2 - rest.length) 0#8)
    else bytes

/-- A table word on the request port: a 4-bit code, operands zero. -/
def tableRequest (w : Nat) : Option PortWord :=
  if w < 16 then some (.request (bareRequest (BitVec.ofNat 4 w))) else none

/-- A table word on the event port: the mask bits one event sets (rule R123). -/
def tableEvent (w : Nat) : Option PortWord :=
  match w with
  | 0x05 => some (encode defaultOpcodes .evTimer)
  | 0x02 => some (encode defaultOpcodes .evManualSample)
  | 0x08 => some (encode defaultOpcodes (.evManualWater 0#8))
  | 0x10 => some (encode defaultOpcodes (.evSetAuto false))
  | 0x20 => some (encode defaultOpcodes .evDumpHistory)
  | _ => none

/-- A table word of an arbiter step: the mask bits the step tests (rules R223 to R228). -/
def tableArbiter (w : Nat) : Option PortWord :=
  match w with
  | 0x03 => some (encode defaultOpcodes .dSample)
  | 0x10 => some (encode defaultOpcodes .dAutoen)
  | 0x04 => some (encode defaultOpcodes .dAutowater)
  | 0x08 => some (encode defaultOpcodes .dManwater)
  | 0x20 => some (encode defaultOpcodes .dHistory)
  | _ => none

/-- The port word of a table word. The table numbers its five spaces separately, so one number stands for
several rows; the number of bits and then a fixed order decide (log entry 4): over 8 bits a serial frame;
5 or 6 bits an event, else an arbiter step; otherwise a request code, else an event, else a frame. -/
def tableWord (nbits w : Nat) : Option PortWord :=
  if 8 < nbits then some (.frame (tableFrame nbits w))
  else if nbits = 5 ∨ nbits = 6 then (tableEvent w).or (tableArbiter w)
  else ((tableRequest w).or (tableEvent w)).or (some (.frame (tableFrame nbits w)))

/-- The instruction the decoder reads from a table word. -/
def decodeTableWord (nbits w : Nat) : Option Instr :=
  match tableWord nbits w with
  | none => none
  | some p =>
    match decode defaultOpcodes p with
    | .ok i => some i
    | .error _ => none

end Sys2Proof
end

