-- ==== Sys2Proof/Machine/State.lean ====
section
/-! DEFINITION. The state of ASE-CORE and of the chip as plain data, the reasons a step can stop, and the
state after reset (10_state.md, 20_memory.md rule R85, 70_reset_and_hazards.md section 1). -/

namespace Sys2Proof.Machine

/-- `EEC.state` (rule R39). -/
inductive EecState
  | idle
  | poll
  | wren
  | settle
  | xfer
  deriving DecidableEq, Repr, Inhabited

/-- `LOG.state` (rule R41). -/
inductive LogState
  | idle
  | hdr
  | fill
  | append
  | read
  | tsread
  deriving DecidableEq, Repr, Inhabited

/-- The registers of EEC (rules R39, R40). -/
structure EecUnit where
  state     : EecState
  /-- `EEC.poll_count` -/
  pollCount : Nat
  deriving DecidableEq, Repr

/-- The registers of LOG (rules R41, R44). -/
structure LogUnit where
  state    : LogState
  fillAddr : BitVec 10
  tsK      : BitVec 4
  tsAcc    : BitVec 64
  cursor   : BitVec 16
  deriving DecidableEq, Repr

/-- The registers of ARB (rules R42, R47 to R52). -/
structure ArbUnit where
  state            : ArbState
  mask             : Mask
  wakePending      : Bool
  liveSensor       : Bool
  livePump         : Bool
  liveHistory      : Bool
  pumpKind         : Kind
  autoReq          : Bool
  manDuration      : Byte
  autoWaterEnabled : Bool
  deriving DecidableEq, Repr

/-- The bytes written to the chip, by address: strictly rising addresses (`Memory.wf`). An address that is
not listed has never been written. -/
abbrev Memory := List Host.Cell

/-- The chip (rule R85). -/
structure Chip where
  mem     : Memory
  wel     : Bool
  wip     : Bool
  pending : List (Addr × Byte)
  deriving DecidableEq, Repr

/-- What an exchange returns: the received bytes, or `Fault` (rule R80). -/
inductive BusReply
  | ok (rx : List Byte)
  | fault
  deriving DecidableEq, Repr

/-- The bus port: the bytes of the last exchange, and its reply while EEC has not taken it. -/
structure BusPort where
  frame : List Byte
  reply : Option BusReply
  deriving DecidableEq, Repr

/-- The response port (rule R31). -/
structure RspPort where
  valid  : Bool
  status : BitVec 3
  data   : BitVec 64
  deriving DecidableEq, Repr

/-- What a step can drive on the worker and actuator ports (rules R34, R35). -/
inductive Output
  | startSensor (kind : Kind)
  | startPump (kind : Kind) (duration : Byte)
  | startHistory
  | cancelPump
  | dutyOff
  deriving DecidableEq, Repr

/-- The whole state. `cfg`, `illegalDue`, `agenda`, `tick`, `bus` and `busIn` are the model's
own (log entries 2, 8, 10, 24). -/
@[ext]
structure State where
  /-- the parameters the machine was built with -/
  cfg    : Params
  /-- the operand latches (rule R36) -/
  lat    : Request
  /-- a reserved code was accepted in the step before, and its response is due in this one (rule R125) -/
  illegalDue : Bool
  eec    : EecUnit
  log    : LogUnit
  arb    : ArbUnit
  chip   : Chip
  bus    : BusPort
  /-- the draw for the exchange of this step -/
  busIn  : BusDraw
  rsp    : RspPort
  /-- what this step drives, first output first -/
  out    : List Output
  /-- the environment's coming turns -/
  agenda : List Turn
  /-- the counter the free values are applied to -/
  tick   : Nat
  deriving DecidableEq, Repr

/-- Why the machine stops. -/
inductive Fault
  /-- Raised by the sequencer's turn when the bytes EEC puts on the bus are none of the five frames: the
  spec says nothing of what the chip does then (rule R126). Safe: the machine stops where the hardware's
  behaviour is not given. No state that meets the invariant raises it. -/
  | unlistedFrame
  deriving DecidableEq, Repr

/-- Why an instruction has no meaning. -/
inductive Refusal
  /-- Raised by an arm of `exec` whose instruction has no meaning yet; no arm does. Safe. -/
  | notModelled (mnemonic : String)
  deriving DecidableEq, Repr

/-! ## Updates of one part of the state -/

/-- `s` with the operand latches `x`. -/
def State.withLat (s : State) (x : Request) : State := { s with lat := x }
/-- `s` with the pending answer to a reserved code set to `x`. -/
def State.withIllegalDue (s : State) (x : Bool) : State := { s with illegalDue := x }
/-- `s` with the EEC registers `x`. -/
def State.withEec (s : State) (x : EecUnit) : State := { s with eec := x }
/-- `s` with the LOG registers `x`. -/
def State.withLog (s : State) (x : LogUnit) : State := { s with log := x }
/-- `s` with the ARB registers `x`. -/
def State.withArb (s : State) (x : ArbUnit) : State := { s with arb := x }
/-- `s` with the chip `x`. -/
def State.withChip (s : State) (x : Chip) : State := { s with chip := x }
/-- `s` with the bus port `x`. -/
def State.withBus (s : State) (x : BusPort) : State := { s with bus := x }
/-- `s` with the bus draw `x`. -/
def State.withBusIn (s : State) (x : BusDraw) : State := { s with busIn := x }
/-- `s` with the response port `x`. -/
def State.withRsp (s : State) (x : RspPort) : State := { s with rsp := x }
/-- `s` with the outputs `x`. -/
def State.withOut (s : State) (x : List Output) : State := { s with out := x }
/-- `s` with the agenda `x`. -/
def State.withAgenda (s : State) (x : List Turn) : State := { s with agenda := x }
/-- `s` with the counter `x`. -/
def State.withTick (s : State) (x : Nat) : State := { s with tick := x }

/-! ## Reset -/

/-- The parameters of the machine of `State.reset`: the defaults of rules R13, R16, R17 and R20, the rest free
(log entry 8). -/
def resetParams : Params :=
  { sph := Config.sph
    pollLimit := none
    idleTimeoutFinite := Config.idleTimeoutFinite
    sampleCollapse := .clearBoth
    welAnyExchange := false
    autoWaterReset := false
    opcodes := defaultOpcodes
    wipBit := defaultWipBit
    welBit := defaultWelBit }

/-- The reset values of the latches: unspecified in rule R36, zero here (log entry 5, DESIGN CHOICE). -/
def resetLatches : Request := bareRequest 0#4

/-- The reset values of EEC (rule R311). -/
def resetEec : EecUnit := { state := .idle, pollCount := 0 }

/-- The reset values of LOG (rule R312); the scratch registers are unspecified, zero here (log entry 5). -/
def resetLogUnit : LogUnit := { state := .idle, fillAddr := 0, tsK := 0, tsAcc := 0, cursor := 0 }

/-- The reset values of ARB (rule R313); `pump_kind`, `auto_req` and `man_duration` are unspecified, zero
here (log entry 5). -/
def resetArb (c : Params) : ArbUnit :=
  { state := .idle
    mask := 0
    wakePending := false
    liveSensor := false
    livePump := false
    liveHistory := false
    pumpKind := .auto
    autoReq := false
    manDuration := 0
    autoWaterEnabled := c.autoWaterReset }

/-- The chip at power-up, nothing ever written (rule R93). -/
def newChip : Chip := { mem := [], wel := false, wip := false, pending := [] }

/-- The bus port with no exchange made. -/
def resetBus : BusPort := { frame := [], reply := none }

/-- A draw with every field zero. -/
def quietDraw : BusDraw :=
  { fault := false, status := 0, busyByte := 0, latch := false, landed := 0, started := false }

/-- The response port after reset: no response (rule R311); the registers are unspecified, zero here
(log entry 5). -/
def resetRsp : RspPort := { valid := false, status := 0, data := 0 }

/-- The machine right after power-up and reset (rules R310 to R316, R93). -/
def State.reset : State :=
  { cfg := resetParams
    lat := resetLatches
    illegalDue := false
    eec := resetEec
    log := resetLogUnit
    arb := resetArb resetParams
    chip := newChip
    bus := resetBus
    busIn := quietDraw
    rsp := resetRsp
    out := []
    agenda := []
    tick := 0 }

end Sys2Proof.Machine
end

