-- ==== Sys2Proof/Machine/Flags.lean ====
section
/-! DEFINITION. The one-bit and coded values: response statuses, the chip's status byte, the mask bits and
the kind codes (30_encoding.md rules R117, R121 to R124). -/

namespace Sys2Proof.Machine

/-- The outcomes of an operation (rules R121, R270 to R277). -/
inductive Status
  | ok
  | sizeExceedsPage
  | busFault
  | full
  | deviceUnresponsive
  | none
  | illegalOp
  deriving DecidableEq, Repr

/-- `rsp_status` of an outcome (rule R121); 6 is never produced. -/
def statusCode : Status → BitVec 3
  | .ok => 0
  | .sizeExceedsPage => 1
  | .busFault => 2
  | .full => 3
  | .deviceUnresponsive => 4
  | .none => 5
  | .illegalOp => 7

/-- The one-bit code of a kind (rule R124). -/
def kindCode : Kind → BitVec 1
  | .auto => 0
  | .manual => 1

/-! ## The status byte (rules R17, R117) -/

/-- A byte with one bit set to a value. -/
def setBit (b : Byte) (k : Fin 8) (v : Bool) : Byte :=
  if v then b ||| (1#8 <<< k.val) else b &&& ~~~(1#8 <<< k.val)

/-- The byte a status exchange returns: WIP in `WIP_BIT`, WEL in `WEL_BIT`, the other bits drawn (rule R86). -/
def statusByte (c : Params) (wip wel : Bool) (others : Byte) : Byte :=
  setBit (setBit others c.welBit wel) c.wipBit wip

/-- The only bit of a status byte EEC examines (rule R141). -/
def busyBit (c : Params) (status : Byte) : Bool :=
  status.getLsbD c.wipBit

/-! ## The pending-action mask (rules R122, R123) -/

/-- `AUTO_SAMPLE`. -/
def autoSampleBit : Mask := 0x01#6
/-- `MANUAL_SAMPLE`. -/
def manualSampleBit : Mask := 0x02#6
/-- `AUTO_WATER`. -/
def autoWaterBit : Mask := 0x04#6
/-- `MANUAL_WATER`. -/
def manualWaterBit : Mask := 0x08#6
/-- `SET_AUTO_EN`. -/
def setAutoEnBit : Mask := 0x10#6
/-- `DUMP_HISTORY`. -/
def dumpHistoryBit : Mask := 0x20#6

/-- A bit of the mask is pending (rule R47). -/
def maskHas (m bit : Mask) : Bool :=
  (m &&& bit) != 0

/-- A producer's set (rule R96). -/
def maskSet (m bits : Mask) : Mask :=
  m ||| bits

/-- The arbiter's clear of its own bit (rule R231). -/
def maskClear (m bit : Mask) : Mask :=
  m &&& ~~~bit

end Sys2Proof.Machine
end

