-- ==== Sys2Proof/Machine/Operands.lean ====
section
/-! DEFINITION. Operand computations: the layout constants, the page arithmetic, the byte lists of the
timestamp, the sub-operation LOG has due, and the frame EEC has due. -/

namespace Sys2Proof.Machine

/-! ## Layout and parameters (00_scope.md section 3) -/

/-- `HEADER_SIZE = FIRST_DATA = 8` (rule R8). -/
def headerSize : Nat := 8

/-- `PAGE_SIZE = 16` (rule R7). -/
def pageSize : Nat := 16

/-- `N = 24 * SPH` (rule R9). -/
def slotCount (c : Params) : Nat := 24 * c.sph.toNat

/-- `CEILING = HEADER_SIZE + N` (rule R9). -/
def ceiling (c : Params) : Nat := headerSize + slotCount c

/-- `SAMPLE_PERIOD_S = 3600 / SPH` (rule R11). -/
def samplePeriod (c : Params) : Nat := 3600 / c.sph.toNat

/-- The log is initialised (rule R45). -/
def initialised (cursor : BitVec 16) : Bool := headerSize ≤ cursor.toNat

/-- `count`, meaningful when the log is initialised (rule R45). -/
def readingCount (cursor : BitVec 16) : Nat := cursor.toNat - headerSize

/-! ## Page arithmetic (rules R78, R150, R182) -/

/-- `maxSize = 16 - (address % 16)` (rule R150). -/
def maxSize (a : Addr) : Nat := pageSize - a.toNat % pageSize

/-- The `i`-th address of a write burst, wrapping inside its page (rule R89). -/
def burstAddress (a : Addr) (i : Nat) : Addr :=
  (a &&& 0x1F0#9) ||| ((a + BitVec.ofNat 9 i) &&& 0x00F#9)

/-- The (address, byte) pairs of a write frame (rule R89). -/
def writePairs (a : Addr) (data : List Byte) : List (Addr × Byte) :=
  data.zipIdx.map fun p => (burstAddress a p.2, p.1)

/-- The length of the zero-fill burst at `fill` (rule R182). -/
def fillBurst (c : Params) (fill : BitVec 10) : Nat :=
  min (pageSize - fill.toNat % pageSize) (ceiling c - fill.toNat)

/-! ## The timestamp (rules R22, R75) -/

/-- Byte `k` of a timestamp, bits `8k+7` to `8k`. -/
def timestampByte (t : BitVec 64) (k : Nat) : Byte := t.extractLsb' (8 * k) 8

/-- `LE64(t)` in the first eight elements of a page buffer. -/
def le64Buf (t : BitVec 64) : PageBuf :=
  Vector.ofFn fun i => if i.val < 8 then timestampByte t i.val else 0#8

/-- `acc[8k+7 : 8k] <- b` (rule R186). -/
def insertTimestampByte (acc : BitVec 64) (k : Nat) (b : Byte) : BitVec 64 :=
  (acc &&& ~~~(0xFF#64 <<< (8 * k))) ||| (b.setWidth 64 <<< (8 * k))

/-- A page buffer of zeros. -/
def zeroBuf : PageBuf := Vector.replicate 16 0#8

/-! ## Results (rules R120, R187, R260) -/

/-- The received bytes as a response value: the byte zero-extended, or 0 where none is received. -/
def receivedData : List Byte → BitVec 64
  | [] => 0
  | b :: _ => b.setWidth 64

/-- The status byte of a received list. -/
def receivedStatus : List Byte → Byte
  | [] => 0
  | b :: _ => b

/-- `index * SAMPLE_PERIOD_S`, a 32-bit product (rules R187, R188). -/
def elapsedSeconds (c : Params) (index : BitVec 16) : BitVec 32 :=
  index.setWidth 32 * BitVec.ofNat 32 (samplePeriod c)

/-- `POL_THRESHOLD` (rule R18). -/
def polThreshold : Nat := 50
/-- `POL_DIV` (rule R18). -/
def polDiv : Nat := 10
/-- `POL_STEP_S` (rule R18). -/
def polStepS : Nat := 10

/-- `decide_watering`: the duration in seconds, or none (rule R260). -/
def wateringSeconds (moisture : Byte) : Option Nat :=
  if polThreshold ≤ moisture.toNat then none
  else some (((polThreshold - moisture.toNat) / polDiv + 1) * polStepS)

/-! ## What is due -/

/-- The operations of EEC, `req_op` 0 to 5 (rule R140). -/
def isDriverOp : Instr → Bool
  | .readStatus | .writeEnable | .writeDisable | .readByte _ | .writeByte _ _ | .writePage _ _ _ => true
  | .read _ | .write _ _ | .wrdi | .rdsr | .wren | .resetLog _ | .appendReading _ | .readReading _ |
    .readLastReading | .readHeaderTimestamp | .readingTimestamp _ | .decideWatering _ | .reserved6 |
    .reserved7 | .reserved15 | .evTimer | .evManualSample | .evManualWater _ | .evSetAuto _ |
    .evDumpHistory | .wake | .idleTimeoutWake | .dSample | .dAutoen | .dAutowater | .dManwater | .dHistory |
    .historyWaitEnd | .doneSensor | .donePump | .doneHistory => false

/-- The operations that begin with a busy-poll (rules R141, R145 to R147). -/
def polls : Instr → Bool
  | .readByte _ | .writeByte _ _ | .writePage _ _ _ => true
  | .read _ | .write _ _ | .wrdi | .rdsr | .wren | .readStatus | .writeEnable | .writeDisable |
    .resetLog _ | .appendReading _ | .readReading _ | .readLastReading | .readHeaderTimestamp |
    .readingTimestamp _ | .decideWatering _ | .reserved6 | .reserved7 | .reserved15 | .evTimer |
    .evManualSample | .evManualWater _ | .evSetAuto _ | .evDumpHistory | .wake | .idleTimeoutWake |
    .dSample | .dAutoen | .dAutowater | .dManwater | .dHistory | .historyWaitEnd | .doneSensor | .donePump |
    .doneHistory => false

/-- The write operations, which enable before they write (rule R148). -/
def writes : Instr → Bool
  | .writeByte _ _ | .writePage _ _ _ => true
  | .read _ | .write _ _ | .wrdi | .rdsr | .wren | .readStatus | .writeEnable | .writeDisable |
    .readByte _ | .resetLog _ | .appendReading _ | .readReading _ | .readLastReading |
    .readHeaderTimestamp | .readingTimestamp _ | .decideWatering _ | .reserved6 | .reserved7 | .reserved15 |
    .evTimer | .evManualSample | .evManualWater _ | .evSetAuto _ | .evDumpHistory | .wake |
    .idleTimeoutWake | .dSample | .dAutoen | .dAutowater | .dManwater | .dHistory | .historyWaitEnd |
    .doneSensor | .donePump | .doneHistory => false

/-- The address `read_reading` and `read_last_reading` read (rules R184, R185). -/
def slotAddress (s : State) : Addr :=
  if s.lat.op = 11#4 then (s.log.cursor - 1).setWidth 9
  else (BitVec.ofNat 16 headerSize + s.lat.index).setWidth 9

/-- The EEC operation in progress or next: the accepted one, or the sub-operation of the LOG operation in
progress (rules R140, R180 to R186). None: a LOG loop has reached its end, or no EEC operation is latched. -/
def dueOp (s : State) : Option Instr :=
  match s.log.state with
  | .idle => if isDriverOp (decodeRequest s.lat) then some (decodeRequest s.lat) else none
  | .hdr => some (.writePage 0 8 (le64Buf s.lat.ts))
  | .fill =>
    if s.log.fillAddr.toNat < ceiling s.cfg then
      some (.writePage (s.log.fillAddr.setWidth 9) (BitVec.ofNat 5 (fillBurst s.cfg s.log.fillAddr)) zeroBuf)
    else none
  | .append => some (.writeByte (s.log.cursor.setWidth 9) s.lat.data)
  | .read => some (.readByte (slotAddress s))
  | .tsread => if s.log.tsK.toNat < 8 then some (.readByte (s.log.tsK.setWidth 9)) else none

/-- The last frame of an EEC operation (rules R142 to R147). -/
def finalFrame : Instr → Option Instr
  | .readStatus => some .rdsr
  | .writeEnable => some .wren
  | .writeDisable => some .wrdi
  | .readByte a => some (.read a)
  | .writeByte a b => some (.write a [b])
  | .writePage a len buf => some (.write a (buf.toList.take len.toNat))
  | .read _ | .write _ _ | .wrdi | .rdsr | .wren | .resetLog _ | .appendReading _ | .readReading _ |
    .readLastReading | .readHeaderTimestamp | .readingTimestamp _ | .decideWatering _ | .reserved6 |
    .reserved7 | .reserved15 | .evTimer | .evManualSample | .evManualWater _ | .evSetAuto _ |
    .evDumpHistory | .wake | .idleTimeoutWake | .dSample | .dAutoen | .dAutowater | .dManwater | .dHistory |
    .historyWaitEnd | .doneSensor | .donePump | .doneHistory => none

/-- The frame EEC has due, from `EEC.state`, while no reply is waiting to be taken (rules R39, R141, R152). -/
def dueFrame (s : State) : Option Instr :=
  match s.bus.reply with
  | some _ => none
  | none =>
    match s.eec.state with
    | .idle | .settle => none
    | .poll => some .rdsr
    | .wren => some .wren
    | .xfer => (dueOp s).bind finalFrame

/-- `req_ready` (rule R30). -/
def reqReady (s : State) : Bool :=
  s.eec.state == .idle && s.log.state == .idle

end Sys2Proof.Machine
end

