-- ==== Sys2Proof/Machine/Ops.lean ====
section
/-! DEFINITION. The shared operations: the chip's memory and reactions, the exchange, the end of an operation
with a status, the sequences of EEC and LOG, and the arbiter's dispatch of a worker and its completion. -/

namespace Sys2Proof.Machine

/-! ## The chip's memory (rules R70, R93) -/

/-- The byte written last to an address, none if it has never been written. -/
def Memory.read : Memory → Nat → Option Byte
  | [], _ => none
  | c :: m, a => if c.1 = a then some c.2 else Memory.read m a

/-- Writes one byte; the list stays in address order. -/
def Memory.write : Memory → Nat → Byte → Memory
  | [], a, b => [(a, b)]
  | c :: m, a, b =>
    if a < c.1 then (a, b) :: c :: m
    else if a = c.1 then (a, b) :: m
    else c :: Memory.write m a b

/-- The canonical form: strictly rising addresses, all of them the chip's. An address not listed reads as no
value at all, so no entry can equal it. -/
abbrev Memory.wf (m : Memory) : Prop :=
  m.Pairwise (fun x y => x.1 < y.1) ∧ ∀ c ∈ m, c.1 < 512

/-- The byte the chip holds at an address: the one written last, or the free value of a byte never written
(rule R93, log entry 7). -/
def Chip.byteAt (c : Chip) (a : Addr) : Byte :=
  (Memory.read c.mem a.toNat).getD (Config.unwritten a)

/-- `MemWrite` of each pair in turn (rules R22, R90). -/
def storePairs (m : Memory) : List (Addr × Byte) → Memory
  | [] => m
  | p :: ps => storePairs (Memory.write m p.1.toNat p.2) ps

/-! ## The chip's reactions (rules R86 to R92) -/

/-- The latch at the end of an exchange other than a write-enable the chip takes: cleared under the switch
`WEL_ANY_EXCHANGE` (rule R88, log entry 14). -/
def Chip.endExchange (c : Chip) (cfg : Params) : Chip :=
  { c with wel := c.wel && !cfg.welAnyExchange }

/-- Status exchange (rule R86). -/
def reactRdsr (cfg : Params) (d : BusDraw) (c : Chip) : Chip × List Byte :=
  (c.endExchange cfg, [statusByte cfg c.wip c.wel d.status])

/-- Write-enable exchange (rule R87). -/
def reactWren (cfg : Params) (c : Chip) : Chip × List Byte :=
  (if c.wip then c.endExchange cfg else { c with wel := true }, [])

/-- Write-disable exchange (rule R92). -/
def reactWrdi (c : Chip) : Chip × List Byte :=
  ({ c with wel := false }, [])

/-- Read exchange (rule R91). -/
def reactRead (cfg : Params) (d : BusDraw) (a : Addr) (c : Chip) : Chip × List Byte :=
  (c.endExchange cfg, [if c.wip then d.busyByte else c.byteAt a])

/-- Write exchange (rule R89). -/
def reactWrite (cfg : Params) (pairs : List (Addr × Byte)) (c : Chip) : Chip × List Byte :=
  ((if c.wel && !c.wip then { c with wip := true, pending := pairs } else c).endExchange cfg, [])

/-- The pairs of a faulted write whose bytes take the new value: a draw per byte (rule R81, U7). -/
def landedPairs (d : BusDraw) (pairs : List (Addr × Byte)) : List (Addr × Byte) :=
  (pairs.zipIdx.filter fun p => d.landed.getLsbD p.2).map Prod.fst

/-- The chip after a faulted exchange: the latch is drawn; each byte a write frame addressed is old or new,
at once or at the end of a write the chip has started (rule R81, log entry 13). -/
def Chip.faulted (c : Chip) (d : BusDraw) (pairs : List (Addr × Byte)) : Chip :=
  if d.started && !c.wip && !pairs.isEmpty then
    { c with wel := d.latch, wip := true, pending := landedPairs d pairs }
  else
    { c with wel := d.latch, mem := storePairs c.mem (landedPairs d pairs) }

/-- The bytes a frame addresses for writing. -/
def addressedPairs : Instr → List (Addr × Byte)
  | .write a data => writePairs a data
  | .read _ | .wrdi | .rdsr | .wren | .readStatus | .writeEnable | .writeDisable | .readByte _ |
    .writeByte _ _ | .writePage _ _ _ | .resetLog _ | .appendReading _ | .readReading _ | .readLastReading |
    .readHeaderTimestamp | .readingTimestamp _ | .decideWatering _ | .reserved6 | .reserved7 | .reserved15 |
    .evTimer | .evManualSample | .evManualWater _ | .evSetAuto _ | .evDumpHistory | .wake |
    .idleTimeoutWake | .dSample | .dAutoen | .dAutowater | .dManwater | .dHistory | .historyWaitEnd |
    .doneSensor | .donePump | .doneHistory => []

/-- One exchange (rules R80, R81): the frame goes out; without a fault the chip has reacted and its bytes are
the reply, with one the chip is as after a fault. -/
def exchange (frame : Instr) (reaction : Chip × List Byte) (s : State) : State :=
  if s.busIn.fault then
    (s.withChip (s.chip.faulted s.busIn (addressedPairs frame))).withBus
      { frame := frameBytes s.cfg.opcodes frame, reply := some .fault }
  else
    (s.withChip reaction.1).withBus { frame := frameBytes s.cfg.opcodes frame, reply := some (.ok reaction.2) }

/-- Write completion, enabled when `WIP = 1` (rule R90). -/
def Chip.complete (c : Chip) : Chip :=
  if c.wip then { mem := storePairs c.mem c.pending, wel := false, wip := false, pending := [] } else c

/-! ## Ending an operation (rules R22, R31, R120) -/

/-- The response of the operation that ends in this step; without `OK` its data are free (rule R31). -/
def respond (st : Status) (data : BitVec 64) (s : State) : State :=
  s.withRsp
    { valid := true
      status := statusCode st
      data := if st = .ok then data else Config.failData s.tick }

/-- `raise` in a LOG operation, and its other ends: LOG is idle and the status is delivered (rules R22, R190). -/
def endLog (st : Status) (data : BitVec 64) (s : State) : State :=
  respond st data (s.withLog { s.log with state := .idle })

/-- What LOG does with the end of a sub-operation (rules R181 to R186, R190): any status but `OK` ends the LOG
operation with it, the cursor untouched; `OK` moves the operation on. -/
def logReceive (st : Status) (data : BitVec 64) (s : State) : State :=
  if st = .ok then
    match s.log.state with
    | .idle => s
    | .hdr => s.withLog { s.log with state := .fill, fillAddr := BitVec.ofNat 10 headerSize }
    | .fill =>
      s.withLog { s.log with fillAddr := s.log.fillAddr + BitVec.ofNat 10 (fillBurst s.cfg s.log.fillAddr) }
    | .append => endLog .ok 0 (s.withLog { s.log with cursor := s.log.cursor + 1 })
    | .read => endLog .ok data s
    | .tsread =>
      s.withLog { s.log with
        tsAcc := insertTimestampByte s.log.tsAcc s.log.tsK.toNat (data.setWidth 8)
        tsK := s.log.tsK + 1 }
  else endLog st 0 s

/-- The end of an EEC operation: EEC is idle, and the status goes to LOG if LOG called it, else to the
response port (rules R140, R151, R152). -/
def endDriver (st : Status) (data : BitVec 64) (s : State) : State :=
  let s1 := (s.withEec { s.eec with state := .idle }).withBus { s.bus with reply := none }
  if s1.log.state = .idle then respond st data s1 else logReceive st data s1

/-! ## The EEC sequence (rules R141 to R152) -/

/-- `EEC.state <- S` with the reply taken. -/
def gotoPhase (phase : EecState) (s : State) : State :=
  (s.withEec { s.eec with state := phase }).withBus { s.bus with reply := none }

/-- The entry to the busy-poll (rule R141). -/
def enterPoll (s : State) : State :=
  s.withEec { state := .poll, pollCount := 0 }

/-- The first step of an EEC operation (rules R142 to R147, R152). -/
def startDriver (op : Instr) (s : State) : State :=
  match op with
  | .writePage a len _ =>
    if maxSize a < len.toNat then endDriver .sizeExceedsPage 0 s
    else if len = 0 then endDriver .ok 0 s
    else enterPoll s
  | .readByte _ | .writeByte _ _ => enterPoll s
  | .readStatus | .writeEnable | .writeDisable => s.withEec { s.eec with state := .xfer }
  | .read _ | .write _ _ | .wrdi | .rdsr | .wren | .resetLog _ | .appendReading _ | .readReading _ |
    .readLastReading | .readHeaderTimestamp | .readingTimestamp _ | .decideWatering _ | .reserved6 |
    .reserved7 | .reserved15 | .evTimer | .evManualSample | .evManualWater _ | .evSetAuto _ |
    .evDumpHistory | .wake | .idleTimeoutWake | .dSample | .dAutoen | .dAutowater | .dManwater | .dHistory |
    .historyWaitEnd | .doneSensor | .donePump | .doneHistory => s

/-- A busy answer of the poll: counted when `POLL_LIMIT` is finite, and the last one raises (rules R40, R141,
log entry 18). -/
def pollBusy (s : State) : State :=
  match s.cfg.pollLimit with
  | none => gotoPhase .poll s
  | some limit =>
    let s1 := s.withEec { s.eec with pollCount := s.eec.pollCount + 1 }
    if limit ≤ s.eec.pollCount + 1 then endDriver .deviceUnresponsive 0 s1 else gotoPhase .poll s1

/-- The end of a poll: a write goes on to its enable, a read to its frame (rule R152). -/
def pollDone (s : State) : State :=
  match dueOp s with
  | some op => gotoPhase (if writes op then .wren else .xfer) s
  | none => s

/-- EEC's next step when no exchange is due: it takes the reply that is waiting, or ends the settle wait
(rules R141 to R147, R151, R152). Without a reply it has nothing to do. -/
def driverStep (s : State) : State :=
  match s.eec.state, s.bus.reply with
  | .idle, _ => s
  | .settle, _ => gotoPhase .xfer s
  | .poll, some (.ok rx) => if busyBit s.cfg (receivedStatus rx) then pollBusy s else pollDone s
  | .wren, some (.ok _) => gotoPhase .settle s
  | .xfer, some (.ok rx) => endDriver .ok (receivedData rx) s
  | _, some .fault => endDriver .busFault 0 s
  | _, none => s

/-! ## The LOG sequence (rules R180 to R190) -/

/-- LOG's next step while EEC is idle: it calls the sub-operation that is due, or its loop has ended
(rules R181, R186). -/
def logStep (s : State) : State :=
  match dueOp s with
  | some op => startDriver op s
  | none =>
    match s.log.state with
    | .fill => endLog .ok 0 (s.withLog { s.log with cursor := BitVec.ofNat 16 headerSize })
    | .tsread => endLog .ok s.log.tsAcc s
    | .idle | .hdr | .append | .read => s

/-- The next step of the operation in progress: EEC's while EEC is busy, else LOG's. -/
def continueOp (s : State) : State :=
  if s.eec.state ≠ .idle then driverStep s
  else if s.log.state ≠ .idle then logStep s
  else s

/-- One step of an operation of the request port (rules R23, R30, R140, R180): with `req_ready` it is accepted,
its operands are latched and its first step runs; while it is the operation in progress its next step runs;
while another is, it is not accepted and nothing changes (log entries 1 and 12). -/
def requestStep (op : OpCode) (latch : Request → Request) (first : State → State) (s : State) : State :=
  if reqReady s then first (s.withLat { latch s.lat with op := op })
  else if s.lat.op = op then continueOp s
  else s

/-- One step of an operation that ends in the step that accepts it (rules R187, R260). -/
def requestAtOnce (op : OpCode) (latch : Request → Request) (st : Status) (data : BitVec 64) (s : State) : State :=
  if reqReady s then respond st data (s.withLat { latch s.lat with op := op }) else s

/-- One step of a reserved code: accepted, it is latched and changes nothing else; in the next step it ends with
`ILLEGAL_OP` (rule R125, log entry 10). -/
def requestIllegal (op : OpCode) (s : State) : State :=
  if reqReady s then
    if s.illegalDue ∧ s.lat.op = op then respond .illegalOp 0 (s.withIllegalDue false)
    else (s.withLat { s.lat with op := op }).withIllegalDue true
  else s

/-- `LOG.state <- S`. -/
def gotoLog (phase : LogState) (s : State) : State :=
  s.withLog { s.log with state := phase }

/-! ## Events, dispatch and completion (rules R211 to R230, R240 to R242, R289, R290) -/

/-- A producer's set and signal, one step (rules R216, R217). -/
def raiseEvent (bits : Mask) (s : State) : State :=
  s.withArb { s.arb with mask := maskSet s.arb.mask bits, wakePending := true }

/-- `emit` (rule R22). -/
def emit (o : Output) (s : State) : State :=
  s.withOut (s.out ++ [o])

/-- `ARB.state <- S`. -/
def gotoArb (next : ArbState) (s : State) : State :=
  s.withArb { s.arb with state := next }

/-- An arbiter step selected by `ARB.state`; in any other state it is not enabled and nothing changes
(log entry 12). -/
def arbiterStep (at_ : ArbState) (body : State → State) (s : State) : State :=
  if s.arb.state = at_ then body s else s

/-- Clears pending bits (rule R231). -/
def clearBits (bits : Mask) (s : State) : State :=
  s.withArb { s.arb with mask := maskClear s.arb.mask bits }

/-- Dispatch of the sensor worker: nothing if one is live (rules R223, R230). -/
def startSensor (kind : Kind) (s : State) : State :=
  if s.arb.liveSensor then s
  else emit (.startSensor kind) (s.withArb { s.arb with liveSensor := true })

/-- Dispatch of a pump worker with its copied arguments: nothing if one is live (rules R34, R225, R226, R230). -/
def startPump (kind : Kind) (duration : Byte) (s : State) : State :=
  if s.arb.livePump then s
  else emit (.startPump kind duration) (s.withArb { s.arb with livePump := true, pumpKind := kind })

/-- Dispatch of the history worker: nothing if one is live (rules R228, R230). -/
def startHistory (s : State) : State :=
  if s.arb.liveHistory then s
  else emit .startHistory (s.withArb { s.arb with liveHistory := true })

/-- The cancelling path: a live auto pump worker is stopped, the actuator is forced off, the handle cleared
(rule R227). -/
def cancelAutoPump (s : State) : State :=
  if s.arb.livePump ∧ s.arb.pumpKind = .auto then
    (emit .dutyOff (emit .cancelPump s)).withArb { s.arb with livePump := false }
  else s

end Sys2Proof.Machine
end

