-- ==== Sys2Proof/Machine/Arbiter.lean ====
section
/-! DEFINITION. The eight arbiter steps (42_scheduler.md section 3). -/

namespace Sys2Proof.Machine

/-- `wake`, enabled in `IDLE` with `wake_pending = 1` (rule R220). -/
def execWake (s : State) : Host.Outcome State Fault Refusal :=
  .next (arbiterStep .idle (fun s =>
    if s.arb.wakePending then s.withArb { s.arb with wakePending := false, state := .dSample } else s) s)

/-- `idle_timeout_wake`, enabled in `IDLE` with `wake_pending = 0` and a finite `IDLE_TIMEOUT` (rule R221). -/
def execIdleTimeoutWake (s : State) : Host.Outcome State Fault Refusal :=
  .next (arbiterStep .idle (fun s =>
    if !s.arb.wakePending && s.cfg.idleTimeoutFinite then gotoArb .dSample s else s) s)

/-- The sample bits `D_SAMPLE` clears when one of them is set (rule R223). -/
def sampleClear (collapse : SampleCollapse) (m : Mask) : Mask :=
  match collapse with
  | .clearBoth => autoSampleBit ||| manualSampleBit
  | .keepManual => if maskHas m autoSampleBit then autoSampleBit else manualSampleBit

/-- The kind of the sample, auto first (rules R222, R223). -/
def sampleKind (m : Mask) : Kind :=
  if maskHas m autoSampleBit then .auto else .manual

/-- `D_SAMPLE` (rule R223). -/
def execDSample (s : State) : Host.Outcome State Fault Refusal :=
  .next (arbiterStep .dSample (fun s =>
    gotoArb .dAutoen
      (if maskHas s.arb.mask (autoSampleBit ||| manualSampleBit) then
        startSensor (sampleKind s.arb.mask) (clearBits (sampleClear s.cfg.sampleCollapse s.arb.mask) s)
       else s)) s)

/-- `D_AUTOEN` (rule R224). -/
def execDAutoen (s : State) : Host.Outcome State Fault Refusal :=
  .next (arbiterStep .dAutoen (fun s =>
    gotoArb .dAutowater
      (if maskHas s.arb.mask setAutoEnBit then
        clearBits setAutoEnBit (s.withArb { s.arb with autoWaterEnabled := s.arb.autoReq })
       else s)) s)

/-- `D_AUTOWATER` (rule R225). -/
def execDAutowater (s : State) : Host.Outcome State Fault Refusal :=
  .next (arbiterStep .dAutowater (fun s =>
    gotoArb .dManwater
      (if maskHas s.arb.mask autoWaterBit then
        (if s.arb.autoWaterEnabled then startPump .auto 0 (clearBits autoWaterBit s)
         else clearBits autoWaterBit s)
       else s)) s)

/-- `D_MANWATER` with the cancelling path (rules R226, R227). -/
def execDManwater (s : State) : Host.Outcome State Fault Refusal :=
  .next (arbiterStep .dManwater (fun s =>
    gotoArb .dHistory
      (if maskHas s.arb.mask manualWaterBit then
        startPump .manual s.arb.manDuration (cancelAutoPump (clearBits manualWaterBit s))
       else s)) s)

/-- `D_HISTORY` (rule R228). -/
def execDHistory (s : State) : Host.Outcome State Fault Refusal :=
  .next (arbiterStep .dHistory (fun s =>
    if maskHas s.arb.mask dumpHistoryBit then
      gotoArb .wHistory (startHistory (clearBits dumpHistoryBit s))
    else gotoArb .idle s) s)

/-- `history_wait_end`, enabled in `W_HISTORY` with `live_history = 0` (rule R229). -/
def execHistoryWaitEnd (s : State) : Host.Outcome State Fault Refusal :=
  .next (arbiterStep .wHistory (fun s => if s.arb.liveHistory then s else gotoArb .idle s) s)

end Sys2Proof.Machine
end

