-- ==== Sys2Proof/Machine/Driver.lean ====
section
/-! DEFINITION. The six operations of EEC (40_chip_driver.md). Each meaning is the operation's next atomic
step: its first, or while it is in progress the one EEC has next. -/

namespace Sys2Proof.Machine

/-- `read_status()` (rule R142). -/
def execReadStatus (s : State) : Host.Outcome State Fault Refusal :=
  .next (requestStep 0#4 id (startDriver .readStatus) s)

/-- `write_enable()` (rule R143). -/
def execWriteEnable (s : State) : Host.Outcome State Fault Refusal :=
  .next (requestStep 1#4 id (startDriver .writeEnable) s)

/-- `write_disable()` (rule R144). -/
def execWriteDisable (s : State) : Host.Outcome State Fault Refusal :=
  .next (requestStep 2#4 id (startDriver .writeDisable) s)

/-- `read_byte(address)` (rule R145). -/
def execReadByte (a : Addr) (s : State) : Host.Outcome State Fault Refusal :=
  .next (requestStep 3#4 (fun l => { l with addr := a }) (startDriver (.readByte a)) s)

/-- `write_byte(address, byte)` (rule R146). -/
def execWriteByte (a : Addr) (b : Byte) (s : State) : Host.Outcome State Fault Refusal :=
  .next (requestStep 4#4 (fun l => { l with addr := a, data := b }) (startDriver (.writeByte a b)) s)

/-- `write_page(address, buffer, length)` (rule R147). -/
def execWritePage (a : Addr) (len : BitVec 5) (buf : PageBuf) (s : State) : Host.Outcome State Fault Refusal :=
  .next (requestStep 5#4 (fun l => { l with addr := a, len := len, buf := buf })
    (startDriver (.writePage a len buf)) s)

/-- Reserved code 6 (rule R125, log entry 10). -/
def execReserved6 (s : State) : Host.Outcome State Fault Refusal :=
  .next (requestIllegal 6#4 s)

/-- Reserved code 7 (rule R125, log entry 10). -/
def execReserved7 (s : State) : Host.Outcome State Fault Refusal :=
  .next (requestIllegal 7#4 s)

/-- Reserved code 15 (rule R125, log entry 10). -/
def execReserved15 (s : State) : Host.Outcome State Fault Refusal :=
  .next (requestIllegal 15#4 s)

end Sys2Proof.Machine
end

