-- ==== Sys2Proof/Machine/Events.lean ====
section
/-! DEFINITION. The five producer events (42_scheduler.md section 2). -/

namespace Sys2Proof.Machine

/-- `ev_timer` (rule R211). -/
def execEvTimer (s : State) : Host.Outcome State Fault Refusal :=
  .next (raiseEvent (autoSampleBit ||| autoWaterBit) s)

/-- `ev_manual_sample` (rule R212). -/
def execEvManualSample (s : State) : Host.Outcome State Fault Refusal :=
  .next (raiseEvent manualSampleBit s)

/-- `ev_manual_water(duration)` (rule R213). -/
def execEvManualWater (duration : Byte) (s : State) : Host.Outcome State Fault Refusal :=
  .next (raiseEvent manualWaterBit (s.withArb { s.arb with manDuration := duration }))

/-- `ev_set_auto(value)` (rule R214). -/
def execEvSetAuto (value : Bool) (s : State) : Host.Outcome State Fault Refusal :=
  .next (raiseEvent setAutoEnBit (s.withArb { s.arb with autoReq := value }))

/-- `ev_dump_history` (rule R215). -/
def execEvDumpHistory (s : State) : Host.Outcome State Fault Refusal :=
  .next (raiseEvent dumpHistoryBit s)

end Sys2Proof.Machine
end

