-- ==== Sys2Proof/Machine/Frames.lean ====
section
/-! DEFINITION. The five serial frames: one exchange with the chip (20_memory.md rules R86 to R92). -/

namespace Sys2Proof.Machine

/-- READ (rules R91, R114). -/
def execRead (a : Addr) (s : State) : Host.Outcome State Fault Refusal :=
  .next (exchange (.read a) (reactRead s.cfg s.busIn a s.chip) s)

/-- WRITE (rules R89, R115). -/
def execWrite (a : Addr) (data : List Byte) (s : State) : Host.Outcome State Fault Refusal :=
  .next (exchange (.write a data) (reactWrite s.cfg (writePairs a data) s.chip) s)

/-- WRDI (rules R92, R111). -/
def execWrdi (s : State) : Host.Outcome State Fault Refusal :=
  .next (exchange .wrdi (reactWrdi s.chip) s)

/-- RDSR (rules R86, R112). -/
def execRdsr (s : State) : Host.Outcome State Fault Refusal :=
  .next (exchange .rdsr (reactRdsr s.cfg s.busIn s.chip) s)

/-- WREN (rules R87, R111). -/
def execWren (s : State) : Host.Outcome State Fault Refusal :=
  .next (exchange .wren (reactWren s.cfg s.chip) s)

end Sys2Proof.Machine
end

