-- ==== Sys2Proof/Machine/LogStore.lean ====
section
/-! DEFINITION. The six operations of LOG (41_log_store.md). As for EEC, a meaning is the operation's next
atomic step. -/

namespace Sys2Proof.Machine

/-- `reset_log(timestamp)` (rules R181, R182). -/
def execResetLog (ts : BitVec 64) (s : State) : Host.Outcome State Fault Refusal :=
  .next (requestStep 8#4 (fun l => { l with ts := ts }) (gotoLog .hdr) s)

/-- The first step of `append_reading`: `FULL` without a free slot, before any chip access (rule R183). -/
def startAppend (s : State) : State :=
  if initialised s.log.cursor = false then respond .full 0 s
  else if ceiling s.cfg ≤ s.log.cursor.toNat then respond .full 0 s
  else gotoLog .append s

/-- `append_reading(value)` (rule R183, log entry 11). -/
def execAppendReading (value : Byte) (s : State) : Host.Outcome State Fault Refusal :=
  .next (requestStep 9#4 (fun l => { l with data := value }) startAppend s)

/-- The first step of `read_reading`: `NONE` unless the slot has been written (rules R184, R188). -/
def startReadReading (index : BitVec 16) (s : State) : State :=
  if initialised s.log.cursor = false then respond .none 0 s
  else if readingCount s.log.cursor ≤ index.toNat then respond .none 0 s
  else gotoLog .read s

/-- `read_reading(index)` (rule R184). -/
def execReadReading (index : BitVec 16) (s : State) : Host.Outcome State Fault Refusal :=
  .next (requestStep 10#4 (fun l => { l with index := index }) (startReadReading index) s)

/-- The first step of `read_last_reading`: `NONE` when there is none (rule R185). -/
def startReadLast (s : State) : State :=
  if s.log.cursor.toNat ≤ headerSize then respond .none 0 s
  else gotoLog .read s

/-- `read_last_reading()` (rule R185). -/
def execReadLastReading (s : State) : Host.Outcome State Fault Refusal :=
  .next (requestStep 11#4 id startReadLast s)

/-- The first step of `read_header_timestamp`: `NONE` when the log is uninitialised (rule R186). -/
def startReadHeader (s : State) : State :=
  if initialised s.log.cursor = false then respond .none 0 s
  else s.withLog { s.log with state := .tsread, tsK := 0, tsAcc := 0 }

/-- `read_header_timestamp()` (rule R186). -/
def execReadHeaderTimestamp (s : State) : Host.Outcome State Fault Refusal :=
  .next (requestStep 12#4 id startReadHeader s)

/-- `reading_timestamp(index)`, one atomic step (rules R187, R188). -/
def execReadingTimestamp (index : BitVec 16) (s : State) : Host.Outcome State Fault Refusal :=
  .next (requestAtOnce 13#4 (fun l => { l with index := index }) .ok
    ((elapsedSeconds s.cfg index).setWidth 64) s)

end Sys2Proof.Machine
end

