-- ==== Sys2Proof/Machine/Policy.lean ====
section
/-! DEFINITION. POL, the pump-policy function (43_pump_policy.md). -/

namespace Sys2Proof.Machine

/-- The status of `decide_watering` (rule R260). -/
def wateringStatus (moisture : Byte) : Status :=
  match wateringSeconds moisture with
  | some _ => .ok
  | none => .none

/-- The value of `decide_watering`, where there is one (rule R260). -/
def wateringData (moisture : Byte) : BitVec 64 :=
  match wateringSeconds moisture with
  | some seconds => BitVec.ofNat 64 seconds
  | none => 0

/-- `decide_watering(moisture_percent)`, one atomic step (rule R260). -/
def execDecideWatering (moisture : Byte) (s : State) : Host.Outcome State Fault Refusal :=
  .next (requestAtOnce 14#4 (fun l => { l with data := moisture }) (wateringStatus moisture)
    (wateringData moisture) s)

end Sys2Proof.Machine
end

