-- ==== Sys2Proof/Machine/Workers.lean ====
section
/-! DEFINITION. The three done lines: a worker clears its live handle (42_scheduler.md section 4). -/

namespace Sys2Proof.Machine

/-- `done_sensor` (rule R240). -/
def execDoneSensor (s : State) : Host.Outcome State Fault Refusal :=
  .next (s.withArb { s.arb with liveSensor := false })

/-- `done_pump` (rule R241, log entry 20). -/
def execDonePump (s : State) : Host.Outcome State Fault Refusal :=
  .next (s.withArb { s.arb with livePump := false })

/-- `done_history` (rule R242). -/
def execDoneHistory (s : State) : Host.Outcome State Fault Refusal :=
  .next (s.withArb { s.arb with liveHistory := false })

end Sys2Proof.Machine
end

