-- ==== Sys2Proof/Machine/Dispatch.lean ====
section
/-! DEFINITION. One arm per instruction: its meaning. -/

namespace Sys2Proof.Machine

/-- The meaning of every instruction. -/
def exec (i : Instr) (s : State) : Host.Outcome State Fault Refusal :=
  match i with
  | .read a => Sys2Proof.Machine.execRead a s
  | .write a data => Sys2Proof.Machine.execWrite a data s
  | .wrdi => Sys2Proof.Machine.execWrdi s
  | .rdsr => Sys2Proof.Machine.execRdsr s
  | .wren => Sys2Proof.Machine.execWren s
  | .readStatus => Sys2Proof.Machine.execReadStatus s
  | .writeEnable => Sys2Proof.Machine.execWriteEnable s
  | .writeDisable => Sys2Proof.Machine.execWriteDisable s
  | .readByte a => Sys2Proof.Machine.execReadByte a s
  | .writeByte a b => Sys2Proof.Machine.execWriteByte a b s
  | .writePage a len buf => Sys2Proof.Machine.execWritePage a len buf s
  | .resetLog ts => Sys2Proof.Machine.execResetLog ts s
  | .appendReading v => Sys2Proof.Machine.execAppendReading v s
  | .readReading index => Sys2Proof.Machine.execReadReading index s
  | .readLastReading => Sys2Proof.Machine.execReadLastReading s
  | .readHeaderTimestamp => Sys2Proof.Machine.execReadHeaderTimestamp s
  | .readingTimestamp index => Sys2Proof.Machine.execReadingTimestamp index s
  | .decideWatering p => Sys2Proof.Machine.execDecideWatering p s
  | .reserved6 => Sys2Proof.Machine.execReserved6 s
  | .reserved7 => Sys2Proof.Machine.execReserved7 s
  | .reserved15 => Sys2Proof.Machine.execReserved15 s
  | .evTimer => Sys2Proof.Machine.execEvTimer s
  | .evManualSample => Sys2Proof.Machine.execEvManualSample s
  | .evManualWater d => Sys2Proof.Machine.execEvManualWater d s
  | .evSetAuto v => Sys2Proof.Machine.execEvSetAuto v s
  | .evDumpHistory => Sys2Proof.Machine.execEvDumpHistory s
  | .wake => Sys2Proof.Machine.execWake s
  | .idleTimeoutWake => Sys2Proof.Machine.execIdleTimeoutWake s
  | .dSample => Sys2Proof.Machine.execDSample s
  | .dAutoen => Sys2Proof.Machine.execDAutoen s
  | .dAutowater => Sys2Proof.Machine.execDAutowater s
  | .dManwater => Sys2Proof.Machine.execDManwater s
  | .dHistory => Sys2Proof.Machine.execDHistory s
  | .historyWaitEnd => Sys2Proof.Machine.execHistoryWaitEnd s
  | .doneSensor => Sys2Proof.Machine.execDoneSensor s
  | .donePump => Sys2Proof.Machine.execDonePump s
  | .doneHistory => Sys2Proof.Machine.execDoneHistory s

end Sys2Proof.Machine
end

