-- ==== Sys2Proof/Machine/Turns.lean ====
section
/-! DEFINITION. What one turn does: how each agent's instruction is fetched, decoded and run, the chip's
completion, reset and the power cycle, and the placing of a table word. -/

namespace Sys2Proof.Machine

/-- The start of a step: the one-step signals of the step before are over, so no response is valid, the
response registers are free (rule R37, log entry 6) and nothing is driven (rules R34, R35). -/
def beginStep (s : State) : State :=
  { s with
    rsp := { valid := false, status := Config.idleStatus s.tick, data := Config.idleData s.tick }
    out := []
    tick := s.tick + 1 }

/-- Runs instructions that stand in one step, in the order given (rule R216, log entry 19). -/
def execAll : List Instr → State → Host.Outcome State Fault Refusal
  | [], s => .next s
  | i :: is, s =>
    match exec i s with
    | .next t => execAll is t
    | .fault r => .fault r
    | .refused r => .refused r

/-- Runs what the decoder answers; a word that is no instruction stops the machine (rule R126). -/
def runDecoded (d : Except DecodeError Instr) (s : State) : Host.Outcome State Fault Refusal :=
  match d with
  | .ok i => exec i s
  | .error _ => .fault .unlistedFrame

/-- A request: with `req_ready` its signals are sampled and it runs; otherwise it is not accepted (rule R30). -/
def requestTurn (r : Request) (s : State) : Host.Outcome State Fault Refusal :=
  if reqReady s then runDecoded (decode s.cfg.opcodes (.request r)) (s.withLat r) else .next s

/-- The arbiter's turn: the step `ARB.state` selects (rules R220 to R229). -/
def arbiterTurn (s : State) : Host.Outcome State Fault Refusal :=
  runDecoded (decode s.cfg.opcodes (.arbiter s.arb.state s.arb.wakePending)) s

/-- The sequencer's turn: the exchange that is due, its bytes taken from the bus and decoded; else the next step
of the operation in progress, or the answer to a reserved code, decoded from the latches; else nothing (rules R125,
R140, R180). -/
def sequencerTurn (d : BusDraw) (s : State) : Host.Outcome State Fault Refusal :=
  let s1 := s.withBusIn d
  match dueFrame s1 with
  | some f => runDecoded (decode s1.cfg.opcodes (.frame (frameBytes s1.cfg.opcodes f))) s1
  | none =>
    if reqReady s1 && !s1.illegalDue then .next s1
    else runDecoded (decode s1.cfg.opcodes (.request s1.lat)) s1

/-- The chip after an exchange that a reset cut short: the effect of a faulted exchange, if one was due
(rule R317, log entry 16). -/
def cutExchange (cut : Bool) (d : BusDraw) (s : State) : Chip :=
  match cut, dueFrame s with
  | true, some f => s.chip.faulted d (addressedPairs f)
  | _, _ => s.chip

/-- ASE-CORE's reset: every register of the core at its reset value, no exchange issued (rules R310 to R313). -/
def resetCore (s : State) : State :=
  { s with
    lat := resetLatches
    illegalDue := false
    eec := resetEec
    log := resetLogUnit
    arb := resetArb s.cfg
    bus := resetBus
    busIn := quietDraw
    rsp := resetRsp
    out := [] }

/-- Byte `j` of what a power loss leaves in the bytes of a write in progress. -/
def lostByte (lost : BitVec 128) (j : Nat) : Byte :=
  lost.extractLsb' (8 * j) 8

/-- The chip after power is lost and comes back (rules R93, R337, log entry 17). -/
def Chip.powerCycled (c : Chip) (lost : BitVec 128) : Chip :=
  { mem := storePairs c.mem (c.pending.zipIdx.map fun p => (p.1.1, lostByte lost p.2))
    wel := false
    wip := false
    pending := [] }

/-- What one turn does, after the start of the step. -/
def runTurn (t : Turn) (s : State) : Host.Outcome State Fault Refusal :=
  match t with
  | .request r => requestTurn r s
  | .events e => execAll (decodeEvents e) s
  | .done d => execAll (decodeDone d) s
  | .arbiter => arbiterTurn s
  | .sequencer d => sequencerTurn d s
  | .chip => .next (s.withChip s.chip.complete)
  | .reset cut d => .next (resetCore (s.withChip (cutExchange cut d s)))
  | .powerCycle cut d lost => .next (resetCore (s.withChip ((cutExchange cut d s).powerCycled lost)))

/-- The turn the environment gives: the first of the agenda, or with an empty agenda a free one (log entry 2). -/
def scheduledTurn (s : State) : Turn :=
  match s.agenda with
  | [] => Config.turn s.tick
  | t :: _ => t

/-- The turns that may stand in the step after the acceptance of a reserved code: the sequencer's, which answers it,
and a reset, which abandons it (rules R125, R317). -/
def mayFollowReserved : Turn → Bool
  | .sequencer _ | .reset _ _ | .powerCycle _ _ _ => true
  | .request _ | .events _ | .done _ | .arbiter | .chip => false

/-- The scheduled turn waits a step: the answer to a reserved code comes first (rule R125, log entry 10). -/
def answerFirst (s : State) : Bool :=
  s.illegalDue && !mayFollowReserved (scheduledTurn s)

/-- The turn of a step. No order of the agents is forced: that enabled steps are eventually taken is a premise of its
own (rule R340, log entry 29). -/
def nextTurn (s : State) : Turn :=
  if answerFirst s then .sequencer quietDraw else scheduledTurn s

/-- The agenda a step leaves. -/
def restAgenda (s : State) : List Turn :=
  if answerFirst s then s.agenda else s.agenda.tail

/-- One step: the next turn, taken from the agenda or given before it, is run. -/
def stepTurn (s : State) : Host.Outcome State Fault Refusal :=
  runTurn (nextTurn s) (beginStep (s.withAgenda (restAgenda s)))

/-! ## Placing a table word where the next step fetches (log entries 3 and 4) -/

/-- The latches of the EEC operation whose last frame is `f`. -/
def frameLatches (f : Instr) (l : Request) : Request :=
  match f with
  | .rdsr => { l with op := 0#4 }
  | .wren => { l with op := 1#4 }
  | .wrdi => { l with op := 2#4 }
  | .read a => { l with op := 3#4, addr := a }
  | .write a data =>
    { l with op := 5#4, addr := a, len := BitVec.ofNat 5 data.length,
             buf := Vector.ofFn fun i => data.getD i.val 0#8 }
  | .readStatus | .writeEnable | .writeDisable | .readByte _ | .writeByte _ _ | .writePage _ _ _ |
    .resetLog _ | .appendReading _ | .readReading _ | .readLastReading | .readHeaderTimestamp |
    .readingTimestamp _ | .decideWatering _ | .reserved6 | .reserved7 | .reserved15 | .evTimer |
    .evManualSample | .evManualWater _ | .evSetAuto _ | .evDumpHistory | .wake | .idleTimeoutWake |
    .dSample | .dAutoen | .dAutowater | .dManwater | .dHistory | .historyWaitEnd | .doneSensor | .donePump |
    .doneHistory => l

/-- `s` with both units of the request port idle and no answer due, so that a request is accepted. -/
def unitsIdle (s : State) : State :=
  (((s.withEec { s.eec with state := .idle }).withLog { s.log with state := .idle }).withBus
    { s.bus with reply := none }).withIllegalDue false

/-- `s` with a port word, its frames in the table's default opcodes, placed so that the next step runs it. -/
def placeWord (p : PortWord) (s : State) : State :=
  match p with
  | .frame bytes =>
    match decodeFrame defaultOpcodes bytes with
    | .ok f =>
      let s1 := unitsIdle s
      ((s1.withEec { s1.eec with state := .xfer }).withLat (frameLatches f s1.lat)).withAgenda
        (.sequencer quietDraw :: s.agenda)
    | .error _ => s
  | .request r => (unitsIdle s).withAgenda (.request r :: s.agenda)
  | .event e => (s.withIllegalDue false).withAgenda (.events e :: s.agenda)
  | .arbiter state wakePending =>
    ((s.withArb { s.arb with state := state, wakePending := wakePending }).withIllegalDue false).withAgenda
      (.arbiter :: s.agenda)
  | .done d => (s.withIllegalDue false).withAgenda (.done d :: s.agenda)

/-- `s` with a table word placed so that the next step runs it; a word that is no instruction places nothing. -/
def placeTableWord (nbits w : Nat) (s : State) : State :=
  match tableWord nbits w with
  | some p => placeWord p s
  | none => s

end Sys2Proof.Machine
end

