-- ==== Sys2Proof/Machine/Step.lean ====
section
/-! DEFINITION. One step of the machine. -/

namespace Sys2Proof.Machine

/-- One atomic step of the agent whose turn it is (rules R3, R23). -/
def step (s : State) : Host.Outcome State Fault Refusal :=
  stepTurn s

/-- `s` with the instruction of a table word where the next step fetches it (log entry 3). -/
def State.withFetchWord (s : State) (nbits w : Nat) : State :=
  placeTableWord nbits w s

end Sys2Proof.Machine
end

