-- ==== Sys2Proof/Machine/Observation.lean ====
section
/-! DEFINITION. What is observed of the machine over time, a run, and the two assumptions rule R340 has a model make
of it: no clock, but every enabled step of ASE-CORE and the chip's completion are eventually taken (log entry 29). -/

namespace Sys2Proof.Machine

/-- The agents whose steps are eventually taken: the three of ASE-CORE, and the chip (rules R3, R90, R340). -/
inductive FairAgent
  | eec
  | log
  | arb
  | chip
  deriving DecidableEq, Repr

/-- The agent has an enabled step: EEC while an operation of it or an answer to a reserved code is under way (rules
R125, R140, R152), LOG while its operation waits for no sub-operation (rule R180), ARB with the condition of its state
(rules R220, R223 to R229), the chip while it writes (rule R90). The wake on idle timeout counts as none: no claim may
rely on it (rule R221, log entry 29). -/
def stepEnabled (a : FairAgent) (s : State) : Bool :=
  match a with
  | .eec => s.eec.state != .idle || s.illegalDue
  | .log => s.eec.state == .idle && s.log.state != .idle
  | .arb =>
    match s.arb.state with
    | .idle => s.arb.wakePending
    | .wHistory => !s.arb.liveHistory
    | .dSample | .dAutoen | .dAutowater | .dManwater | .dHistory => true
  | .chip => s.chip.wip

/-- The turn is the agent's. -/
def agentTurn (a : FairAgent) (t : Turn) : Bool :=
  match a, t with
  | .eec, .sequencer _ | .log, .sequencer _ | .arb, .arbiter | .chip, .chip => true
  | _, .request _ | _, .events _ | _, .done _ | _, .arbiter | _, .sequencer _ | _, .chip | _, .reset _ _
  | _, .powerCycle _ _ _ => false

/-- The next step of the machine is the agent's enabled step. -/
def stepTaken (a : FairAgent) (s : State) : Bool :=
  stepEnabled a s && agentTurn a (nextTurn s)

/-- A run: the machine steps for ever, and between two steps the environment may add turns to the agenda. -/
def IsRun (run : Nat → State) : Prop :=
  ∀ n, ∃ t turns, step (run n) = .next t ∧ run (n + 1) = t.withAgenda (t.agenda ++ turns)

/-- Weak fairness: the agent's step does not stay enabled for ever without being taken (rule R90). -/
def WeaklyFair (a : FairAgent) (run : Nat → State) : Prop :=
  ∀ n, ∃ m, n ≤ m ∧ (stepEnabled a (run m) = false ∨ stepTaken a (run m) = true)

/-- The runs a claim about what happens eventually is about: the two assumptions of rule R340. -/
structure FairRun (run : Nat → State) : Prop where
  isRun : IsRun run
  /-- every enabled step of ASE-CORE is eventually taken -/
  core  : ∀ a, a ≠ .chip → WeaklyFair a run
  /-- the chip's completion step is eventually taken -/
  chip  : WeaklyFair .chip run

end Sys2Proof.Machine
end

