-- ==== Sys2Proof/Safety.lean ====
section
/-! DEFINITION. The states a run can be in: the invariant every step keeps. -/

namespace Sys2Proof.Machine

/-- The cursor is uninitialised (0) or between the first slot and the ceiling (rules R44 to R46, R191). -/
def CursorOk (s : State) : Prop :=
  s.log.cursor = 0 ∨ (headerSize ≤ s.log.cursor.toNat ∧ s.log.cursor.toNat ≤ ceiling s.cfg)

/-- A LOG phase belongs to its operation, and its registers are in range (rules R41, R181 to R188). -/
def LogPhaseOk (s : State) : Prop :=
  match s.log.state with
  | .idle => True
  | .hdr => s.lat.op = 8#4
  | .fill =>
    s.lat.op = 8#4 ∧ headerSize ≤ s.log.fillAddr.toNat ∧ s.log.fillAddr.toNat ≤ ceiling s.cfg
  | .append =>
    s.lat.op = 9#4 ∧ headerSize ≤ s.log.cursor.toNat ∧ s.log.cursor.toNat < ceiling s.cfg
  | .read =>
    (s.lat.op = 10#4 ∧ headerSize + s.lat.index.toNat < s.log.cursor.toNat) ∨
    (s.lat.op = 11#4 ∧ headerSize < s.log.cursor.toNat)
  | .tsread =>
    s.lat.op = 12#4 ∧ headerSize ≤ s.log.cursor.toNat ∧ s.log.tsK.toNat ≤ 8

/-- An EEC operation fits EEC's phase (rules R39, R152), and a page write in progress fits its page and is not
empty (rules R147, R153). -/
def DriverPhaseOk (s : State) : Prop :=
  s.eec.state ≠ .idle →
    ∃ op, dueOp s = some op ∧ isDriverOp op = true ∧
      (s.eec.state = .poll → polls op = true) ∧
      (s.eec.state = .wren ∨ s.eec.state = .settle → writes op = true) ∧
      (∀ a len buf, op = .writePage a len buf → len ≠ 0 ∧ len.toNat ≤ maxSize a)

/-- How many bytes the last frame of an operation receives (rules R111 to R115). -/
def receives : Instr → Nat
  | .readStatus | .readByte _ => 1
  | .read _ | .write _ _ | .wrdi | .rdsr | .wren | .writeEnable | .writeDisable | .writeByte _ _ |
    .writePage _ _ _ | .resetLog _ | .appendReading _ | .readReading _ | .readLastReading |
    .readHeaderTimestamp | .readingTimestamp _ | .decideWatering _ | .reserved6 | .reserved7 | .reserved15 |
    .evTimer | .evManualSample | .evManualWater _ | .evSetAuto _ | .evDumpHistory | .wake |
    .idleTimeoutWake | .dSample | .dAutoen | .dAutowater | .dManwater | .dHistory | .historyWaitEnd |
    .doneSensor | .donePump | .doneHistory => 0

/-- A waiting reply belongs to the exchange of EEC's phase (rule R80). -/
def ReplyOk (s : State) : Prop :=
  ∀ r, s.bus.reply = some r →
    (s.eec.state = .poll ∧ (r = .fault ∨ ∃ b, r = .ok [b])) ∨
    (s.eec.state = .wren ∧ (r = .fault ∨ r = .ok [])) ∨
    (s.eec.state = .xfer ∧ (r = .fault ∨ ∃ rx op, r = .ok rx ∧ dueOp s = some op ∧ rx.length = receives op))

/-- The chip has just taken a write-enable frame and nothing since: it is idle, its latch is set, and that frame
is the last one on the bus (rule R148). -/
def LatchWindow (s : State) : Prop :=
  s.chip.wip = false ∧ s.chip.wel = true ∧ s.bus.frame = [s.cfg.opcodes.wren]

/-- What EEC has learned of the chip holds while it relies on it: after the poll the chip is idle, and from the
enable frame's `Ok` to the write frame the latch window is open (rules R94, R95, R148, R336). -/
def WindowOk (s : State) : Prop :=
  (∀ b, s.eec.state = .poll → s.bus.reply = some (.ok [b]) → busyBit s.cfg b = false → s.chip.wip = false) ∧
  (s.eec.state = .wren → s.bus.reply = none → s.chip.wip = false) ∧
  (∀ rx, s.eec.state = .wren → s.bus.reply = some (.ok rx) → LatchWindow s) ∧
  (s.eec.state = .settle → LatchWindow s) ∧
  (∀ op, s.eec.state = .xfer → s.bus.reply = none → dueOp s = some op → polls op = true →
    s.chip.wip = false) ∧
  (∀ op, s.eec.state = .xfer → s.bus.reply = none → dueOp s = some op → writes op = true → LatchWindow s)

/-- The poll counter stays within `POLL_LIMIT`, below it while the poll runs, and does not exist without one
(rules R40, R141). -/
def PollCountOk (s : State) : Prop :=
  match s.cfg.pollLimit with
  | none => s.eec.pollCount = 0
  | some limit =>
    s.eec.pollCount ≤ limit ∧ (s.eec.state = .poll → s.eec.pollCount < limit)

/-- A pending write exists only while the chip writes, and is one burst (rules R85, R89, R90). -/
def PendingOk (s : State) : Prop :=
  (s.chip.wip = false → s.chip.pending = []) ∧ s.chip.pending.length ≤ pageSize

/-- A live history worker is waited for (rule R250). -/
def HistoryOk (s : State) : Prop :=
  s.arb.liveHistory = true → s.arb.state = .wHistory

/-- The reserved codes (rule R125). -/
abbrev ReservedCode (op : OpCode) : Prop :=
  op = 6#4 ∨ op = 7#4 ∨ op = 15#4

/-- An answer to a reserved code is due only with no operation in progress and that code in the latch (rule R125). -/
def IllegalOk (s : State) : Prop :=
  s.illegalDue = true → reqReady s = true ∧ ReservedCode s.lat.op

/-- The invariant of the machine. -/
structure MachineInv (s : State) : Prop where
  params  : s.cfg.wf = true
  memory  : Memory.wf s.chip.mem
  pending : PendingOk s
  cursor  : CursorOk s
  log     : LogPhaseOk s
  driver  : DriverPhaseOk s
  reply   : ReplyOk s
  window  : WindowOk s
  poll    : PollCountOk s
  history : HistoryOk s
  illegal : IllegalOk s

/-- `n` steps in a row. -/
def runSteps : Nat → State → Host.Outcome State Fault Refusal
  | 0, s => .next s
  | n + 1, s =>
    match step s with
    | .next t => runSteps n t
    | .fault r => .fault r
    | .refused r => .refused r

/-- The chip is busy, EEC polls it, and what EEC has heard so far says so (rule R327). -/
def PollingBusyChip (s : State) : Prop :=
  s.eec.state = .poll ∧ s.chip.wip = true ∧
    (s.bus.reply = none ∨ ∃ b, s.bus.reply = some (.ok [b]) ∧ b.getLsbD s.cfg.wipBit = true)

/-- EEC and LOG are idle and no reply is waiting (rule R30). -/
def PortIdle (s : State) : Prop :=
  s.eec.state = .idle ∧ s.log.state = .idle ∧ s.bus.reply = none

/-- What the first state of a step is: the agenda without its first turn, no response, nothing driven, the
counter advanced; `rsp_status` and `rsp_data` are free outside a response step (rule R37). -/
def stepStart (s : State) (rest : List Turn) : State :=
  { s with
    agenda := rest
    rsp := { valid := false, status := Config.idleStatus s.tick, data := Config.idleData s.tick }
    out := []
    tick := s.tick + 1 }

/-- A step is safe when it answers a next state: neither a fault nor a refusal. -/
def StepSafe (s : State) : Prop :=
  ∃ t, step s = .next t

end Sys2Proof.Machine
end

