-- ==== Sys2Proof/Certificates/Slice0/Obligations.lean ====
section
/-! DEFINITION. The statements for the provers. -/

open Sys2Proof Sys2Proof.Machine

/-! ## Reset, the invariant, safety -/

/-- 70_reset_and_hazards.md section 1: the values a reset installs, where the spec gives one. A reset cuts an
operation short without a response. The state right after power-up holds the same values, auto-watering off and the
chip idle. -/
def Obligations.ResetInstallsResetValues : Prop :=
  (∀ (s : State) (cut : Bool) (d : BusDraw) (lost : BitVec 128) (turn : Turn),
    turn = .reset cut d ∨ turn = .powerCycle cut d lost →
    ∃ t, runTurn turn s = .next t ∧
      t.eec = { state := .idle, pollCount := 0 } ∧
      t.log.state = .idle ∧ t.log.cursor = 0 ∧
      t.arb.state = .idle ∧ t.arb.mask = 0 ∧ t.arb.wakePending = false ∧
      t.arb.liveSensor = false ∧ t.arb.livePump = false ∧ t.arb.liveHistory = false ∧
      t.arb.autoWaterEnabled = s.cfg.autoWaterReset ∧ t.illegalDue = false ∧
      reqReady t = true ∧ t.bus.reply = none ∧ t.rsp.valid = false ∧ t.out = [] ∧ t.cfg = s.cfg) ∧
  State.reset.eec = { state := .idle, pollCount := 0 } ∧
  State.reset.log.state = .idle ∧ State.reset.log.cursor = 0 ∧
  State.reset.arb.state = .idle ∧ State.reset.arb.mask = 0 ∧ State.reset.arb.wakePending = false ∧
  State.reset.arb.liveSensor = false ∧ State.reset.arb.livePump = false ∧
  State.reset.arb.liveHistory = false ∧ State.reset.arb.autoWaterEnabled = false ∧
  State.reset.illegalDue = false ∧ reqReady State.reset = true ∧ State.reset.rsp.valid = false ∧ State.reset.out = [] ∧
  State.reset.chip.wel = false ∧ State.reset.chip.wip = false ∧ State.reset.chip.pending = []

/-- The state after reset meets the invariant. -/
def Obligations.ResetMeetsInvariant : Prop := MachineInv State.reset

/-- Every step keeps the invariant: the cursor is 0 or between the header and the ceiling, memory keeps its
canonical form, the phases of EEC and LOG fit the operation in progress, the latch window is open whenever a
write frame is due, the poll counter keeps its bound, a live history worker is waited for, an answer to a reserved code
is due only with the port ready. No step changes the parameters. -/
def Obligations.EveryStepKeepsInvariant : Prop :=
  ∀ s t, step s = .next t → t.cfg = s.cfg ∧ (MachineInv s → MachineInv t)

/-- No step from the invariant stops the machine: EEC never emits a frame outside the five (rule R126). -/
def Obligations.InvariantStepsAreSafe : Prop :=
  ∀ s, MachineInv s → StepSafe s

/-! ## Encoding

The opcodes are parameters of the machine (rule R16). That a legal set of them has no two equal, the shapes of the
frames, and the default values are log entry 9. -/

/-- Decoding what the encoder puts on a port gives the instruction back, for every legal set of opcodes, every
well-formed instruction and every value of its operands. -/
def Obligations.DecodeAfterEncode : Prop :=
  ∀ (c : Opcodes) (i : Instr), c.wf = true → i.wf = true → decode c (encode c i) = .ok i

/-- A frame the decoder takes is exactly the frame of a well-formed instruction: no two frames stand for one
instruction and no bit is dropped. -/
def Obligations.FrameEncodeAfterDecode : Prop :=
  ∀ (c : Opcodes) (bytes : List Byte) (i : Instr), c.wf = true → decodeFrame c bytes = .ok i →
    i.wf = true ∧ encode c i = .frame bytes

/-- Words written out from 30_encoding.md and from the vectors of 95_test_vectors.md, under the default opcodes, which
the machine of `State.reset` has. -/
def Obligations.SpecWordsDecode : Prop :=
  State.reset.cfg.opcodes = defaultOpcodes ∧ State.reset.cfg.wipBit = 0 ∧ State.reset.cfg.welBit = 1 ∧
  decodeFrame defaultOpcodes [0x05#8] = .ok .rdsr ∧ decodeFrame defaultOpcodes [0x06#8] = .ok .wren ∧
  decodeFrame defaultOpcodes [0x04#8] = .ok .wrdi ∧
  decodeFrame defaultOpcodes [0x0B#8, 0xA5#8] = .ok (.read 0x1A5#9) ∧
  decodeFrame defaultOpcodes [0x03#8, 0xFF#8] = .ok (.read 0x0FF#9) ∧
  decodeFrame defaultOpcodes [0x02#8, 0x08#8, 0x2A#8] = .ok (.write 0x008#9 [0x2A#8]) ∧
  decodeFrame defaultOpcodes [0x0A#8, 0xFF#8, 0xFF#8] = .ok (.write 0x1FF#9 [0xFF#8]) ∧
  decodeRequest { bareRequest 0b1001#4 with data := 0x2A#8 } = .appendReading 0x2A#8 ∧
  decodeRequest { bareRequest 0b1010#4 with index := 1#16 } = .readReading 1#16 ∧
  decodeRequest (bareRequest 0b1111#4) = .reserved15 ∧
  decodeArbiter .wHistory true = .historyWaitEnd

/-- The address fold of R113: the instruction byte is `opc | ((address & 0x100) >> 5)`, so for an opcode with bit 3
clear its bit 3 is `address[8]` and its other seven bits are the opcode's. The addressed opcodes of every legal set and
of the default one have bit 3 clear. The frames of R114 and R115, which send the low address byte and then the data
after the instruction byte, are general knowledge (log entry 9). -/
def Obligations.AddressFold : Prop :=
  (∀ (opc : Byte) (a : Addr),
    foldAddress opc a = opc ||| ((a &&& 0x100#9) >>> 5).setWidth 8 ∧
    (opc.getLsbD 3 = false → (foldAddress opc a).getLsbD 3 = a.getLsbD 8) ∧
    (∀ k, k < 8 → k ≠ 3 → (foldAddress opc a).getLsbD k = opc.getLsbD k)) ∧
  defaultOpcodes.wf = true ∧
  ∀ c : Opcodes, c.wf = true → c.read.getLsbD 3 = false ∧ c.write.getLsbD 3 = false ∧
    ∀ (a : Addr) (data : List Byte),
      frameBytes c (.read a) = [foldAddress c.read a, a.setWidth 8] ∧
      frameBytes c (.write a data) = foldAddress c.write a :: a.setWidth 8 :: data

/-- R118 and R119: the operation each code selects and the operand fields it reads; fields not listed for it are
ignored, and so is every buffer element at or beyond the length of a page write. -/
def Obligations.RequestFieldsRead : Prop :=
  (∀ r : Request,
    (r.op = 0 → decodeRequest r = .readStatus) ∧ (r.op = 1 → decodeRequest r = .writeEnable) ∧
    (r.op = 2 → decodeRequest r = .writeDisable) ∧ (r.op = 3 → decodeRequest r = .readByte r.addr) ∧
    (r.op = 4 → decodeRequest r = .writeByte r.addr r.data) ∧
    (r.op = 5 → decodeRequest r = .writePage r.addr r.len r.buf) ∧
    (r.op = 6 → decodeRequest r = .reserved6) ∧ (r.op = 7 → decodeRequest r = .reserved7) ∧
    (r.op = 8 → decodeRequest r = .resetLog r.ts) ∧ (r.op = 9 → decodeRequest r = .appendReading r.data) ∧
    (r.op = 10 → decodeRequest r = .readReading r.index) ∧ (r.op = 11 → decodeRequest r = .readLastReading) ∧
    (r.op = 12 → decodeRequest r = .readHeaderTimestamp) ∧
    (r.op = 13 → decodeRequest r = .readingTimestamp r.index) ∧
    (r.op = 14 → decodeRequest r = .decideWatering r.data) ∧ (r.op = 15 → decodeRequest r = .reserved15)) ∧
  (∀ (a : Addr) (len : BitVec 5) (buf : PageBuf), len.toNat ≤ 16 →
    ∃ data, finalFrame (.writePage a len buf) = some (.write a data) ∧ data.length = len.toNat ∧
      ∀ i (h : i < 16), i < len.toNat → data[i]? = some buf[i]) ∧
  (∀ (a : Addr) (len : BitVec 5) (buf buf' : PageBuf),
    (∀ i (h : i < 16), i < len.toNat → buf[i] = buf'[i]) →
    finalFrame (.writePage a len buf) = finalFrame (.writePage a len buf'))

/-! ## One step -/

/-- A step runs the turn at the head of the agenda (log entry 2), on the state `stepStart` gives, and what stands on the
port of that turn, decoded, is what it executes: a request only with `req_ready`, on the sampled signals; the
sequencer's turn the frame that is due, decoded from its bytes on the bus, or with none due the operation in the
latches. In the step after the acceptance of a reserved code its answer comes before any turn but the sequencer's own, a
reset and a power cycle (log entry 10). A request on a busy port and a sequencer turn with nothing to do change nothing
more (log entry 12). -/
def Obligations.StepRunsDecodedInstruction : Prop :=
  (∀ (s : State) (turn : Turn) (rest : List Turn), s.agenda = turn :: rest →
    s.illegalDue = false ∨ mayFollowReserved turn = true → step s = runTurn turn (stepStart s rest)) ∧
  (∀ (s : State) (turn : Turn) (rest : List Turn), s.agenda = turn :: rest →
    s.illegalDue = true → dueFrame s = none →
    turn = .arbiter ∨ turn = .chip ∨ (∃ r, turn = .request r) ∨ (∃ e, turn = .events e) ∨ (∃ d, turn = .done d) →
    step s = exec (decodeRequest s.lat) { stepStart s (turn :: rest) with busIn := quietDraw }) ∧
  (∀ (s : State) (r : Request) (rest : List Turn), s.agenda = .request r :: rest → s.illegalDue = false →
    reqReady s = true → step s = exec (decodeRequest r) { stepStart s rest with lat := r }) ∧
  (∀ (s : State) (r : Request) (rest : List Turn), s.agenda = .request r :: rest → s.illegalDue = false →
    reqReady s = false → step s = .next (stepStart s rest)) ∧
  (∀ (s : State) (e : EventSignals) (rest : List Turn) (i : Instr), s.agenda = .events e :: rest →
    s.illegalDue = false → decode s.cfg.opcodes (.event e) = .ok i → step s = exec i (stepStart s rest)) ∧
  (∀ (s : State) (d : DoneSignals) (rest : List Turn) (i : Instr), s.agenda = .done d :: rest →
    s.illegalDue = false → decode s.cfg.opcodes (.done d) = .ok i → step s = exec i (stepStart s rest)) ∧
  (∀ (s : State) (rest : List Turn), s.agenda = .arbiter :: rest → s.illegalDue = false →
    step s = exec (decodeArbiter s.arb.state s.arb.wakePending) (stepStart s rest)) ∧
  (∀ (s : State) (d : BusDraw) (rest : List Turn) (f i : Instr), s.agenda = .sequencer d :: rest →
    dueFrame s = some f → decodeFrame s.cfg.opcodes (frameBytes s.cfg.opcodes f) = .ok i →
    step s = exec i { stepStart s rest with busIn := d }) ∧
  (∀ (s : State) (d : BusDraw) (rest : List Turn), s.agenda = .sequencer d :: rest →
    dueFrame s = none → reqReady s = false ∨ s.illegalDue = true →
    step s = exec (decodeRequest s.lat) { stepStart s rest with busIn := d }) ∧
  (∀ (s : State) (d : BusDraw) (rest : List Turn), s.agenda = .sequencer d :: rest →
    dueFrame s = none → reqReady s = true → s.illegalDue = false →
    step s = .next { stepStart s rest with busIn := d }) ∧
  (∀ (s : State) (rest : List Turn), s.agenda = .chip :: rest → s.illegalDue = false →
    step s = .next { stepStart s rest with chip := s.chip.complete })

/-- The frame that is due in each phase of EEC, from the operation in progress. -/
def Obligations.DueFrameOfPhase : Prop :=
  ∀ s, MachineInv s → s.bus.reply = none →
    (s.eec.state = .idle ∨ s.eec.state = .settle → dueFrame s = none) ∧
    (s.eec.state = .poll → dueFrame s = some .rdsr) ∧
    (s.eec.state = .wren → dueFrame s = some .wren) ∧
    (s.eec.state = .xfer →
      (dueOp s = some .readStatus → dueFrame s = some .rdsr) ∧
      (dueOp s = some .writeEnable → dueFrame s = some .wren) ∧
      (dueOp s = some .writeDisable → dueFrame s = some .wrdi) ∧
      (∀ a, dueOp s = some (.readByte a) → dueFrame s = some (.read a)) ∧
      (∀ a b, dueOp s = some (.writeByte a b) → dueFrame s = some (.write a [b])) ∧
      (∀ a len buf, dueOp s = some (.writePage a len buf) →
        ∃ data, dueFrame s = some (.write a data) ∧ data.length = len.toNat ∧
          ∀ i (h : i < 16), i < len.toNat → data[i]? = some buf[i]))

/-! ## Frames: one exchange with the chip

Opcodes and status bits are the machine's parameters; frame shapes and part of the chip's reactions are general
knowledge by the spec's own mark (log entries 9 and 25); what an exchange does to the latch under `WEL_ANY_EXCHANGE` is read in log entry 14. -/

/-- R86 and R112: a status exchange without a fault returns one byte whose bit `WIP_BIT` is WIP, bit `WEL_BIT` is WEL
and whose other bits are the draw, and changes nothing of the chip but, under `WEL_ANY_EXCHANGE`, the latch. -/
def Obligations.StatusFrameReportsWipAndWel : Prop :=
  ∀ s : State, s.cfg.wf = true → s.busIn.fault = false →
    ∃ b : Byte, b.getLsbD s.cfg.wipBit = s.chip.wip ∧ b.getLsbD s.cfg.welBit = s.chip.wel ∧
      (∀ k : Fin 8, k ≠ s.cfg.wipBit → k ≠ s.cfg.welBit → b.getLsbD k = s.busIn.status.getLsbD k) ∧
      exec .rdsr s = .next { s with
        chip := { s.chip with wel := s.chip.wel && !s.cfg.welAnyExchange }
        bus := { frame := [s.cfg.opcodes.rdsr], reply := some (.ok [b]) } }

/-- R91 and R114: a read exchange without a fault returns the byte at the address when the chip is idle, and the
drawn byte when it is busy; nothing else changes. -/
def Obligations.ReadFrameReturnsByte : Prop :=
  ∀ (s : State) (a : Addr), s.busIn.fault = false →
    ∃ b : Byte, (s.chip.wip = false → b = s.chip.byteAt a) ∧ (s.chip.wip = true → b = s.busIn.busyByte) ∧
      exec (.read a) s = .next { s with
        chip := { s.chip with wel := s.chip.wel && !s.cfg.welAnyExchange }
        bus := { frame := [s.cfg.opcodes.read ||| ((a &&& 0x100#9) >>> 5).setWidth 8, a.setWidth 8]
                 reply := some (.ok [b]) } }

/-- R87, R92 and R111: write enable sets the latch of an idle chip and is ignored by a busy one; write disable clears
the latch. -/
def Obligations.EnableAndDisableFrames : Prop :=
  ∀ s : State, s.busIn.fault = false →
    (s.chip.wip = false → exec .wren s = .next { s with
      chip := { s.chip with wel := true }, bus := { frame := [s.cfg.opcodes.wren], reply := some (.ok []) } }) ∧
    (s.chip.wip = true → exec .wren s = .next { s with
      chip := { s.chip with wel := s.chip.wel && !s.cfg.welAnyExchange }
      bus := { frame := [s.cfg.opcodes.wren], reply := some (.ok []) } }) ∧
    exec .wrdi s = .next { s with
      chip := { s.chip with wel := false }, bus := { frame := [s.cfg.opcodes.wrdi], reply := some (.ok []) } }

/-- R89 and R115: a write exchange with the latch set and the chip idle starts a write of the pairs
`(p + ((a + i) % 16), d_i)`, `p` the page base; any other is ignored. No byte of memory changes yet. -/
def Obligations.WriteFrameStartsWrite : Prop :=
  ∀ (s : State) (a : Addr) (data : List Byte), writeFrameLengthOk data = true → s.busIn.fault = false →
    (s.chip.wel = true → s.chip.wip = false →
      ∃ pairs : List (Addr × Byte), pairs.length = data.length ∧
        (∀ i (p : Addr × Byte), pairs[i]? = some p →
          p.1.toNat = a.toNat - a.toNat % 16 + (a.toNat + i) % 16 ∧ data[i]? = some p.2) ∧
        exec (.write a data) s = .next { s with
          chip := { s.chip with wip := true, pending := pairs, wel := !s.cfg.welAnyExchange }
          bus := { frame := (s.cfg.opcodes.write ||| ((a &&& 0x100#9) >>> 5).setWidth 8) :: a.setWidth 8 :: data,
                   reply := some (.ok []) } }) ∧
    (s.chip.wel = false ∨ s.chip.wip = true →
      exec (.write a data) s = .next { s with
        chip := { s.chip with wel := s.chip.wel && !s.cfg.welAnyExchange }
        bus := { frame := (s.cfg.opcodes.write ||| ((a &&& 0x100#9) >>> 5).setWidth 8) :: a.setWidth 8 :: data,
                 reply := some (.ok []) } })

/-- R81: a faulted exchange is reported as a fault, touches only the chip and the bus, and leaves every byte, now and
once the chip's write in progress is complete, at what it would have been or at the new value the frame carries for
that address; a frame that addresses nothing leaves every byte. For each addressed byte of a faulted write both are
admitted, independently, and so are both values of the latch. That a busy chip keeps its pending write, and that a frame
which addresses nothing leaves every byte, is log entry 13. -/
def Obligations.FaultedExchangeLeavesOldOrNew : Prop :=
  (∀ (s : State) (f : Instr), s.busIn.fault = true →
    f = .rdsr ∨ f = .wren ∨ f = .wrdi ∨ (∃ a, f = .read a) ∨ (∃ a data, f = .write a data ∧ f.wf = true) →
    ∃ c : Chip,
      exec f s = .next { s with chip := c, bus := { frame := frameBytes s.cfg.opcodes f, reply := some .fault } } ∧
      ∀ x : Addr,
        (c.byteAt x = s.chip.byteAt x ∨ ∃ p ∈ addressedPairs f, p.1 = x ∧ c.byteAt x = p.2) ∧
        (c.complete.byteAt x = s.chip.complete.byteAt x ∨
          ∃ p ∈ addressedPairs f, p.1 = x ∧ c.complete.byteAt x = p.2)) ∧
  (∀ (s : State) (a : Addr) (data : List Byte) (new : BitVec 16) (latch : Bool), writeFrameLengthOk data = true →
    ∃ (d : BusDraw) (c : Chip),
      exec (.write a data) { s with busIn := d } = .next { s with
        busIn := d, chip := c, bus := { frame := frameBytes s.cfg.opcodes (.write a data), reply := some .fault } } ∧
      c.wel = latch ∧
      ∀ i b, data[i]? = some b →
        c.byteAt (burstAddress a i) = if new.getLsbD i then b else s.chip.byteAt (burstAddress a i))

/-- R90: the chip's completion step stores the pending bytes, clears WIP, WEL and the pending list, and touches nothing
else; without a write in progress, when it is not enabled, its turn changes nothing (log entry 12). In a fair run
(R340, log entry 29) the step is eventually taken, so a write in progress ends. -/
def Obligations.ChipCompletesWrite : Prop :=
  (∀ s : State,
    (s.chip.wip = true → ∃ m : Memory,
      runTurn .chip s = .next { s with chip := { mem := m, wel := false, wip := false, pending := [] } } ∧
      (∀ x : Addr, (∀ p ∈ s.chip.pending, p.1 ≠ x) →
        Memory.read m x.toNat = Memory.read s.chip.mem x.toNat) ∧
      (∀ (pre : List (Addr × Byte)) (p : Addr × Byte) (post : List (Addr × Byte)),
        s.chip.pending = pre ++ p :: post → (∀ q ∈ post, q.1 ≠ p.1) →
        Memory.read m p.1.toNat = some p.2)) ∧
    (s.chip.wip = false → runTurn .chip s = .next s)) ∧
  ∀ run : Nat → State, FairRun run → ∀ n, ∃ m, n ≤ m ∧ (run m).chip.wip = false

/-- R92, the driver property of the source, at the chip: after a write frame inside one page, taken with the latch set,
and the completion step, each addressed byte is the one sent and every other byte is as before. -/
def Obligations.WrittenBytesAreReadBack : Prop :=
  ∀ (s : State) (a : Addr) (data : List Byte), writeFrameLengthOk data = true →
    data.length ≤ 16 - a.toNat % 16 → s.busIn.fault = false → s.chip.wel = true → s.chip.wip = false →
    ∃ t u, exec (.write a data) s = .next t ∧ runTurn .chip t = .next u ∧ u.chip.wip = false ∧
      (∀ i b, data[i]? = some b → u.chip.byteAt (a + BitVec.ofNat 9 i) = b) ∧
      (∀ x : Addr, (∀ i, i < data.length → x ≠ a + BitVec.ofNat 9 i) →
        u.chip.byteAt x = s.chip.byteAt x)

/-! ## EEC

An exchange is two steps, the frame and the step that takes its reply (log entry 1). -/

/-- R152, from `IDLE`: acceptance of the five operations that always start. -/
def Obligations.DriverOperationsStart : Prop :=
  ∀ s : State, reqReady s = true →
    exec .readStatus s = .next { s with
      lat := { s.lat with op := 0 }, eec := { s.eec with state := .xfer } } ∧
    exec .writeEnable s = .next { s with
      lat := { s.lat with op := 1 }, eec := { s.eec with state := .xfer } } ∧
    exec .writeDisable s = .next { s with
      lat := { s.lat with op := 2 }, eec := { s.eec with state := .xfer } } ∧
    (∀ a, exec (.readByte a) s = .next { s with
      lat := { s.lat with op := 3, addr := a }, eec := { state := .poll, pollCount := 0 } }) ∧
    (∀ a b, exec (.writeByte a b) s = .next { s with
      lat := { s.lat with op := 4, addr := a, data := b }, eec := { state := .poll, pollCount := 0 } })

/-- R147, R150 and R152: a page write longer than `16 - (address % 16)` answers `SIZE_EXCEEDS_PAGE` and an empty one `OK`
(log entry 11), each at once and without an exchange; any other starts the poll. -/
def Obligations.WritePageSizeCheck : Prop :=
  ∀ (s : State) (a : Addr) (len : BitVec 5) (buf : PageBuf), PortIdle s →
    (1 ≤ 16 - a.toNat % 16 ∧ 16 - a.toNat % 16 ≤ 16) ∧
    (16 - a.toNat % 16 < len.toNat → ∃ v, exec (.writePage a len buf) s = .next { s with
      lat := { s.lat with op := 5, addr := a, len := len, buf := buf }
      rsp := { valid := true, status := 1, data := v } }) ∧
    (len = 0 → exec (.writePage a len buf) s = .next { s with
      lat := { s.lat with op := 5, addr := a, len := len, buf := buf }
      rsp := { valid := true, status := 0, data := 0 } }) ∧
    (len.toNat ≤ 16 - a.toNat % 16 → len ≠ 0 → exec (.writePage a len buf) s = .next { s with
      lat := { s.lat with op := 5, addr := a, len := len, buf := buf }
      eec := { state := .poll, pollCount := 0 } })

/-- R141: EEC leaves the poll for the next phase exactly on a status byte with bit `WIP_BIT` clear. A busy byte makes it poll
again; with a finite `POLL_LIMIT` the busy answers are counted and the last one ends the operation with
`DEVICE_UNRESPONSIVE`, LOG's with it. That the counter stays 0 without a `POLL_LIMIT` is log entry 18. -/
def Obligations.PollAnswers : Prop :=
  ∀ (s : State) (b : Byte), MachineInv s → s.eec.state = .poll → s.bus.reply = some (.ok [b]) →
    (b.getLsbD s.cfg.wipBit = false → ∃ op, dueOp s = some op ∧
      exec (decodeRequest s.lat) s = .next { s with
        eec := { s.eec with state := if writes op then .wren else .xfer }, bus := { s.bus with reply := none } }) ∧
    (b.getLsbD s.cfg.wipBit = true → s.cfg.pollLimit = none →
      exec (decodeRequest s.lat) s = .next { s with bus := { s.bus with reply := none } }) ∧
    (∀ limit, b.getLsbD s.cfg.wipBit = true → s.cfg.pollLimit = some limit → s.eec.pollCount + 1 < limit →
      exec (decodeRequest s.lat) s = .next { s with
        eec := { s.eec with pollCount := s.eec.pollCount + 1 }, bus := { s.bus with reply := none } }) ∧
    (∀ limit, b.getLsbD s.cfg.wipBit = true → s.cfg.pollLimit = some limit → limit ≤ s.eec.pollCount + 1 →
      ∃ v, exec (decodeRequest s.lat) s = .next { s with
        eec := { state := .idle, pollCount := s.eec.pollCount + 1 }
        log := { s.log with state := .idle }
        bus := { s.bus with reply := none }
        rsp := { valid := true, status := 4, data := v } })

/-- R152: the enable frame's `Ok` leads to the settle wait, and its end to the write frame. The wait is one step without
a duration (log entry 15). -/
def Obligations.EnableThenSettleThenWrite : Prop :=
  ∀ s : State, MachineInv s →
    (∀ rx, s.eec.state = .wren → s.bus.reply = some (.ok rx) →
      exec (decodeRequest s.lat) s = .next { s with
        eec := { s.eec with state := .settle }, bus := { s.bus with reply := none } }) ∧
    (s.eec.state = .settle →
      exec (decodeRequest s.lat) s = .next { s with eec := { s.eec with state := .xfer } })

/-- R148: whenever a write frame is due, the frame before it on the bus is the write enable, the chip is idle with its
latch set, and the write is 1 to 16 bytes inside one page; so unless it faults the chip takes it. -/
def Obligations.WriteFrameFollowsEnable : Prop :=
  ∀ (s : State) (a : Addr) (data : List Byte), MachineInv s → dueFrame s = some (.write a data) →
    s.bus.frame = [s.cfg.opcodes.wren] ∧ s.chip.wip = false ∧ s.chip.wel = true ∧
    1 ≤ data.length ∧ data.length ≤ 16 - a.toNat % 16 ∧
    ∀ d : BusDraw, d.fault = false → ∃ t, runTurn (.sequencer d) s = .next t ∧ t.chip.wip = true ∧
      t.chip.pending = data.zipIdx.map fun p => (a + BitVec.ofNat 9 p.2, p.1)

/-- R341: no addressed frame is sent to a busy chip, so a read frame that does not fault returns the byte last written;
nor is the enable frame of a write operation. -/
def Obligations.AddressedFramesMeetIdleChip : Prop :=
  ∀ s : State, MachineInv s →
    (∀ a, dueFrame s = some (.read a) → s.chip.wip = false ∧
      ∀ d : BusDraw, d.fault = false → ∃ t, runTurn (.sequencer d) s = .next t ∧
        t.bus.reply = some (.ok [s.chip.byteAt a])) ∧
    (∀ a data, dueFrame s = some (.write a data) → s.chip.wip = false) ∧
    (s.eec.state = .wren → dueFrame s = some .wren → s.chip.wip = false)

/-- R142 and R145: the reads end with the received byte, zero-extended. -/
def Obligations.DriverReadsEnd : Prop :=
  ∀ (s : State) (b : Byte), s.log.state = .idle → s.eec.state = .xfer → s.bus.reply = some (.ok [b]) →
    (s.lat.op = 0 → exec .readStatus s = .next { s with
      eec := { s.eec with state := .idle }, bus := { s.bus with reply := none }
      rsp := { valid := true, status := 0, data := b.setWidth 64 } }) ∧
    (s.lat.op = 3 → exec (.readByte s.lat.addr) s = .next { s with
      eec := { s.eec with state := .idle }, bus := { s.bus with reply := none }
      rsp := { valid := true, status := 0, data := b.setWidth 64 } })

/-- R143, R144, R146, R147 and R149: the commands and the writes end with `OK` when their last frame returns, whether
or not the chip has finished its write. -/
def Obligations.DriverCommandsEnd : Prop :=
  ∀ s : State, s.log.state = .idle → s.eec.state = .xfer → s.bus.reply = some (.ok []) →
    ∀ i : Instr,
      (s.lat.op = 1 ∧ i = .writeEnable) ∨ (s.lat.op = 2 ∧ i = .writeDisable) ∨
      (s.lat.op = 4 ∧ i = .writeByte s.lat.addr s.lat.data) ∨
      (s.lat.op = 5 ∧ i = .writePage s.lat.addr s.lat.len s.lat.buf) →
    exec i s = .next { s with
      eec := { s.eec with state := .idle }, bus := { s.bus with reply := none }
      rsp := { valid := true, status := 0, data := 0 } }

/-- R151 and R190: the first faulted exchange ends the operation, and the LOG operation that called it, with `BUS_FAULT`;
the cursor keeps its value and no exchange of it is left to issue. -/
def Obligations.FaultEndsOperation : Prop :=
  ∀ s : State, MachineInv s → s.bus.reply = some .fault →
    ∃ v, exec (decodeRequest s.lat) s = .next { s with
      eec := { s.eec with state := .idle }
      log := { s.log with state := .idle }
      bus := { s.bus with reply := none }
      rsp := { valid := true, status := 2, data := v } }

/-- R125: an accepted reserved code changes nothing but the latch and is answered `ILLEGAL_OP` in the next step, without
an exchange; run by the machine, from any state with the port ready, the two steps stand together, whatever turn the
environment gives next, short of a reset (log entry 10). -/
def Obligations.ReservedCodesAnswerIllegal : Prop :=
  (∀ (s : State) (op : OpCode) (i : Instr), reqReady s = true →
    (op = 6 ∧ i = .reserved6) ∨ (op = 7 ∧ i = .reserved7) ∨ (op = 15 ∧ i = .reserved15) →
    (s.illegalDue = false ∨ s.lat.op ≠ op →
      exec i s = .next { s with lat := { s.lat with op := op }, illegalDue := true }) ∧
    (s.illegalDue = true → s.lat.op = op → ∃ v, exec i s = .next { s with
      illegalDue := false, rsp := { valid := true, status := 7, data := v } })) ∧
  (∀ (s : State) (r : Request) (turn : Turn) (rest : List Turn), MachineInv s → reqReady s = true →
    s.illegalDue = false → r.op = 6 ∨ r.op = 7 ∨ r.op = 15 → s.agenda = .request r :: turn :: rest →
    (∀ c d, turn ≠ .reset c d) → (∀ c d l, turn ≠ .powerCycle c d l) →
    ∃ t u, step s = .next t ∧ step t = .next u ∧
      t.rsp.valid = false ∧ u.rsp.valid = true ∧ u.rsp.status = 7 ∧ u.illegalDue = false ∧
      u.agenda = (if mayFollowReserved turn then rest else turn :: rest) ∧ u.lat = r ∧
      t.eec = s.eec ∧ t.log = s.log ∧ t.arb = s.arb ∧ t.chip = s.chip ∧ t.bus = s.bus ∧ t.out = [] ∧
      u.eec = s.eec ∧ u.log = s.log ∧ u.arb = s.arb ∧ u.chip = s.chip ∧ u.bus = s.bus ∧ u.out = [])

/-- R327: with no `POLL_LIMIT`, a chip that does not complete its write keeps EEC polling for ever: no step but the
chip's, a reset or a power cycle leads out, no request is accepted, no response is given and the parameters stay.
Under the two assumptions of R340 nothing hangs: in a fair run (log entry 29) every operation ends, so the port is
ready again and again, whatever the other agents do and whichever exchanges fault. -/
def Obligations.PollHangs : Prop :=
  (∀ s t : State, PollingBusyChip s → s.cfg.wf = true → s.cfg.pollLimit = none → step s = .next t →
    nextTurn s ≠ .chip → (∀ c d, nextTurn s ≠ .reset c d) → (∀ c d l, nextTurn s ≠ .powerCycle c d l) →
    (∀ d, nextTurn s = .sequencer d → d.fault = false) →
    PollingBusyChip t ∧ t.cfg = s.cfg ∧ reqReady t = false ∧ t.rsp.valid = false) ∧
  ∀ run : Nat → State, FairRun run → MachineInv (run 0) → ∀ n, ∃ m, n ≤ m ∧ reqReady (run m) = true

/-! ## LOG

LOG takes the end of a sub-operation in the step that ends it (log entry 28). -/

/-- R181, R183 to R186: the sub-operation LOG calls in each phase, with its address, length and bytes. -/
def Obligations.LogSubOperations : Prop :=
  ∀ s : State, MachineInv s →
    (s.log.state = .hdr → ∃ buf : PageBuf, dueOp s = some (.writePage 0 8 buf) ∧
      ∀ k (h : k < 16), k < 8 → buf[k] = s.lat.ts.extractLsb' (8 * k) 8) ∧
    (s.log.state = .fill → s.log.fillAddr.toNat < 8 + 24 * s.cfg.sph.toNat →
      ∃ (a : Addr) (len : BitVec 5) (buf : PageBuf), dueOp s = some (.writePage a len buf) ∧
        a.toNat = s.log.fillAddr.toNat ∧
        len.toNat = min (16 - a.toNat % 16) (8 + 24 * s.cfg.sph.toNat - a.toNat) ∧
        ∀ k (h : k < 16), buf[k] = 0) ∧
    (s.log.state = .append → ∃ a : Addr,
      dueOp s = some (.writeByte a s.lat.data) ∧ a.toNat = s.log.cursor.toNat) ∧
    (s.log.state = .read → s.lat.op = 10 → ∃ a : Addr,
      dueOp s = some (.readByte a) ∧ a.toNat = 8 + s.lat.index.toNat) ∧
    (s.log.state = .read → s.lat.op = 11 → ∃ a : Addr,
      dueOp s = some (.readByte a) ∧ a.toNat = s.log.cursor.toNat - 1) ∧
    (s.log.state = .tsread → s.log.tsK.toNat < 8 → ∃ a : Addr,
      dueOp s = some (.readByte a) ∧ a.toNat = s.log.tsK.toNat)

/-- R153 and R180: a sub-operation that is due starts with its own busy-poll; in particular none of LOG's page writes
is rejected or empty. -/
def Obligations.LogStartsSubOperation : Prop :=
  ∀ (s : State) (op : Instr), MachineInv s → s.eec.state = .idle → s.log.state ≠ .idle → dueOp s = some op →
    exec (decodeRequest s.lat) s = .next { s with eec := { state := .poll, pollCount := 0 } }

/-- R181: `reset_log` from acceptance to end: header, fill, cursor at the first slot, `OK`. -/
def Obligations.ResetLogPhases : Prop :=
  (∀ (s : State) (ts : BitVec 64), reqReady s = true →
    exec (.resetLog ts) s = .next { s with
      lat := { s.lat with op := 8, ts := ts }, log := { s.log with state := .hdr } }) ∧
  (∀ s : State, s.lat.op = 8 → s.log.state = .hdr → s.eec.state = .xfer → s.bus.reply = some (.ok []) →
    exec (.resetLog s.lat.ts) s = .next { s with
      eec := { s.eec with state := .idle }, bus := { s.bus with reply := none }
      log := { s.log with state := .fill, fillAddr := 8 } }) ∧
  (∀ s : State, s.lat.op = 8 → s.log.state = .fill → s.eec.state = .xfer → s.bus.reply = some (.ok []) →
    exec (.resetLog s.lat.ts) s = .next { s with
      eec := { s.eec with state := .idle }, bus := { s.bus with reply := none }
      log := { s.log with
        fillAddr := s.log.fillAddr + BitVec.ofNat 10
          (min (16 - s.log.fillAddr.toNat % 16) (8 + 24 * s.cfg.sph.toNat - s.log.fillAddr.toNat)) } }) ∧
  (∀ s : State, s.lat.op = 8 → s.log.state = .fill → s.eec.state = .idle →
    8 + 24 * s.cfg.sph.toNat ≤ s.log.fillAddr.toNat →
    exec (.resetLog s.lat.ts) s = .next { s with
      log := { s.log with state := .idle, cursor := 8 }
      rsp := { valid := true, status := 0, data := 0 } })

/-- R182: the fill partition: every burst runs to the end of its page or to the ceiling, is at least one byte and fits
its page; the first is 8 bytes, then come whole pages, the last is 8 bytes when `SPH` is even and a page when it is odd;
from the first slot, `ceil(CEILING / 16)` bursts reach the ceiling exactly. -/
def Obligations.FillPartition : Prop :=
  (∀ (c : Params) (x : BitVec 10), x.toNat < 8 + 24 * c.sph.toNat →
    fillBurst c x = min (16 - x.toNat % 16) (8 + 24 * c.sph.toNat - x.toNat) ∧
    1 ≤ fillBurst c x ∧ fillBurst c x ≤ 16 - x.toNat % 16 ∧ x.toNat + fillBurst c x ≤ 8 + 24 * c.sph.toNat) ∧
  (∀ c : Params, fillBurst c 8 = 8) ∧
  (∀ (c : Params) (x : BitVec 10), x.toNat % 16 = 0 → x.toNat + 16 ≤ 8 + 24 * c.sph.toNat → fillBurst c x = 16) ∧
  (∀ (c : Params) (x : BitVec 10), x.toNat % 16 = 0 → x.toNat < 8 + 24 * c.sph.toNat →
    8 + 24 * c.sph.toNat ≤ x.toNat + 16 → fillBurst c x = if c.sph.toNat % 2 = 0 then 8 else 16) ∧
  (∀ c : Params,
    (Nat.repeat (fun x : BitVec 10 => x + BitVec.ofNat 10 (fillBurst c x)) ((8 + 24 * c.sph.toNat + 15) / 16) 8).toNat =
      8 + 24 * c.sph.toNat)

/-- R183: `append_reading` answers `FULL` without a free slot or an initialised log, else starts writing; its end
advances the cursor by one and answers `OK`. -/
def Obligations.AppendReading : Prop :=
  (∀ (s : State) (v : Byte), reqReady s = true →
    s.log.cursor.toNat < 8 ∨ 8 + 24 * s.cfg.sph.toNat ≤ s.log.cursor.toNat →
    ∃ w, exec (.appendReading v) s = .next { s with
      lat := { s.lat with op := 9, data := v }, rsp := { valid := true, status := 3, data := w } }) ∧
  (∀ (s : State) (v : Byte), reqReady s = true →
    8 ≤ s.log.cursor.toNat → s.log.cursor.toNat < 8 + 24 * s.cfg.sph.toNat →
    exec (.appendReading v) s = .next { s with
      lat := { s.lat with op := 9, data := v }, log := { s.log with state := .append } }) ∧
  (∀ s : State, s.lat.op = 9 → s.log.state = .append → s.eec.state = .xfer → s.bus.reply = some (.ok []) →
    exec (.appendReading s.lat.data) s = .next { s with
      eec := { s.eec with state := .idle }, bus := { s.bus with reply := none }
      log := { s.log with state := .idle, cursor := s.log.cursor + 1 }
      rsp := { valid := true, status := 0, data := 0 } })

/-- R184: `read_reading` answers `NONE` for a slot not written and an uninitialised log, by the full 16-bit index; else
it reads, and ends with the byte. -/
def Obligations.ReadReading : Prop :=
  (∀ (s : State) (i : BitVec 16), reqReady s = true →
    s.log.cursor.toNat < 8 ∨ s.log.cursor.toNat - 8 ≤ i.toNat →
    ∃ w, exec (.readReading i) s = .next { s with
      lat := { s.lat with op := 10, index := i }, rsp := { valid := true, status := 5, data := w } }) ∧
  (∀ (s : State) (i : BitVec 16), reqReady s = true → 8 + i.toNat < s.log.cursor.toNat →
    exec (.readReading i) s = .next { s with
      lat := { s.lat with op := 10, index := i }, log := { s.log with state := .read } }) ∧
  (∀ (s : State) (b : Byte), s.lat.op = 10 → s.log.state = .read → s.eec.state = .xfer →
    s.bus.reply = some (.ok [b]) →
    exec (.readReading s.lat.index) s = .next { s with
      eec := { s.eec with state := .idle }, bus := { s.bus with reply := none }
      log := { s.log with state := .idle }
      rsp := { valid := true, status := 0, data := b.setWidth 64 } })

/-- R185: `read_last_reading` answers `NONE` with no reading, else reads, and ends with the byte. -/
def Obligations.ReadLastReading : Prop :=
  (∀ s : State, reqReady s = true → s.log.cursor.toNat ≤ 8 →
    ∃ w, exec .readLastReading s = .next { s with
      lat := { s.lat with op := 11 }, rsp := { valid := true, status := 5, data := w } }) ∧
  (∀ s : State, reqReady s = true → 8 < s.log.cursor.toNat →
    exec .readLastReading s = .next { s with
      lat := { s.lat with op := 11 }, log := { s.log with state := .read } }) ∧
  (∀ (s : State) (b : Byte), s.lat.op = 11 → s.log.state = .read → s.eec.state = .xfer →
    s.bus.reply = some (.ok [b]) →
    exec .readLastReading s = .next { s with
      eec := { s.eec with state := .idle }, bus := { s.bus with reply := none }
      log := { s.log with state := .idle }
      rsp := { valid := true, status := 0, data := b.setWidth 64 } })

/-- R186: `read_header_timestamp` answers `NONE` for an uninitialised log, else reads bytes 0 to 7 into `ts_acc` and ends
with it. -/
def Obligations.ReadHeaderTimestamp : Prop :=
  (∀ s : State, reqReady s = true → s.log.cursor.toNat < 8 →
    ∃ w, exec .readHeaderTimestamp s = .next { s with
      lat := { s.lat with op := 12 }, rsp := { valid := true, status := 5, data := w } }) ∧
  (∀ s : State, reqReady s = true → 8 ≤ s.log.cursor.toNat →
    exec .readHeaderTimestamp s = .next { s with
      lat := { s.lat with op := 12 }, log := { s.log with state := .tsread, tsK := 0, tsAcc := 0 } }) ∧
  (∀ (s : State) (b : Byte), s.lat.op = 12 → s.log.state = .tsread → s.eec.state = .xfer →
    s.bus.reply = some (.ok [b]) → s.log.tsK.toNat < 8 →
    ∃ acc : BitVec 64,
      (∀ j, j < 8 → acc.extractLsb' (8 * j) 8 =
        if j = s.log.tsK.toNat then b else s.log.tsAcc.extractLsb' (8 * j) 8) ∧
      exec .readHeaderTimestamp s = .next { s with
        eec := { s.eec with state := .idle }, bus := { s.bus with reply := none }
        log := { s.log with tsAcc := acc, tsK := s.log.tsK + 1 } }) ∧
  (∀ s : State, s.lat.op = 12 → s.log.state = .tsread → s.eec.state = .idle → 8 ≤ s.log.tsK.toNat →
    exec .readHeaderTimestamp s = .next { s with
      log := { s.log with state := .idle }
      rsp := { valid := true, status := 0, data := s.log.tsAcc } })

/-- R181, R182, R186 and R75 run as a whole, on an idle chip and without faults. `reset_log` takes the request, for the
header write and each fill burst eight turns of the sequencer and the chip's completion, and a last turn: it answers
`OK`, the cursor is at the first slot, the header holds the timestamp, least significant byte first, every slot is zero
and every byte at and above the ceiling is as before. `read_header_timestamp` then takes the request, five turns of the
sequencer a byte and a last one, and answers the timestamp those bytes hold. The bytes of the two buffers agree. -/
def Obligations.TimestampRoundTrip : Prop :=
  (∀ (s : State) (r : Request) (rest : List Turn) (ws : List (List BusDraw)) (last : BusDraw),
    MachineInv s → reqReady s = true → s.illegalDue = false → s.chip.wip = false → r.op = 8 →
    ws.length = 1 + (8 + 24 * s.cfg.sph.toNat + 15) / 16 →
    (∀ w ∈ ws, w.length = 8 ∧ ∀ d ∈ w, d.fault = false) →
    s.agenda = .request r ::
      ((ws.map fun w => w.map Turn.sequencer ++ [.chip]).flatten ++ .sequencer last :: rest) →
    ∃ t, runSteps (2 + 9 * ws.length) s = .next t ∧
      t.rsp = { valid := true, status := 0, data := 0 } ∧ reqReady t = true ∧ t.log.cursor = 8 ∧
      t.agenda = rest ∧ t.arb = s.arb ∧ t.chip.wip = false ∧
      ∀ x : Addr, t.chip.byteAt x =
        if x.toNat < 8 then r.ts.extractLsb' (8 * x.toNat) 8
        else if x.toNat < 8 + 24 * s.cfg.sph.toNat then 0 else s.chip.byteAt x) ∧
  (∀ (s : State) (r : Request) (rest : List Turn) (ds : List BusDraw) (ts : BitVec 64),
    MachineInv s → reqReady s = true → s.illegalDue = false → s.chip.wip = false → r.op = 12 →
    8 ≤ s.log.cursor.toNat → ds.length = 41 → (∀ d ∈ ds, d.fault = false) →
    s.agenda = .request r :: (ds.map .sequencer ++ rest) →
    (∀ k, k < 8 → s.chip.byteAt (BitVec.ofNat 9 k) = ts.extractLsb' (8 * k) 8) →
    ∃ t, runSteps 42 s = .next t ∧ t.rsp = { valid := true, status := 0, data := ts } ∧ reqReady t = true ∧
      t.agenda = rest ∧ t.log.cursor = s.log.cursor ∧ t.chip.mem = s.chip.mem ∧ t.arb = s.arb) ∧
  ∀ (t acc : BitVec 64),
    (List.range 8).foldl (fun x k => insertTimestampByte x k ((le64Buf t).toList.getD k 0)) acc = t

/-- R187 and R188: `reading_timestamp` answers `index * (3600 / SPH)` in one step, exactly, for every index and every
cursor. -/
def Obligations.ReadingTimestamp : Prop :=
  ∀ (s : State) (i : BitVec 16), reqReady s = true →
    ∃ v : BitVec 64, v.toNat = i.toNat * (3600 / s.cfg.sph.toNat) ∧ v.toNat < 2 ^ 32 ∧
      exec (.readingTimestamp i) s = .next { s with
        lat := { s.lat with op := 13, index := i }, rsp := { valid := true, status := 0, data := v } }

/-- R46: a step moves the cursor only by one up at the acknowledged end of an append, to the first slot at the end of a
`reset_log`, or to 0 by a reset. -/
def Obligations.CursorMoves : Prop :=
  ∀ s t : State, step s = .next t →
    t.log.cursor = s.log.cursor ∨
    (t.log.cursor = s.log.cursor + 1 ∧ s.log.state = .append ∧ s.eec.state = .xfer ∧
      (∃ rx, s.bus.reply = some (.ok rx)) ∧ t.rsp.valid = true ∧ t.rsp.status = 0) ∨
    (t.log.cursor = 8 ∧ s.log.state = .fill ∧ ceiling s.cfg ≤ s.log.fillAddr.toNat ∧
      t.rsp.valid = true ∧ t.rsp.status = 0) ∨
    (t.log.cursor = 0 ∧ ((∃ c d, nextTurn s = .reset c d) ∨ ∃ c d l, nextTurn s = .powerCycle c d l))

/-- R30 and R31: the step that gives a response leaves the request port ready. -/
def Obligations.ResponseFreesPort : Prop :=
  ∀ s t : State, step s = .next t → t.rsp.valid = true → reqReady t = true

/-! ## POL -/

/-- R260: the watering duration, with the complete map that R261 derives from it. -/
def Obligations.DecideWatering : Prop :=
  ∀ (s : State) (p : Byte), reqReady s = true →
    (50 ≤ p.toNat → ∃ v, exec (.decideWatering p) s = .next { s with
      lat := { s.lat with op := 14, data := p }, rsp := { valid := true, status := 5, data := v } }) ∧
    (p.toNat < 50 → ∃ v : BitVec 64,
      v.toNat = ((50 - p.toNat) / 10 + 1) * 10 ∧
      (41 ≤ p.toNat → v = 10) ∧ (31 ≤ p.toNat → p.toNat ≤ 40 → v = 20) ∧
      (21 ≤ p.toNat → p.toNat ≤ 30 → v = 30) ∧ (11 ≤ p.toNat → p.toNat ≤ 20 → v = 40) ∧
      (1 ≤ p.toNat → p.toNat ≤ 10 → v = 50) ∧ (p.toNat = 0 → v = 60) ∧
      exec (.decideWatering p) s = .next { s with
        lat := { s.lat with op := 14, data := p }, rsp := { valid := true, status := 0, data := v } })

/-! ## ARB: events -/

/-- R211 to R215: the five events. -/
def Obligations.EventsSetTheirBits : Prop :=
  ∀ s : State,
    exec .evTimer s = .next { s with
      arb := { s.arb with mask := s.arb.mask ||| 0x05#6, wakePending := true } } ∧
    exec .evManualSample s = .next { s with
      arb := { s.arb with mask := s.arb.mask ||| 0x02#6, wakePending := true } } ∧
    (∀ d, exec (.evManualWater d) s = .next { s with
      arb := { s.arb with mask := s.arb.mask ||| 0x08#6, wakePending := true, manDuration := d } }) ∧
    (∀ v, exec (.evSetAuto v) s = .next { s with
      arb := { s.arb with mask := s.arb.mask ||| 0x10#6, wakePending := true, autoReq := v } }) ∧
    exec .evDumpHistory s = .next { s with
      arb := { s.arb with mask := s.arb.mask ||| 0x20#6, wakePending := true } }

/-- Any subset of the strobes may be high in one step, and the effect is the union: rule R216, which the spec marks as
derived from R211 to R215. The same for the done lines of R240 to R242 is log entry 19. -/
def Obligations.StrobesUnite : Prop :=
  (∀ (s : State) (d : DoneSignals),
    runTurn (.done d) s = .next { s with arb := { s.arb with
      liveSensor := s.arb.liveSensor && !d.sensor
      livePump := s.arb.livePump && !d.pump
      liveHistory := s.arb.liveHistory && !d.history } }) ∧
  ∀ (s : State) (e : EventSignals),
    runTurn (.events e) s = .next { s with arb := { s.arb with
      mask := s.arb.mask |||
        ((if e.timer then 0x05#6 else 0) ||| (if e.manualSample then 0x02#6 else 0) |||
         (if e.manualWater then 0x08#6 else 0) ||| (if e.setAuto then 0x10#6 else 0) |||
         (if e.dumpHistory then 0x20#6 else 0))
      wakePending := s.arb.wakePending || e.timer || e.manualSample || e.manualWater || e.setAuto || e.dumpHistory
      manDuration := if e.manualWater then e.duration else s.arb.manDuration
      autoReq := if e.setAuto then e.autoValue else s.arb.autoReq } }

/-! ## ARB: arbiter steps and done lines -/

/-- R220 and R221: the two wakes. That a step which is not enabled changes nothing is log entry 12. -/
def Obligations.Wakes : Prop :=
  ∀ s : State, s.arb.state = .idle →
    (s.arb.wakePending = true →
      exec .wake s = .next { s with arb := { s.arb with wakePending := false, state := .dSample } }) ∧
    (s.arb.wakePending = false → s.cfg.idleTimeoutFinite = true →
      exec .idleTimeoutWake s = .next { s with arb := { s.arb with state := .dSample } }) ∧
    (s.arb.wakePending = false → s.cfg.idleTimeoutFinite = false → exec .idleTimeoutWake s = .next s)

/-- R223: the sample path under both settings of `SAMPLE_COLLAPSE`, with the no-op guard of R230. -/
def Obligations.SampleDispatch : Prop :=
  ∀ s : State, s.arb.state = .dSample →
    (s.arb.mask.getLsbD 0 = false → s.arb.mask.getLsbD 1 = false →
      exec .dSample s = .next { s with arb := { s.arb with state := .dAutoen } }) ∧
    (∀ m : Mask, s.arb.mask.getLsbD 0 = true ∨ s.arb.mask.getLsbD 1 = true →
      m = (match s.cfg.sampleCollapse with
        | .clearBoth => s.arb.mask &&& 0b111100#6
        | .keepManual => if s.arb.mask.getLsbD 0 then s.arb.mask &&& 0b111110#6 else s.arb.mask &&& 0b111101#6) →
      (s.arb.liveSensor = false → exec .dSample s = .next { s with
        arb := { s.arb with mask := m, liveSensor := true, state := .dAutoen }
        out := s.out ++ [.startSensor (if s.arb.mask.getLsbD 0 then .auto else .manual)] }) ∧
      (s.arb.liveSensor = true → exec .dSample s = .next { s with
        arb := { s.arb with mask := m, state := .dAutoen } }))

/-- R224: the enable change. -/
def Obligations.AutoEnableDispatch : Prop :=
  ∀ s : State, s.arb.state = .dAutoen →
    (s.arb.mask.getLsbD 4 = true → exec .dAutoen s = .next { s with
      arb := { s.arb with mask := s.arb.mask &&& 0b101111#6, autoWaterEnabled := s.arb.autoReq,
                          state := .dAutowater } }) ∧
    (s.arb.mask.getLsbD 4 = false → exec .dAutoen s = .next { s with
      arb := { s.arb with state := .dAutowater } })

/-- R225: auto-water starts a pump worker only if enabled and none is live; the bit is dropped otherwise. -/
def Obligations.AutoWaterDispatch : Prop :=
  ∀ s : State, s.arb.state = .dAutowater →
    (s.arb.mask.getLsbD 2 = true → s.arb.autoWaterEnabled = true → s.arb.livePump = false →
      exec .dAutowater s = .next { s with
        arb := { s.arb with mask := s.arb.mask &&& 0b111011#6, livePump := true, pumpKind := .auto,
                            state := .dManwater }
        out := s.out ++ [.startPump .auto 0] }) ∧
    (s.arb.mask.getLsbD 2 = true → s.arb.autoWaterEnabled = false ∨ s.arb.livePump = true →
      exec .dAutowater s = .next { s with
        arb := { s.arb with mask := s.arb.mask &&& 0b111011#6, state := .dManwater } }) ∧
    (s.arb.mask.getLsbD 2 = false → exec .dAutowater s = .next { s with
      arb := { s.arb with state := .dManwater } })

/-- R226 and R227: manual water cancels a live auto pump worker, in the order cancel, duty off, start; it does not
cancel a manual one. -/
def Obligations.ManualWaterDispatch : Prop :=
  ∀ s : State, s.arb.state = .dManwater →
    (s.arb.mask.getLsbD 3 = true → s.arb.livePump = true → s.arb.pumpKind = .auto →
      exec .dManwater s = .next { s with
        arb := { s.arb with mask := s.arb.mask &&& 0b110111#6, livePump := true, pumpKind := .manual,
                            state := .dHistory }
        out := s.out ++ [.cancelPump, .dutyOff, .startPump .manual s.arb.manDuration] }) ∧
    (s.arb.mask.getLsbD 3 = true → s.arb.livePump = true → s.arb.pumpKind = .manual →
      exec .dManwater s = .next { s with
        arb := { s.arb with mask := s.arb.mask &&& 0b110111#6, state := .dHistory } }) ∧
    (s.arb.mask.getLsbD 3 = true → s.arb.livePump = false →
      exec .dManwater s = .next { s with
        arb := { s.arb with mask := s.arb.mask &&& 0b110111#6, livePump := true, pumpKind := .manual,
                            state := .dHistory }
        out := s.out ++ [.startPump .manual s.arb.manDuration] }) ∧
    (s.arb.mask.getLsbD 3 = false → exec .dManwater s = .next { s with
      arb := { s.arb with state := .dHistory } })

/-- R228 and R229: the history dump and the blocking wait. That a step which is not enabled changes nothing is log
entry 12. -/
def Obligations.HistoryDispatchAndWait : Prop :=
  ∀ s : State,
    (s.arb.state = .dHistory → s.arb.mask.getLsbD 5 = true → s.arb.liveHistory = false →
      exec .dHistory s = .next { s with
        arb := { s.arb with mask := s.arb.mask &&& 0b011111#6, liveHistory := true, state := .wHistory }
        out := s.out ++ [.startHistory] }) ∧
    (s.arb.state = .dHistory → s.arb.mask.getLsbD 5 = true → s.arb.liveHistory = true →
      exec .dHistory s = .next { s with
        arb := { s.arb with mask := s.arb.mask &&& 0b011111#6, state := .wHistory } }) ∧
    (s.arb.state = .dHistory → s.arb.mask.getLsbD 5 = false →
      exec .dHistory s = .next { s with arb := { s.arb with state := .idle } }) ∧
    (s.arb.state = .wHistory → s.arb.liveHistory = false →
      exec .historyWaitEnd s = .next { s with arb := { s.arb with state := .idle } }) ∧
    (s.arb.state = .wHistory → s.arb.liveHistory = true → exec .historyWaitEnd s = .next s)

/-- R240 to R242: a done line clears its own handle and nothing else. -/
def Obligations.DoneLinesClearHandles : Prop :=
  ∀ s : State,
    exec .doneSensor s = .next { s with arb := { s.arb with liveSensor := false } } ∧
    exec .donePump s = .next { s with arb := { s.arb with livePump := false } } ∧
    exec .doneHistory s = .next { s with arb := { s.arb with liveHistory := false } }

/-! ## The whole machine

Runs are sequences of turns of one agent each, two for an exchange (log entries 1 and 2). -/

/-- R231: a pending bit is lost only in the arbiter's turn, and there only a bit of the dispatch step that runs, or in a
reset. -/
def Obligations.MaskBitsClearedByArbiterOnly : Prop :=
  ∀ (s t : State) (k : Nat), step s = .next t → s.arb.mask.getLsbD k = true → t.arb.mask.getLsbD k = false →
    (nextTurn s = .arbiter ∧
      ((s.arb.state = .dSample ∧ k ≤ 1) ∨ (s.arb.state = .dAutoen ∧ k = 4) ∨
       (s.arb.state = .dAutowater ∧ k = 2) ∨ (s.arb.state = .dManwater ∧ k = 3) ∨
       (s.arb.state = .dHistory ∧ k = 5))) ∨
    (∃ c d, nextTurn s = .reset c d) ∨ ∃ c d l, nextTurn s = .powerCycle c d l

/-- R218, R248 and R280: producers, done lines and the arbiter reach neither the request port's units nor the bus, the
chip or the cursor, and a producer moves only the mask, the wake signal and the two argument registers. An operation of
the request port, whatever its outcome, and the chip's completion leave every ARB register alone and drive no worker or
actuator output. -/
def Obligations.ArbAndRequestSideAreSeparate : Prop :=
  ∀ s t : State, step s = .next t →
    (nextTurn s = .arbiter ∨ (∃ d, nextTurn s = .done d) ∨ (∃ e, nextTurn s = .events e) →
      t.lat = s.lat ∧ t.eec = s.eec ∧ t.log = s.log ∧ t.chip = s.chip ∧ t.bus = s.bus ∧ t.rsp.valid = false) ∧
    (∀ e, nextTurn s = .events e → t.out = [] ∧
      t.arb = { s.arb with mask := t.arb.mask, wakePending := t.arb.wakePending,
                           manDuration := t.arb.manDuration, autoReq := t.arb.autoReq }) ∧
    ((∃ r, nextTurn s = .request r) ∨ (∃ d, nextTurn s = .sequencer d) ∨ nextTurn s = .chip →
      t.arb = s.arb ∧ t.out = [])

/-- R250: a start output is driven only in a step that found the kind's handle 0, for a pump after the cancel path if
any, and leaves the handle 1. -/
def Obligations.StartsFindFreeHandle : Prop :=
  ∀ s t : State, step s = .next t →
    (∀ k, .startSensor k ∈ t.out → s.arb.liveSensor = false ∧ t.arb.liveSensor = true) ∧
    (∀ k d, .startPump k d ∈ t.out → t.arb.livePump = true ∧ t.arb.pumpKind = k ∧
      (s.arb.livePump = false ∨
        (s.arb.pumpKind = .auto ∧ k = .manual ∧ t.out = [.cancelPump, .dutyOff, .startPump .manual d]))) ∧
    (.startHistory ∈ t.out → s.arb.liveHistory = false ∧ t.arb.liveHistory = true ∧ t.arb.state = .wHistory)

/-- R328: while the history worker is live the arbiter stays in `W_HISTORY` and drives nothing; only the worker's done
line, a reset or a power cycle ends it. -/
def Obligations.HistoryWaitBlocks : Prop :=
  ∀ s t : State, s.arb.state = .wHistory → s.arb.liveHistory = true → step s = .next t →
    (∀ d, nextTurn s = .done d → d.history = false) →
    (∀ c d, nextTurn s ≠ .reset c d) → (∀ c d l, nextTurn s ≠ .powerCycle c d l) →
    t.arb.state = .wHistory ∧ t.arb.liveHistory = true ∧ t.out = []

/-- R93, R314, R317 and R337: what a reset and a loss of power leave in the chip. A reset with no exchange in progress
leaves it as it is; one that cuts an exchange leaves each byte, now and once the chip's write is complete, as it was or
at the new value the exchange carries for it (log entry 16). A loss of power leaves the chip idle with its latch clear,
and every byte that no write in progress and no cut exchange addresses as it was; with neither, all of memory (the power
cycle as one turn is log entry 17). -/
def Obligations.MemorySurvivesReset : Prop :=
  ∀ (s : State) (cut : Bool) (d : BusDraw) (lost : BitVec 128),
    (∃ t, runTurn (.reset cut d) s = .next t ∧ (cut = false ∨ dueFrame s = none → t.chip = s.chip) ∧
      ∀ x : Addr,
        (t.chip.byteAt x = s.chip.byteAt x ∨
          cut = true ∧ ∃ f, dueFrame s = some f ∧ ∃ p ∈ addressedPairs f, p.1 = x ∧ t.chip.byteAt x = p.2) ∧
        (t.chip.complete.byteAt x = s.chip.complete.byteAt x ∨
          cut = true ∧ ∃ f, dueFrame s = some f ∧
            ∃ p ∈ addressedPairs f, p.1 = x ∧ t.chip.complete.byteAt x = p.2)) ∧
    (∃ t, runTurn (.powerCycle cut d lost) s = .next t ∧
      t.chip.wel = false ∧ t.chip.wip = false ∧ t.chip.pending = [] ∧
      (cut = false ∨ dueFrame s = none → s.chip.pending = [] → t.chip.mem = s.chip.mem) ∧
      ∀ x : Addr, (∀ p ∈ s.chip.pending, p.1 ≠ x) →
        (cut = true → ∀ f, dueFrame s = some f → ∀ p ∈ addressedPairs f, p.1 ≠ x) →
        t.chip.byteAt x = s.chip.byteAt x)

/-- R222 and R223: one wake of the arbiter, six turns of it, drains the mask, but for the manual sample of a double one
under `SAMPLE_COLLAPSE = keep_manual`, and leaves the arbiter idle, or waiting for the history worker exactly if a dump
was pending. In a fair run (R340, log entry 29) a signalled wake is taken unless a reset comes first, and every dispatch
comes to its end. -/
def Obligations.WakeDrainsMask : Prop :=
  (∀ (s : State) (rest : List Turn), s.arb.state = .idle → s.arb.wakePending = true → s.illegalDue = false →
    s.agenda = List.replicate 6 .arbiter ++ rest →
    ∃ t, runSteps 6 s = .next t ∧ t.agenda = rest ∧ t.arb.wakePending = false ∧
      t.arb.mask = (match s.cfg.sampleCollapse with
        | .clearBoth => 0
        | .keepManual => if s.arb.mask.getLsbD 0 && s.arb.mask.getLsbD 1 then 0b000010#6 else 0) ∧
      t.arb.state = (if s.arb.mask.getLsbD 5 then .wHistory else .idle) ∧
      t.arb.autoWaterEnabled = (if s.arb.mask.getLsbD 4 then s.arb.autoReq else s.arb.autoWaterEnabled) ∧
      t.eec = s.eec ∧ t.log = s.log ∧ t.chip = s.chip) ∧
  ∀ run : Nat → State, FairRun run → ∀ n,
    ((run n).arb.state = .idle → (run n).arb.wakePending = true →
      ∃ m, n ≤ m ∧ (run m).arb.state = .idle ∧ (run m).arb.wakePending = true ∧
        ((nextTurn (run m) = .arbiter ∧ (run (m + 1)).arb.state = .dSample) ∨
         (∃ c d, nextTurn (run m) = .reset c d) ∨ ∃ c d l, nextTurn (run m) = .powerCycle c d l)) ∧
    ∃ m, n ≤ m ∧ ((run m).arb.state = .idle ∨ (run m).arb.state = .wHistory)

/-- R183 run as a whole: from an idle machine with a free slot and an idle chip, without faults, the request and eight
turns of the sequencer append the value: `OK`, the cursor one up; once the chip completes, the slot holds the value
and every other byte is as before. A value above 100 is stored as given (log entry 11). -/
def Obligations.AppendRun : Prop :=
  ∀ (s : State) (r : Request) (rest : List Turn) (ds : List BusDraw),
    MachineInv s → reqReady s = true → s.illegalDue = false → s.chip.wip = false → r.op = 9 → initialised s.log.cursor = true →
    s.log.cursor.toNat < ceiling s.cfg → ds.length = 8 → (∀ d ∈ ds, d.fault = false) →
    s.agenda = .request r :: (ds.map .sequencer ++ .chip :: rest) →
    ∃ t u, runSteps 9 s = .next t ∧ runSteps 10 s = .next u ∧
      t.rsp = { valid := true, status := 0, data := 0 } ∧ t.log.cursor = s.log.cursor + 1 ∧ reqReady t = true ∧
      u.agenda = rest ∧ u.log.cursor = s.log.cursor + 1 ∧ u.chip.wip = false ∧ u.arb = s.arb ∧
      u.chip.byteAt (s.log.cursor.setWidth 9) = r.data ∧
      ∀ x : Addr, x ≠ s.log.cursor.setWidth 9 → u.chip.byteAt x = s.chip.byteAt x

/-- R185 run as a whole: with at least one reading and an idle chip, without faults, the request and five turns of the
sequencer answer `OK` with the byte below the cursor; no byte of memory and no cursor changes. -/
def Obligations.ReadLastRun : Prop :=
  ∀ (s : State) (r : Request) (rest : List Turn) (ds : List BusDraw),
    MachineInv s → reqReady s = true → s.illegalDue = false → s.chip.wip = false → r.op = 11 → 8 < s.log.cursor.toNat →
    ds.length = 5 → (∀ d ∈ ds, d.fault = false) → s.agenda = .request r :: (ds.map .sequencer ++ rest) →
    ∃ t, runSteps 6 s = .next t ∧ t.agenda = rest ∧ reqReady t = true ∧ t.arb = s.arb ∧
      t.log.cursor = s.log.cursor ∧ t.chip.mem = s.chip.mem ∧
      t.rsp = { valid := true, status := 0,
                data := (s.chip.byteAt (BitVec.ofNat 9 (s.log.cursor.toNat - 1))).setWidth 64 }

/-- R147 and the driver property of R92 run as a whole: a page write that fits, on an idle chip and without faults,
answers `OK` after the request and seven turns of the sequencer; once the chip completes, the addressed bytes are the
buffer's and every other byte is as before. -/
def Obligations.WritePageRun : Prop :=
  ∀ (s : State) (r : Request) (rest : List Turn) (ds : List BusDraw),
    MachineInv s → reqReady s = true → s.illegalDue = false → s.chip.wip = false → r.op = 5 → r.len ≠ 0 →
    r.len.toNat ≤ 16 - r.addr.toNat % 16 → ds.length = 7 → (∀ d ∈ ds, d.fault = false) →
    s.agenda = .request r :: (ds.map .sequencer ++ .chip :: rest) →
    ∃ t u, runSteps 8 s = .next t ∧ runSteps 9 s = .next u ∧
      t.rsp = { valid := true, status := 0, data := 0 } ∧ reqReady t = true ∧
      u.agenda = rest ∧ u.log.cursor = s.log.cursor ∧ u.chip.wip = false ∧ u.arb = s.arb ∧
      (∀ i (h : i < 16), i < r.len.toNat → u.chip.byteAt (r.addr + BitVec.ofNat 9 i) = r.buf[i]) ∧
      ∀ x : Addr, (∀ i, i < r.len.toNat → x ≠ r.addr + BitVec.ofNat 9 i) →
        u.chip.byteAt x = s.chip.byteAt x
end

