-- ==== Sys2Proof/Laws/State.lean ====
section
/-! SUPPORT. One lemma per field of State and update of it, all by definition, and the fields after the start of
a step. -/

namespace Sys2Proof.Machine

@[simp] theorem State.withLat_cfg (s : State) (x : Request) : (s.withLat x).cfg = s.cfg := rfl
@[simp] theorem State.withLat_lat (s : State) (x : Request) : (s.withLat x).lat = x := rfl
@[simp] theorem State.withLat_illegalDue (s : State) (x : Request) : (s.withLat x).illegalDue = s.illegalDue := rfl
@[simp] theorem State.withLat_eec (s : State) (x : Request) : (s.withLat x).eec = s.eec := rfl
@[simp] theorem State.withLat_log (s : State) (x : Request) : (s.withLat x).log = s.log := rfl
@[simp] theorem State.withLat_arb (s : State) (x : Request) : (s.withLat x).arb = s.arb := rfl
@[simp] theorem State.withLat_chip (s : State) (x : Request) : (s.withLat x).chip = s.chip := rfl
@[simp] theorem State.withLat_bus (s : State) (x : Request) : (s.withLat x).bus = s.bus := rfl
@[simp] theorem State.withLat_busIn (s : State) (x : Request) : (s.withLat x).busIn = s.busIn := rfl
@[simp] theorem State.withLat_rsp (s : State) (x : Request) : (s.withLat x).rsp = s.rsp := rfl
@[simp] theorem State.withLat_out (s : State) (x : Request) : (s.withLat x).out = s.out := rfl
@[simp] theorem State.withLat_agenda (s : State) (x : Request) : (s.withLat x).agenda = s.agenda := rfl
@[simp] theorem State.withLat_tick (s : State) (x : Request) : (s.withLat x).tick = s.tick := rfl

@[simp] theorem State.withIllegalDue_cfg (s : State) (x : Bool) : (s.withIllegalDue x).cfg = s.cfg := rfl
@[simp] theorem State.withIllegalDue_lat (s : State) (x : Bool) : (s.withIllegalDue x).lat = s.lat := rfl
@[simp] theorem State.withIllegalDue_illegalDue (s : State) (x : Bool) : (s.withIllegalDue x).illegalDue = x := rfl
@[simp] theorem State.withIllegalDue_eec (s : State) (x : Bool) : (s.withIllegalDue x).eec = s.eec := rfl
@[simp] theorem State.withIllegalDue_log (s : State) (x : Bool) : (s.withIllegalDue x).log = s.log := rfl
@[simp] theorem State.withIllegalDue_arb (s : State) (x : Bool) : (s.withIllegalDue x).arb = s.arb := rfl
@[simp] theorem State.withIllegalDue_chip (s : State) (x : Bool) : (s.withIllegalDue x).chip = s.chip := rfl
@[simp] theorem State.withIllegalDue_bus (s : State) (x : Bool) : (s.withIllegalDue x).bus = s.bus := rfl
@[simp] theorem State.withIllegalDue_busIn (s : State) (x : Bool) : (s.withIllegalDue x).busIn = s.busIn := rfl
@[simp] theorem State.withIllegalDue_rsp (s : State) (x : Bool) : (s.withIllegalDue x).rsp = s.rsp := rfl
@[simp] theorem State.withIllegalDue_out (s : State) (x : Bool) : (s.withIllegalDue x).out = s.out := rfl
@[simp] theorem State.withIllegalDue_agenda (s : State) (x : Bool) : (s.withIllegalDue x).agenda = s.agenda := rfl
@[simp] theorem State.withIllegalDue_tick (s : State) (x : Bool) : (s.withIllegalDue x).tick = s.tick := rfl

@[simp] theorem State.withEec_cfg (s : State) (x : EecUnit) : (s.withEec x).cfg = s.cfg := rfl
@[simp] theorem State.withEec_lat (s : State) (x : EecUnit) : (s.withEec x).lat = s.lat := rfl
@[simp] theorem State.withEec_illegalDue (s : State) (x : EecUnit) : (s.withEec x).illegalDue = s.illegalDue := rfl
@[simp] theorem State.withEec_eec (s : State) (x : EecUnit) : (s.withEec x).eec = x := rfl
@[simp] theorem State.withEec_log (s : State) (x : EecUnit) : (s.withEec x).log = s.log := rfl
@[simp] theorem State.withEec_arb (s : State) (x : EecUnit) : (s.withEec x).arb = s.arb := rfl
@[simp] theorem State.withEec_chip (s : State) (x : EecUnit) : (s.withEec x).chip = s.chip := rfl
@[simp] theorem State.withEec_bus (s : State) (x : EecUnit) : (s.withEec x).bus = s.bus := rfl
@[simp] theorem State.withEec_busIn (s : State) (x : EecUnit) : (s.withEec x).busIn = s.busIn := rfl
@[simp] theorem State.withEec_rsp (s : State) (x : EecUnit) : (s.withEec x).rsp = s.rsp := rfl
@[simp] theorem State.withEec_out (s : State) (x : EecUnit) : (s.withEec x).out = s.out := rfl
@[simp] theorem State.withEec_agenda (s : State) (x : EecUnit) : (s.withEec x).agenda = s.agenda := rfl
@[simp] theorem State.withEec_tick (s : State) (x : EecUnit) : (s.withEec x).tick = s.tick := rfl

@[simp] theorem State.withLog_cfg (s : State) (x : LogUnit) : (s.withLog x).cfg = s.cfg := rfl
@[simp] theorem State.withLog_lat (s : State) (x : LogUnit) : (s.withLog x).lat = s.lat := rfl
@[simp] theorem State.withLog_illegalDue (s : State) (x : LogUnit) : (s.withLog x).illegalDue = s.illegalDue := rfl
@[simp] theorem State.withLog_eec (s : State) (x : LogUnit) : (s.withLog x).eec = s.eec := rfl
@[simp] theorem State.withLog_log (s : State) (x : LogUnit) : (s.withLog x).log = x := rfl
@[simp] theorem State.withLog_arb (s : State) (x : LogUnit) : (s.withLog x).arb = s.arb := rfl
@[simp] theorem State.withLog_chip (s : State) (x : LogUnit) : (s.withLog x).chip = s.chip := rfl
@[simp] theorem State.withLog_bus (s : State) (x : LogUnit) : (s.withLog x).bus = s.bus := rfl
@[simp] theorem State.withLog_busIn (s : State) (x : LogUnit) : (s.withLog x).busIn = s.busIn := rfl
@[simp] theorem State.withLog_rsp (s : State) (x : LogUnit) : (s.withLog x).rsp = s.rsp := rfl
@[simp] theorem State.withLog_out (s : State) (x : LogUnit) : (s.withLog x).out = s.out := rfl
@[simp] theorem State.withLog_agenda (s : State) (x : LogUnit) : (s.withLog x).agenda = s.agenda := rfl
@[simp] theorem State.withLog_tick (s : State) (x : LogUnit) : (s.withLog x).tick = s.tick := rfl

@[simp] theorem State.withArb_cfg (s : State) (x : ArbUnit) : (s.withArb x).cfg = s.cfg := rfl
@[simp] theorem State.withArb_lat (s : State) (x : ArbUnit) : (s.withArb x).lat = s.lat := rfl
@[simp] theorem State.withArb_illegalDue (s : State) (x : ArbUnit) : (s.withArb x).illegalDue = s.illegalDue := rfl
@[simp] theorem State.withArb_eec (s : State) (x : ArbUnit) : (s.withArb x).eec = s.eec := rfl
@[simp] theorem State.withArb_log (s : State) (x : ArbUnit) : (s.withArb x).log = s.log := rfl
@[simp] theorem State.withArb_arb (s : State) (x : ArbUnit) : (s.withArb x).arb = x := rfl
@[simp] theorem State.withArb_chip (s : State) (x : ArbUnit) : (s.withArb x).chip = s.chip := rfl
@[simp] theorem State.withArb_bus (s : State) (x : ArbUnit) : (s.withArb x).bus = s.bus := rfl
@[simp] theorem State.withArb_busIn (s : State) (x : ArbUnit) : (s.withArb x).busIn = s.busIn := rfl
@[simp] theorem State.withArb_rsp (s : State) (x : ArbUnit) : (s.withArb x).rsp = s.rsp := rfl
@[simp] theorem State.withArb_out (s : State) (x : ArbUnit) : (s.withArb x).out = s.out := rfl
@[simp] theorem State.withArb_agenda (s : State) (x : ArbUnit) : (s.withArb x).agenda = s.agenda := rfl
@[simp] theorem State.withArb_tick (s : State) (x : ArbUnit) : (s.withArb x).tick = s.tick := rfl

@[simp] theorem State.withChip_cfg (s : State) (x : Chip) : (s.withChip x).cfg = s.cfg := rfl
@[simp] theorem State.withChip_lat (s : State) (x : Chip) : (s.withChip x).lat = s.lat := rfl
@[simp] theorem State.withChip_illegalDue (s : State) (x : Chip) : (s.withChip x).illegalDue = s.illegalDue := rfl
@[simp] theorem State.withChip_eec (s : State) (x : Chip) : (s.withChip x).eec = s.eec := rfl
@[simp] theorem State.withChip_log (s : State) (x : Chip) : (s.withChip x).log = s.log := rfl
@[simp] theorem State.withChip_arb (s : State) (x : Chip) : (s.withChip x).arb = s.arb := rfl
@[simp] theorem State.withChip_chip (s : State) (x : Chip) : (s.withChip x).chip = x := rfl
@[simp] theorem State.withChip_bus (s : State) (x : Chip) : (s.withChip x).bus = s.bus := rfl
@[simp] theorem State.withChip_busIn (s : State) (x : Chip) : (s.withChip x).busIn = s.busIn := rfl
@[simp] theorem State.withChip_rsp (s : State) (x : Chip) : (s.withChip x).rsp = s.rsp := rfl
@[simp] theorem State.withChip_out (s : State) (x : Chip) : (s.withChip x).out = s.out := rfl
@[simp] theorem State.withChip_agenda (s : State) (x : Chip) : (s.withChip x).agenda = s.agenda := rfl
@[simp] theorem State.withChip_tick (s : State) (x : Chip) : (s.withChip x).tick = s.tick := rfl

@[simp] theorem State.withBus_cfg (s : State) (x : BusPort) : (s.withBus x).cfg = s.cfg := rfl
@[simp] theorem State.withBus_lat (s : State) (x : BusPort) : (s.withBus x).lat = s.lat := rfl
@[simp] theorem State.withBus_illegalDue (s : State) (x : BusPort) : (s.withBus x).illegalDue = s.illegalDue := rfl
@[simp] theorem State.withBus_eec (s : State) (x : BusPort) : (s.withBus x).eec = s.eec := rfl
@[simp] theorem State.withBus_log (s : State) (x : BusPort) : (s.withBus x).log = s.log := rfl
@[simp] theorem State.withBus_arb (s : State) (x : BusPort) : (s.withBus x).arb = s.arb := rfl
@[simp] theorem State.withBus_chip (s : State) (x : BusPort) : (s.withBus x).chip = s.chip := rfl
@[simp] theorem State.withBus_bus (s : State) (x : BusPort) : (s.withBus x).bus = x := rfl
@[simp] theorem State.withBus_busIn (s : State) (x : BusPort) : (s.withBus x).busIn = s.busIn := rfl
@[simp] theorem State.withBus_rsp (s : State) (x : BusPort) : (s.withBus x).rsp = s.rsp := rfl
@[simp] theorem State.withBus_out (s : State) (x : BusPort) : (s.withBus x).out = s.out := rfl
@[simp] theorem State.withBus_agenda (s : State) (x : BusPort) : (s.withBus x).agenda = s.agenda := rfl
@[simp] theorem State.withBus_tick (s : State) (x : BusPort) : (s.withBus x).tick = s.tick := rfl

@[simp] theorem State.withBusIn_cfg (s : State) (x : BusDraw) : (s.withBusIn x).cfg = s.cfg := rfl
@[simp] theorem State.withBusIn_lat (s : State) (x : BusDraw) : (s.withBusIn x).lat = s.lat := rfl
@[simp] theorem State.withBusIn_illegalDue (s : State) (x : BusDraw) : (s.withBusIn x).illegalDue = s.illegalDue := rfl
@[simp] theorem State.withBusIn_eec (s : State) (x : BusDraw) : (s.withBusIn x).eec = s.eec := rfl
@[simp] theorem State.withBusIn_log (s : State) (x : BusDraw) : (s.withBusIn x).log = s.log := rfl
@[simp] theorem State.withBusIn_arb (s : State) (x : BusDraw) : (s.withBusIn x).arb = s.arb := rfl
@[simp] theorem State.withBusIn_chip (s : State) (x : BusDraw) : (s.withBusIn x).chip = s.chip := rfl
@[simp] theorem State.withBusIn_bus (s : State) (x : BusDraw) : (s.withBusIn x).bus = s.bus := rfl
@[simp] theorem State.withBusIn_busIn (s : State) (x : BusDraw) : (s.withBusIn x).busIn = x := rfl
@[simp] theorem State.withBusIn_rsp (s : State) (x : BusDraw) : (s.withBusIn x).rsp = s.rsp := rfl
@[simp] theorem State.withBusIn_out (s : State) (x : BusDraw) : (s.withBusIn x).out = s.out := rfl
@[simp] theorem State.withBusIn_agenda (s : State) (x : BusDraw) : (s.withBusIn x).agenda = s.agenda := rfl
@[simp] theorem State.withBusIn_tick (s : State) (x : BusDraw) : (s.withBusIn x).tick = s.tick := rfl

@[simp] theorem State.withRsp_cfg (s : State) (x : RspPort) : (s.withRsp x).cfg = s.cfg := rfl
@[simp] theorem State.withRsp_lat (s : State) (x : RspPort) : (s.withRsp x).lat = s.lat := rfl
@[simp] theorem State.withRsp_illegalDue (s : State) (x : RspPort) : (s.withRsp x).illegalDue = s.illegalDue := rfl
@[simp] theorem State.withRsp_eec (s : State) (x : RspPort) : (s.withRsp x).eec = s.eec := rfl
@[simp] theorem State.withRsp_log (s : State) (x : RspPort) : (s.withRsp x).log = s.log := rfl
@[simp] theorem State.withRsp_arb (s : State) (x : RspPort) : (s.withRsp x).arb = s.arb := rfl
@[simp] theorem State.withRsp_chip (s : State) (x : RspPort) : (s.withRsp x).chip = s.chip := rfl
@[simp] theorem State.withRsp_bus (s : State) (x : RspPort) : (s.withRsp x).bus = s.bus := rfl
@[simp] theorem State.withRsp_busIn (s : State) (x : RspPort) : (s.withRsp x).busIn = s.busIn := rfl
@[simp] theorem State.withRsp_rsp (s : State) (x : RspPort) : (s.withRsp x).rsp = x := rfl
@[simp] theorem State.withRsp_out (s : State) (x : RspPort) : (s.withRsp x).out = s.out := rfl
@[simp] theorem State.withRsp_agenda (s : State) (x : RspPort) : (s.withRsp x).agenda = s.agenda := rfl
@[simp] theorem State.withRsp_tick (s : State) (x : RspPort) : (s.withRsp x).tick = s.tick := rfl

@[simp] theorem State.withOut_cfg (s : State) (x : List Output) : (s.withOut x).cfg = s.cfg := rfl
@[simp] theorem State.withOut_lat (s : State) (x : List Output) : (s.withOut x).lat = s.lat := rfl
@[simp] theorem State.withOut_illegalDue (s : State) (x : List Output) : (s.withOut x).illegalDue = s.illegalDue := rfl
@[simp] theorem State.withOut_eec (s : State) (x : List Output) : (s.withOut x).eec = s.eec := rfl
@[simp] theorem State.withOut_log (s : State) (x : List Output) : (s.withOut x).log = s.log := rfl
@[simp] theorem State.withOut_arb (s : State) (x : List Output) : (s.withOut x).arb = s.arb := rfl
@[simp] theorem State.withOut_chip (s : State) (x : List Output) : (s.withOut x).chip = s.chip := rfl
@[simp] theorem State.withOut_bus (s : State) (x : List Output) : (s.withOut x).bus = s.bus := rfl
@[simp] theorem State.withOut_busIn (s : State) (x : List Output) : (s.withOut x).busIn = s.busIn := rfl
@[simp] theorem State.withOut_rsp (s : State) (x : List Output) : (s.withOut x).rsp = s.rsp := rfl
@[simp] theorem State.withOut_out (s : State) (x : List Output) : (s.withOut x).out = x := rfl
@[simp] theorem State.withOut_agenda (s : State) (x : List Output) : (s.withOut x).agenda = s.agenda := rfl
@[simp] theorem State.withOut_tick (s : State) (x : List Output) : (s.withOut x).tick = s.tick := rfl

@[simp] theorem State.withAgenda_cfg (s : State) (x : List Turn) : (s.withAgenda x).cfg = s.cfg := rfl
@[simp] theorem State.withAgenda_lat (s : State) (x : List Turn) : (s.withAgenda x).lat = s.lat := rfl
@[simp] theorem State.withAgenda_illegalDue (s : State) (x : List Turn) : (s.withAgenda x).illegalDue = s.illegalDue := rfl
@[simp] theorem State.withAgenda_eec (s : State) (x : List Turn) : (s.withAgenda x).eec = s.eec := rfl
@[simp] theorem State.withAgenda_log (s : State) (x : List Turn) : (s.withAgenda x).log = s.log := rfl
@[simp] theorem State.withAgenda_arb (s : State) (x : List Turn) : (s.withAgenda x).arb = s.arb := rfl
@[simp] theorem State.withAgenda_chip (s : State) (x : List Turn) : (s.withAgenda x).chip = s.chip := rfl
@[simp] theorem State.withAgenda_bus (s : State) (x : List Turn) : (s.withAgenda x).bus = s.bus := rfl
@[simp] theorem State.withAgenda_busIn (s : State) (x : List Turn) : (s.withAgenda x).busIn = s.busIn := rfl
@[simp] theorem State.withAgenda_rsp (s : State) (x : List Turn) : (s.withAgenda x).rsp = s.rsp := rfl
@[simp] theorem State.withAgenda_out (s : State) (x : List Turn) : (s.withAgenda x).out = s.out := rfl
@[simp] theorem State.withAgenda_agenda (s : State) (x : List Turn) : (s.withAgenda x).agenda = x := rfl
@[simp] theorem State.withAgenda_tick (s : State) (x : List Turn) : (s.withAgenda x).tick = s.tick := rfl

@[simp] theorem State.withTick_cfg (s : State) (x : Nat) : (s.withTick x).cfg = s.cfg := rfl
@[simp] theorem State.withTick_lat (s : State) (x : Nat) : (s.withTick x).lat = s.lat := rfl
@[simp] theorem State.withTick_illegalDue (s : State) (x : Nat) : (s.withTick x).illegalDue = s.illegalDue := rfl
@[simp] theorem State.withTick_eec (s : State) (x : Nat) : (s.withTick x).eec = s.eec := rfl
@[simp] theorem State.withTick_log (s : State) (x : Nat) : (s.withTick x).log = s.log := rfl
@[simp] theorem State.withTick_arb (s : State) (x : Nat) : (s.withTick x).arb = s.arb := rfl
@[simp] theorem State.withTick_chip (s : State) (x : Nat) : (s.withTick x).chip = s.chip := rfl
@[simp] theorem State.withTick_bus (s : State) (x : Nat) : (s.withTick x).bus = s.bus := rfl
@[simp] theorem State.withTick_busIn (s : State) (x : Nat) : (s.withTick x).busIn = s.busIn := rfl
@[simp] theorem State.withTick_rsp (s : State) (x : Nat) : (s.withTick x).rsp = s.rsp := rfl
@[simp] theorem State.withTick_out (s : State) (x : Nat) : (s.withTick x).out = s.out := rfl
@[simp] theorem State.withTick_agenda (s : State) (x : Nat) : (s.withTick x).agenda = s.agenda := rfl
@[simp] theorem State.withTick_tick (s : State) (x : Nat) : (s.withTick x).tick = x := rfl

@[simp] theorem beginStep_cfg (s : State) :
    (beginStep s).cfg = s.cfg := rfl
@[simp] theorem beginStep_lat (s : State) :
    (beginStep s).lat = s.lat := rfl
@[simp] theorem beginStep_illegalDue (s : State) :
    (beginStep s).illegalDue = s.illegalDue := rfl
@[simp] theorem beginStep_eec (s : State) :
    (beginStep s).eec = s.eec := rfl
@[simp] theorem beginStep_log (s : State) :
    (beginStep s).log = s.log := rfl
@[simp] theorem beginStep_arb (s : State) :
    (beginStep s).arb = s.arb := rfl
@[simp] theorem beginStep_chip (s : State) :
    (beginStep s).chip = s.chip := rfl
@[simp] theorem beginStep_bus (s : State) :
    (beginStep s).bus = s.bus := rfl
@[simp] theorem beginStep_busIn (s : State) :
    (beginStep s).busIn = s.busIn := rfl
@[simp] theorem beginStep_rsp (s : State) :
    (beginStep s).rsp = { valid := false, status := Config.idleStatus s.tick, data := Config.idleData s.tick } := rfl
@[simp] theorem beginStep_out (s : State) :
    (beginStep s).out = [] := rfl
@[simp] theorem beginStep_agenda (s : State) :
    (beginStep s).agenda = s.agenda := rfl
@[simp] theorem beginStep_tick (s : State) :
    (beginStep s).tick = s.tick + 1 := rfl

@[simp] theorem resetCore_cfg (s : State) : (resetCore s).cfg = s.cfg := rfl
@[simp] theorem resetCore_illegalDue (s : State) : (resetCore s).illegalDue = false := rfl
@[simp] theorem resetCore_chip (s : State) : (resetCore s).chip = s.chip := rfl
@[simp] theorem resetCore_log (s : State) : (resetCore s).log = resetLogUnit := rfl
@[simp] theorem resetCore_eec (s : State) : (resetCore s).eec = resetEec := rfl
@[simp] theorem resetCore_arb (s : State) : (resetCore s).arb = resetArb s.cfg := rfl
@[simp] theorem resetCore_bus (s : State) : (resetCore s).bus = resetBus := rfl
@[simp] theorem resetCore_lat (s : State) : (resetCore s).lat = resetLatches := rfl
@[simp] theorem resetCore_rsp (s : State) : (resetCore s).rsp = resetRsp := rfl
@[simp] theorem resetCore_out (s : State) : (resetCore s).out = [] := rfl
@[simp] theorem resetCore_agenda (s : State) : (resetCore s).agenda = s.agenda := rfl
@[simp] theorem resetCore_tick (s : State) : (resetCore s).tick = s.tick := rfl

end Sys2Proof.Machine
end

