-- ==== Sys2Proof/Laws/Sequencer.lean ====
section
/-! SUPPORT. What the sequencer's operations leave alone, and what each can answer. -/

namespace Sys2Proof.Machine

theorem initialised_iff (c : BitVec 16) : initialised c = true ↔ headerSize ≤ c.toNat :=
  decide_eq_true_iff

theorem not_initialised_iff (c : BitVec 16) : initialised c = false ↔ c.toNat < headerSize := by
  rw [← Bool.not_eq_true, initialised_iff, Nat.not_le]

/-- `t` differs from `s` at most in the EEC and LOG registers, the waiting reply and the response port. -/
structure SequencerFrame (s t : State) : Prop where
  cfg    : t.cfg = s.cfg
  lat    : t.lat = s.lat
  illegalDue : t.illegalDue = s.illegalDue
  arb    : t.arb = s.arb
  chip   : t.chip = s.chip
  frame  : t.bus.frame = s.bus.frame
  busIn  : t.busIn = s.busIn
  out    : t.out = s.out
  agenda : t.agenda = s.agenda
  tick   : t.tick = s.tick

theorem SequencerFrame.refl (s : State) : SequencerFrame s s :=
  ⟨rfl, rfl, rfl, rfl, rfl, rfl, rfl, rfl, rfl, rfl⟩

theorem SequencerFrame.trans {s t u : State} (h : SequencerFrame s t) (k : SequencerFrame t u) :
    SequencerFrame s u :=
  ⟨k.cfg.trans h.cfg, k.lat.trans h.lat, k.illegalDue.trans h.illegalDue, k.arb.trans h.arb, k.chip.trans h.chip, k.frame.trans h.frame,
   k.busIn.trans h.busIn, k.out.trans h.out, k.agenda.trans h.agenda, k.tick.trans h.tick⟩

theorem withEec_frame (s : State) (x : EecUnit) : SequencerFrame s (s.withEec x) :=
  ⟨rfl, rfl, rfl, rfl, rfl, rfl, rfl, rfl, rfl, rfl⟩

theorem withLog_frame (s : State) (x : LogUnit) : SequencerFrame s (s.withLog x) :=
  ⟨rfl, rfl, rfl, rfl, rfl, rfl, rfl, rfl, rfl, rfl⟩

theorem respond_frame (st : Status) (d : BitVec 64) (s : State) : SequencerFrame s (respond st d s) :=
  ⟨rfl, rfl, rfl, rfl, rfl, rfl, rfl, rfl, rfl, rfl⟩

theorem endLog_frame (st : Status) (d : BitVec 64) (s : State) : SequencerFrame s (endLog st d s) :=
  ⟨rfl, rfl, rfl, rfl, rfl, rfl, rfl, rfl, rfl, rfl⟩

theorem gotoPhase_frame (p : EecState) (s : State) : SequencerFrame s (gotoPhase p s) :=
  ⟨rfl, rfl, rfl, rfl, rfl, rfl, rfl, rfl, rfl, rfl⟩

theorem enterPoll_frame (s : State) : SequencerFrame s (enterPoll s) :=
  ⟨rfl, rfl, rfl, rfl, rfl, rfl, rfl, rfl, rfl, rfl⟩

theorem gotoLog_frame (p : LogState) (s : State) : SequencerFrame s (gotoLog p s) :=
  ⟨rfl, rfl, rfl, rfl, rfl, rfl, rfl, rfl, rfl, rfl⟩

theorem logReceive_frame (st : Status) (d : BitVec 64) (s : State) :
    SequencerFrame s (logReceive st d s) := by
  unfold logReceive
  split
  · split <;> exact ⟨rfl, rfl, rfl, rfl, rfl, rfl, rfl, rfl, rfl, rfl⟩
  · exact endLog_frame _ _ _

theorem endDriver_frame (st : Status) (d : BitVec 64) (s : State) :
    SequencerFrame s (endDriver st d s) := by
  unfold endDriver
  have h : SequencerFrame s ((s.withEec { s.eec with state := .idle }).withBus { s.bus with reply := none }) :=
    ⟨rfl, rfl, rfl, rfl, rfl, rfl, rfl, rfl, rfl, rfl⟩
  dsimp only
  split
  · exact h.trans (respond_frame _ _ _)
  · exact h.trans (logReceive_frame _ _ _)

/-- How an EEC operation starts: a page write that does not fit or is empty ends, an operation that polls enters
the poll, a bare command goes to its exchange (rule R152). -/
theorem startDriver_cases (op : Instr) (s : State) :
    startDriver op s = endDriver .sizeExceedsPage 0 s ∨ startDriver op s = endDriver .ok 0 s ∨
    startDriver op s = enterPoll s ∨ startDriver op s = s.withEec { s.eec with state := .xfer } ∨
    startDriver op s = s := by
  cases op <;> simp only [startDriver, true_or, or_true]
  split
  · exact .inl rfl
  · split
    · exact .inr (.inl rfl)
    · exact .inr (.inr (.inl rfl))

theorem startDriver_frame (op : Instr) (s : State) : SequencerFrame s (startDriver op s) := by
  rcases startDriver_cases op s with h | h | h | h | h <;> rw [h]
  exacts [endDriver_frame _ _ _, endDriver_frame _ _ _, enterPoll_frame _, withEec_frame _ _,
    SequencerFrame.refl _]

theorem pollBusy_frame (s : State) : SequencerFrame s (pollBusy s) := by
  unfold pollBusy
  split
  · exact gotoPhase_frame _ _
  · dsimp only
    split
    · exact (withEec_frame s _).trans (endDriver_frame _ _ _)
    · exact (withEec_frame s _).trans (gotoPhase_frame _ _)

theorem pollDone_frame (s : State) : SequencerFrame s (pollDone s) := by
  unfold pollDone
  split
  · exact gotoPhase_frame _ _
  · exact SequencerFrame.refl _

theorem driverStep_frame (s : State) : SequencerFrame s (driverStep s) := by
  unfold driverStep
  split
  · exact SequencerFrame.refl _
  · exact gotoPhase_frame _ _
  · split
    · exact pollBusy_frame _
    · exact pollDone_frame _
  · exact gotoPhase_frame _ _
  all_goals first | exact endDriver_frame _ _ _ | exact SequencerFrame.refl _

theorem logStep_frame (s : State) : SequencerFrame s (logStep s) := by
  unfold logStep
  split
  · exact startDriver_frame _ _
  · split
    · exact (withLog_frame s _).trans (endLog_frame _ _ _)
    all_goals first | exact endLog_frame _ _ _ | exact SequencerFrame.refl _

theorem continueOp_frame (s : State) : SequencerFrame s (continueOp s) := by
  unfold continueOp
  split
  · exact driverStep_frame _
  · split
    · exact logStep_frame _
    · exact SequencerFrame.refl _

/-- The operation in progress is neither EEC's nor LOG's when the request port is ready. -/
theorem reqReady_iff (s : State) : reqReady s = true ↔ s.eec.state = .idle ∧ s.log.state = .idle := by
  simp [reqReady]

/-- The next step of the operation in progress is EEC's while EEC is busy, else LOG's. -/
theorem continueOp_cases (s : State) :
    (s.eec.state ≠ .idle ∧ continueOp s = driverStep s) ∨
    (s.eec.state = .idle ∧ s.log.state ≠ .idle ∧ continueOp s = logStep s) ∨
    (s.eec.state = .idle ∧ s.log.state = .idle ∧ continueOp s = s) := by
  unfold continueOp
  by_cases h : s.eec.state = .idle <;> by_cases k : s.log.state = .idle <;> simp [h, k]

/-- A request's step accepts, continues, or changes nothing. -/
theorem requestStep_cases (op : OpCode) (latch : Request → Request) (first : State → State) (s : State) :
    (reqReady s = true ∧
      requestStep op latch first s = first (s.withLat { latch s.lat with op := op })) ∨
    (reqReady s = false ∧ s.lat.op = op ∧ requestStep op latch first s = continueOp s) ∨
    (reqReady s = false ∧ s.lat.op ≠ op ∧ requestStep op latch first s = s) := by
  unfold requestStep
  by_cases h : reqReady s = true
  · simp [h]
  · by_cases k : s.lat.op = op <;> simp [h, k]

/-- A reserved code's step with the port ready answers the acceptance of the step before, or accepts. -/
theorem requestIllegal_cases (op : OpCode) (s : State) (h : reqReady s = true) :
    (s.illegalDue = true ∧ s.lat.op = op ∧
      requestIllegal op s = respond .illegalOp 0 (s.withIllegalDue false)) ∨
    requestIllegal op s = (s.withLat { s.lat with op := op }).withIllegalDue true := by
  unfold requestIllegal
  rw [if_pos h]
  split
  · exact .inl ⟨‹_ ∧ _›.1, ‹_ ∧ _›.2, rfl⟩
  · exact .inr rfl

/-- While the request port is busy, the instruction the latches hold is the next step of the operation in
progress. -/
theorem requestStep_busy (latch : Request → Request) (first : State → State) (s : State)
    (h : reqReady s = false) : requestStep s.lat.op latch first s = continueOp s := by
  simp [requestStep, h]

/-- A response ends EEC's operation; nothing else of LOG, cursor or chip moves when no LOG operation called it. -/
theorem endDriver_alone (st : Status) (d : BitVec 64) (s : State) (h : s.log.state = .idle) :
    endDriver st d s =
      respond st d ((s.withEec { s.eec with state := .idle }).withBus { s.bus with reply := none }) := by
  simp [endDriver, h]

theorem endDriver_called (st : Status) (d : BitVec 64) (s : State) (h : s.log.state ≠ .idle) :
    endDriver st d s =
      logReceive st d ((s.withEec { s.eec with state := .idle }).withBus { s.bus with reply := none }) := by
  simp [endDriver, h]

/-! ## The fields after the shared operations -/

@[simp] theorem gotoPhase_cfg (p : EecState) (s : State) :
    (gotoPhase p s).cfg = s.cfg := rfl
@[simp] theorem gotoPhase_lat (p : EecState) (s : State) :
    (gotoPhase p s).lat = s.lat := rfl
@[simp] theorem gotoPhase_illegalDue (p : EecState) (s : State) :
    (gotoPhase p s).illegalDue = s.illegalDue := rfl
@[simp] theorem gotoPhase_eec (p : EecState) (s : State) :
    (gotoPhase p s).eec = { s.eec with state := p } := rfl
@[simp] theorem gotoPhase_log (p : EecState) (s : State) :
    (gotoPhase p s).log = s.log := rfl
@[simp] theorem gotoPhase_arb (p : EecState) (s : State) :
    (gotoPhase p s).arb = s.arb := rfl
@[simp] theorem gotoPhase_chip (p : EecState) (s : State) :
    (gotoPhase p s).chip = s.chip := rfl
@[simp] theorem gotoPhase_bus (p : EecState) (s : State) :
    (gotoPhase p s).bus = { s.bus with reply := none } := rfl
@[simp] theorem gotoPhase_busIn (p : EecState) (s : State) :
    (gotoPhase p s).busIn = s.busIn := rfl
@[simp] theorem gotoPhase_rsp (p : EecState) (s : State) :
    (gotoPhase p s).rsp = s.rsp := rfl
@[simp] theorem gotoPhase_out (p : EecState) (s : State) :
    (gotoPhase p s).out = s.out := rfl
@[simp] theorem gotoPhase_agenda (p : EecState) (s : State) :
    (gotoPhase p s).agenda = s.agenda := rfl
@[simp] theorem gotoPhase_tick (p : EecState) (s : State) :
    (gotoPhase p s).tick = s.tick := rfl

@[simp] theorem enterPoll_cfg (s : State) :
    (enterPoll s).cfg = s.cfg := rfl
@[simp] theorem enterPoll_lat (s : State) :
    (enterPoll s).lat = s.lat := rfl
@[simp] theorem enterPoll_illegalDue (s : State) :
    (enterPoll s).illegalDue = s.illegalDue := rfl
@[simp] theorem enterPoll_eec (s : State) :
    (enterPoll s).eec = { state := .poll, pollCount := 0 } := rfl
@[simp] theorem enterPoll_log (s : State) :
    (enterPoll s).log = s.log := rfl
@[simp] theorem enterPoll_arb (s : State) :
    (enterPoll s).arb = s.arb := rfl
@[simp] theorem enterPoll_chip (s : State) :
    (enterPoll s).chip = s.chip := rfl
@[simp] theorem enterPoll_bus (s : State) :
    (enterPoll s).bus = s.bus := rfl
@[simp] theorem enterPoll_busIn (s : State) :
    (enterPoll s).busIn = s.busIn := rfl
@[simp] theorem enterPoll_rsp (s : State) :
    (enterPoll s).rsp = s.rsp := rfl
@[simp] theorem enterPoll_out (s : State) :
    (enterPoll s).out = s.out := rfl
@[simp] theorem enterPoll_agenda (s : State) :
    (enterPoll s).agenda = s.agenda := rfl
@[simp] theorem enterPoll_tick (s : State) :
    (enterPoll s).tick = s.tick := rfl

@[simp] theorem respond_cfg (st : Status) (d : BitVec 64) (s : State) :
    (respond st d s).cfg = s.cfg := rfl
@[simp] theorem respond_lat (st : Status) (d : BitVec 64) (s : State) :
    (respond st d s).lat = s.lat := rfl
@[simp] theorem respond_illegalDue (st : Status) (d : BitVec 64) (s : State) :
    (respond st d s).illegalDue = s.illegalDue := rfl
@[simp] theorem respond_eec (st : Status) (d : BitVec 64) (s : State) :
    (respond st d s).eec = s.eec := rfl
@[simp] theorem respond_log (st : Status) (d : BitVec 64) (s : State) :
    (respond st d s).log = s.log := rfl
@[simp] theorem respond_arb (st : Status) (d : BitVec 64) (s : State) :
    (respond st d s).arb = s.arb := rfl
@[simp] theorem respond_chip (st : Status) (d : BitVec 64) (s : State) :
    (respond st d s).chip = s.chip := rfl
@[simp] theorem respond_bus (st : Status) (d : BitVec 64) (s : State) :
    (respond st d s).bus = s.bus := rfl
@[simp] theorem respond_busIn (st : Status) (d : BitVec 64) (s : State) :
    (respond st d s).busIn = s.busIn := rfl
@[simp] theorem respond_out (st : Status) (d : BitVec 64) (s : State) :
    (respond st d s).out = s.out := rfl
@[simp] theorem respond_agenda (st : Status) (d : BitVec 64) (s : State) :
    (respond st d s).agenda = s.agenda := rfl
@[simp] theorem respond_tick (st : Status) (d : BitVec 64) (s : State) :
    (respond st d s).tick = s.tick := rfl

@[simp] theorem endLog_cfg (st : Status) (d : BitVec 64) (s : State) :
    (endLog st d s).cfg = s.cfg := rfl
@[simp] theorem endLog_lat (st : Status) (d : BitVec 64) (s : State) :
    (endLog st d s).lat = s.lat := rfl
@[simp] theorem endLog_illegalDue (st : Status) (d : BitVec 64) (s : State) :
    (endLog st d s).illegalDue = s.illegalDue := rfl
@[simp] theorem endLog_eec (st : Status) (d : BitVec 64) (s : State) :
    (endLog st d s).eec = s.eec := rfl
@[simp] theorem endLog_log (st : Status) (d : BitVec 64) (s : State) :
    (endLog st d s).log = { s.log with state := .idle } := rfl
@[simp] theorem endLog_arb (st : Status) (d : BitVec 64) (s : State) :
    (endLog st d s).arb = s.arb := rfl
@[simp] theorem endLog_chip (st : Status) (d : BitVec 64) (s : State) :
    (endLog st d s).chip = s.chip := rfl
@[simp] theorem endLog_bus (st : Status) (d : BitVec 64) (s : State) :
    (endLog st d s).bus = s.bus := rfl
@[simp] theorem endLog_busIn (st : Status) (d : BitVec 64) (s : State) :
    (endLog st d s).busIn = s.busIn := rfl
@[simp] theorem endLog_out (st : Status) (d : BitVec 64) (s : State) :
    (endLog st d s).out = s.out := rfl
@[simp] theorem endLog_agenda (st : Status) (d : BitVec 64) (s : State) :
    (endLog st d s).agenda = s.agenda := rfl
@[simp] theorem endLog_tick (st : Status) (d : BitVec 64) (s : State) :
    (endLog st d s).tick = s.tick := rfl

/-- Bit `i` after byte `k` is inserted. -/
theorem insertTimestampByte_getLsbD (acc : BitVec 64) (k : Nat) (b : Byte) (i : Nat) (hi : i < 64) :
    (insertTimestampByte acc k b).getLsbD i =
      if 8 * k ≤ i ∧ i < 8 * k + 8 then b.getLsbD (i - 8 * k) else acc.getLsbD i := by
  have hff : ∀ j, (0xFF#64).getLsbD j = decide (j < 8) := by
    intro j
    by_cases hj : j < 64
    · revert j; decide
    · rw [BitVec.getLsbD_of_ge _ _ (by omega)]; simp; omega
  unfold insertTimestampByte
  simp only [BitVec.getLsbD_or, BitVec.getLsbD_and, BitVec.getLsbD_not, BitVec.getLsbD_shiftLeft,
    BitVec.getLsbD_setWidth, hff, hi, decide_true, Bool.true_and]
  by_cases h1 : i < 8 * k
  · simp [h1]
  · by_cases h2 : i < 8 * k + 8
    · simp [h1, show i - 8 * k < 8 by omega, show 8 * k ≤ i by omega, h2, show i - 8 * k < 64 by omega]
    · have h3 : b.getLsbD (i - 8 * k) = false := BitVec.getLsbD_of_ge _ _ (by omega)
      simp [h1, h2, h3, show ¬ (i - 8 * k < 8) by omega]

/-- Byte `j` after byte `k` is inserted. -/
theorem insertTimestampByte_byte (acc : BitVec 64) (k j : Nat) (hk : k < 8) (hj : j < 8) (b : Byte) :
    (insertTimestampByte acc k b).extractLsb' (8 * j) 8 = if j = k then b else acc.extractLsb' (8 * j) 8 := by
  apply BitVec.eq_of_getLsbD_eq
  intro i hi
  rw [BitVec.getLsbD_extractLsb', insertTimestampByte_getLsbD acc k b _ (by omega)]
  simp only [hi, decide_true, Bool.true_and]
  by_cases h : j = k
  · subst h; rw [if_pos (by omega), if_pos rfl]; congr 1; omega
  · rw [if_neg (by omega), if_neg h, BitVec.getLsbD_extractLsb']; simp [hi]

end Sys2Proof.Machine
end

