-- ==== Sys2Proof/Laws/Exec.lean ====
section
/-! SUPPORT. What the instructions of each port can touch. -/

namespace Sys2Proof.Machine

/-- Every instruction answers a next state. -/
theorem exec_next (i : Instr) (s : State) : ∃ t, exec i s = .next t := by
  cases i <;> exact ⟨_, rfl⟩

/-- `t` differs from `s` at most in the ARB registers and in what this step drives. -/
structure ArbiterFrame (s t : State) : Prop where
  cfg    : t.cfg = s.cfg
  lat    : t.lat = s.lat
  illegalDue : t.illegalDue = s.illegalDue
  eec    : t.eec = s.eec
  log    : t.log = s.log
  chip   : t.chip = s.chip
  bus    : t.bus = s.bus
  busIn  : t.busIn = s.busIn
  rsp    : t.rsp = s.rsp
  agenda : t.agenda = s.agenda
  tick   : t.tick = s.tick

theorem ArbiterFrame.refl (s : State) : ArbiterFrame s s :=
  ⟨rfl, rfl, rfl, rfl, rfl, rfl, rfl, rfl, rfl, rfl, rfl⟩

theorem ArbiterFrame.trans {s t u : State} (h : ArbiterFrame s t) (k : ArbiterFrame t u) :
    ArbiterFrame s u :=
  ⟨k.cfg.trans h.cfg, k.lat.trans h.lat, k.illegalDue.trans h.illegalDue, k.eec.trans h.eec, k.log.trans h.log, k.chip.trans h.chip,
   k.bus.trans h.bus, k.busIn.trans h.busIn, k.rsp.trans h.rsp, k.agenda.trans h.agenda,
   k.tick.trans h.tick⟩

/-- The instructions of the event, arbiter and worker ports. -/
def isArbInstr : Instr → Bool
  | .evTimer | .evManualSample | .evManualWater _ | .evSetAuto _ | .evDumpHistory => true
  | .wake | .idleTimeoutWake | .dSample | .dAutoen | .dAutowater | .dManwater => true
  | .dHistory | .historyWaitEnd | .doneSensor | .donePump | .doneHistory => true
  | .read _ | .write _ _ | .wrdi | .rdsr | .wren | .readStatus | .writeEnable | .writeDisable |
    .readByte _ | .writeByte _ _ | .writePage _ _ _ | .resetLog _ | .appendReading _ | .readReading _ |
    .readLastReading | .readHeaderTimestamp | .readingTimestamp _ | .decideWatering _ | .reserved6 |
    .reserved7 | .reserved15 => false

theorem withArb_frame (s : State) (x : ArbUnit) : ArbiterFrame s (s.withArb x) :=
  ⟨rfl, rfl, rfl, rfl, rfl, rfl, rfl, rfl, rfl, rfl, rfl⟩

theorem emit_frame (o : Output) (s : State) : ArbiterFrame s (emit o s) :=
  ⟨rfl, rfl, rfl, rfl, rfl, rfl, rfl, rfl, rfl, rfl, rfl⟩

theorem gotoArb_frame (n : ArbState) (s : State) : ArbiterFrame s (gotoArb n s) := withArb_frame _ _

theorem clearBits_frame (b : Mask) (s : State) : ArbiterFrame s (clearBits b s) := withArb_frame _ _

theorem raiseEvent_frame (b : Mask) (s : State) : ArbiterFrame s (raiseEvent b s) := withArb_frame _ _

theorem startSensor_frame (k : Kind) (s : State) : ArbiterFrame s (startSensor k s) := by
  unfold startSensor
  split
  · exact .refl _
  · exact (withArb_frame s _).trans (emit_frame _ _)

theorem startPump_frame (k : Kind) (d : Byte) (s : State) : ArbiterFrame s (startPump k d s) := by
  unfold startPump
  split
  · exact .refl _
  · exact (withArb_frame s _).trans (emit_frame _ _)

theorem startHistory_frame (s : State) : ArbiterFrame s (startHistory s) := by
  unfold startHistory
  split
  · exact .refl _
  · exact (withArb_frame s _).trans (emit_frame _ _)

theorem cancelAutoPump_frame (s : State) : ArbiterFrame s (cancelAutoPump s) := by
  unfold cancelAutoPump
  split
  · exact ((emit_frame _ s).trans (emit_frame _ _)).trans (withArb_frame _ _)
  · exact .refl _

theorem arbiterStep_frame (p : ArbState) (body : State → State) (s : State)
    (h : ArbiterFrame s (body s)) : ArbiterFrame s (arbiterStep p body s) := by
  unfold arbiterStep
  split
  · exact h
  · exact .refl _

theorem execWake_frame (s t : State) (h : execWake s = .next t) : ArbiterFrame s t := by
  cases h
  refine arbiterStep_frame _ _ _ ?_
  split
  · exact withArb_frame _ _
  · exact .refl _

theorem execIdleTimeoutWake_frame (s t : State) (h : execIdleTimeoutWake s = .next t) :
    ArbiterFrame s t := by
  cases h
  refine arbiterStep_frame _ _ _ ?_
  split
  · exact gotoArb_frame _ _
  · exact .refl _

theorem execDSample_frame (s t : State) (h : execDSample s = .next t) : ArbiterFrame s t := by
  cases h
  refine arbiterStep_frame _ _ _ ?_
  split
  · exact ((clearBits_frame _ s).trans (startSensor_frame _ _)).trans (gotoArb_frame _ _)
  · exact gotoArb_frame _ _

theorem execDAutoen_frame (s t : State) (h : execDAutoen s = .next t) : ArbiterFrame s t := by
  cases h
  refine arbiterStep_frame _ _ _ ?_
  split
  · exact ((withArb_frame s _).trans (clearBits_frame _ _)).trans (gotoArb_frame _ _)
  · exact gotoArb_frame _ _

theorem execDAutowater_frame (s t : State) (h : execDAutowater s = .next t) : ArbiterFrame s t := by
  cases h
  refine arbiterStep_frame _ _ _ ?_
  split
  · split
    · exact ((clearBits_frame _ s).trans (startPump_frame _ _ _)).trans (gotoArb_frame _ _)
    · exact (clearBits_frame _ s).trans (gotoArb_frame _ _)
  · exact gotoArb_frame _ _

theorem execDManwater_frame (s t : State) (h : execDManwater s = .next t) : ArbiterFrame s t := by
  cases h
  refine arbiterStep_frame _ _ _ ?_
  split
  · exact (((clearBits_frame _ s).trans (cancelAutoPump_frame _)).trans (startPump_frame _ _ _)).trans
      (gotoArb_frame _ _)
  · exact gotoArb_frame _ _

theorem execDHistory_frame (s t : State) (h : execDHistory s = .next t) : ArbiterFrame s t := by
  cases h
  refine arbiterStep_frame _ _ _ ?_
  split
  · exact ((clearBits_frame _ s).trans (startHistory_frame _)).trans (gotoArb_frame _ _)
  · exact gotoArb_frame _ _

theorem execHistoryWaitEnd_frame (s t : State) (h : execHistoryWaitEnd s = .next t) :
    ArbiterFrame s t := by
  cases h
  refine arbiterStep_frame _ _ _ ?_
  split
  · exact .refl _
  · exact gotoArb_frame _ _

/-- They touch nothing but the ARB registers and the outputs (rules R210, R218). -/
theorem exec_arb_frame (i : Instr) (s t : State) (hi : isArbInstr i = true) (h : exec i s = .next t) :
    ArbiterFrame s t := by
  cases i with
  | evTimer | evManualSample | evDumpHistory => cases h; exact raiseEvent_frame _ _
  | evManualWater d => cases h; exact (withArb_frame s _).trans (raiseEvent_frame _ _)
  | evSetAuto v => cases h; exact (withArb_frame s _).trans (raiseEvent_frame _ _)
  | wake => exact execWake_frame s t h
  | idleTimeoutWake => exact execIdleTimeoutWake_frame s t h
  | dSample => exact execDSample_frame s t h
  | dAutoen => exact execDAutoen_frame s t h
  | dAutowater => exact execDAutowater_frame s t h
  | dManwater => exact execDManwater_frame s t h
  | dHistory => exact execDHistory_frame s t h
  | historyWaitEnd => exact execHistoryWaitEnd_frame s t h
  | doneSensor | donePump | doneHistory => cases h; exact withArb_frame _ _
  | read | write | wrdi | rdsr | wren | readStatus | writeEnable | writeDisable | readByte | writeByte
  | writePage | resetLog | appendReading | readReading | readLastReading | readHeaderTimestamp
  | readingTimestamp | decideWatering | reserved6 | reserved7 | reserved15 =>
    simp [isArbInstr] at hi

theorem execAll_nil (s : State) : execAll [] s = .next s := rfl

theorem execAll_cons (i : Instr) (is : List Instr) (s t : State) (h : exec i s = .next t) :
    execAll (i :: is) s = execAll is t := by
  simp [execAll, h]

/-- Instructions run together answer a next state. -/
theorem execAll_next (is : List Instr) (s : State) : ∃ t, execAll is s = .next t := by
  induction is generalizing s with
  | nil => exact ⟨s, rfl⟩
  | cons i is ih =>
    obtain ⟨t, ht⟩ := exec_next i s
    obtain ⟨u, hu⟩ := ih t
    exact ⟨u, by rw [execAll_cons i is s t ht, hu]⟩

theorem execAll_arb_frame (is : List Instr) (s t : State) (hi : ∀ i ∈ is, isArbInstr i = true)
    (h : execAll is s = .next t) : ArbiterFrame s t := by
  induction is generalizing s with
  | nil =>
    simp only [execAll, Host.Outcome.next.injEq] at h
    exact h ▸ ArbiterFrame.refl s
  | cons i is ih =>
    obtain ⟨u, hu⟩ := exec_next i s
    rw [execAll_cons i is s u hu] at h
    exact (exec_arb_frame i s u (hi i (by simp)) hu).trans
      (ih u (fun j hj => hi j (by simp [hj])) h)

theorem decodeEvents_arb (e : EventSignals) : ∀ i ∈ decodeEvents e, isArbInstr i = true := by
  intro i hi
  simp only [decodeEvents, List.mem_append] at hi
  rcases hi with ((((h | h) | h) | h) | h) <;> split at h <;> simp_all [isArbInstr]

theorem decodeDone_arb (d : DoneSignals) : ∀ i ∈ decodeDone d, isArbInstr i = true := by
  intro i hi
  simp only [decodeDone, List.mem_append] at hi
  rcases hi with ((h | h) | h) <;> split at h <;> simp_all [isArbInstr]

theorem decodeArbiter_arb (st : ArbState) (w : Bool) : isArbInstr (decodeArbiter st w) = true := by
  cases st <;> cases w <;> rfl

/-- The instruction of a busy request port, run from the latches, is the next step of the operation in
progress, or nothing for the operations that end at once. -/
theorem exec_latched_busy (s : State) (h : reqReady s = false) :
    exec (decodeRequest s.lat) s = .next (continueOp s) ∨ exec (decodeRequest s.lat) s = .next s := by
  unfold decodeRequest
  split <;> rename_i hop <;>
    simp [exec, execReadStatus, execWriteEnable, execWriteDisable, execReadByte, execWriteByte, execWritePage,
      execReserved6, execReserved7, execReserved15, execResetLog, execAppendReading, execReadReading,
      execReadLastReading, execReadHeaderTimestamp, execReadingTimestamp, execDecideWatering, requestStep,
      requestAtOnce, requestIllegal, h, hop]

end Sys2Proof.Machine
end

