-- ==== Sys2Proof/Laws/Arbiter.lean ====
section
/-! SUPPORT. What the arbiter's shared operations do, field by field, and when its steps are enabled. -/

namespace Sys2Proof.Machine

/-- In the state that selects it, an arbiter step runs. -/
theorem arbiterStep_here (p : ArbState) (body : State → State) (s : State) (h : s.arb.state = p) :
    arbiterStep p body s = body s := by
  simp [arbiterStep, h]

/-- In any other state it is not enabled. -/
theorem arbiterStep_elsewhere (p : ArbState) (body : State → State) (s : State) (h : s.arb.state ≠ p) :
    arbiterStep p body s = s := by
  simp [arbiterStep, h]

@[simp] theorem gotoArb_state (n : ArbState) (s : State) : (gotoArb n s).arb.state = n := rfl
@[simp] theorem gotoArb_mask (n : ArbState) (s : State) : (gotoArb n s).arb.mask = s.arb.mask := rfl
@[simp] theorem gotoArb_liveSensor (n : ArbState) (s : State) :
    (gotoArb n s).arb.liveSensor = s.arb.liveSensor := rfl
@[simp] theorem gotoArb_livePump (n : ArbState) (s : State) :
    (gotoArb n s).arb.livePump = s.arb.livePump := rfl
@[simp] theorem gotoArb_liveHistory (n : ArbState) (s : State) :
    (gotoArb n s).arb.liveHistory = s.arb.liveHistory := rfl
@[simp] theorem gotoArb_wakePending (n : ArbState) (s : State) :
    (gotoArb n s).arb.wakePending = s.arb.wakePending := rfl
@[simp] theorem gotoArb_pumpKind (n : ArbState) (s : State) :
    (gotoArb n s).arb.pumpKind = s.arb.pumpKind := rfl
@[simp] theorem gotoArb_autoReq (n : ArbState) (s : State) :
    (gotoArb n s).arb.autoReq = s.arb.autoReq := rfl
@[simp] theorem gotoArb_manDuration (n : ArbState) (s : State) :
    (gotoArb n s).arb.manDuration = s.arb.manDuration := rfl
@[simp] theorem gotoArb_autoWaterEnabled (n : ArbState) (s : State) :
    (gotoArb n s).arb.autoWaterEnabled = s.arb.autoWaterEnabled := rfl
@[simp] theorem gotoArb_out (n : ArbState) (s : State) : (gotoArb n s).out = s.out := rfl

@[simp] theorem clearBits_state (b : Mask) (s : State) : (clearBits b s).arb.state = s.arb.state := rfl
@[simp] theorem clearBits_mask (b : Mask) (s : State) :
    (clearBits b s).arb.mask = maskClear s.arb.mask b := rfl
@[simp] theorem clearBits_liveSensor (b : Mask) (s : State) :
    (clearBits b s).arb.liveSensor = s.arb.liveSensor := rfl
@[simp] theorem clearBits_livePump (b : Mask) (s : State) :
    (clearBits b s).arb.livePump = s.arb.livePump := rfl
@[simp] theorem clearBits_pumpKind (b : Mask) (s : State) :
    (clearBits b s).arb.pumpKind = s.arb.pumpKind := rfl
@[simp] theorem clearBits_liveHistory (b : Mask) (s : State) :
    (clearBits b s).arb.liveHistory = s.arb.liveHistory := rfl
@[simp] theorem clearBits_wakePending (b : Mask) (s : State) :
    (clearBits b s).arb.wakePending = s.arb.wakePending := rfl
@[simp] theorem clearBits_autoReq (b : Mask) (s : State) :
    (clearBits b s).arb.autoReq = s.arb.autoReq := rfl
@[simp] theorem clearBits_manDuration (b : Mask) (s : State) :
    (clearBits b s).arb.manDuration = s.arb.manDuration := rfl
@[simp] theorem clearBits_autoWaterEnabled (b : Mask) (s : State) :
    (clearBits b s).arb.autoWaterEnabled = s.arb.autoWaterEnabled := rfl
@[simp] theorem clearBits_out (b : Mask) (s : State) : (clearBits b s).out = s.out := rfl

@[simp] theorem emit_arb (o : Output) (s : State) : (emit o s).arb = s.arb := rfl
@[simp] theorem emit_out (o : Output) (s : State) : (emit o s).out = s.out ++ [o] := rfl

@[simp] theorem startSensor_state (k : Kind) (s : State) :
    (startSensor k s).arb.state = s.arb.state := by
  unfold startSensor; split <;> rfl
@[simp] theorem startSensor_mask (k : Kind) (s : State) :
    (startSensor k s).arb.mask = s.arb.mask := by
  unfold startSensor; split <;> rfl
@[simp] theorem startSensor_liveHistory (k : Kind) (s : State) :
    (startSensor k s).arb.liveHistory = s.arb.liveHistory := by
  unfold startSensor; split <;> rfl

@[simp] theorem startPump_state (k : Kind) (d : Byte) (s : State) :
    (startPump k d s).arb.state = s.arb.state := by
  unfold startPump; split <;> rfl
@[simp] theorem startPump_mask (k : Kind) (d : Byte) (s : State) :
    (startPump k d s).arb.mask = s.arb.mask := by
  unfold startPump; split <;> rfl
@[simp] theorem startPump_liveHistory (k : Kind) (d : Byte) (s : State) :
    (startPump k d s).arb.liveHistory = s.arb.liveHistory := by
  unfold startPump; split <;> rfl

@[simp] theorem startHistory_state (s : State) : (startHistory s).arb.state = s.arb.state := by
  unfold startHistory; split <;> rfl
@[simp] theorem startHistory_mask (s : State) : (startHistory s).arb.mask = s.arb.mask := by
  unfold startHistory; split <;> rfl
/-- After its dispatch the history worker is live, started now or before. -/
@[simp] theorem startHistory_liveHistory (s : State) : (startHistory s).arb.liveHistory = true := by
  unfold startHistory; split <;> simp_all

@[simp] theorem cancelAutoPump_state (s : State) : (cancelAutoPump s).arb.state = s.arb.state := by
  unfold cancelAutoPump; split <;> rfl
@[simp] theorem cancelAutoPump_mask (s : State) : (cancelAutoPump s).arb.mask = s.arb.mask := by
  unfold cancelAutoPump; split <;> rfl
@[simp] theorem cancelAutoPump_liveHistory (s : State) :
    (cancelAutoPump s).arb.liveHistory = s.arb.liveHistory := by
  unfold cancelAutoPump; split <;> rfl

/-! The tests of the mask, as bits (rules R47, R122). -/

theorem maskHas_sample (m : Mask) :
    maskHas m (autoSampleBit ||| manualSampleBit) = (m.getLsbD 0 || m.getLsbD 1) := by revert m; decide
theorem maskHas_autoSample (m : Mask) : maskHas m autoSampleBit = m.getLsbD 0 := by revert m; decide
theorem maskHas_autoWater (m : Mask) : maskHas m autoWaterBit = m.getLsbD 2 := by revert m; decide
theorem maskHas_manualWater (m : Mask) : maskHas m manualWaterBit = m.getLsbD 3 := by revert m; decide
theorem maskHas_setAutoEn (m : Mask) : maskHas m setAutoEnBit = m.getLsbD 4 := by revert m; decide
theorem maskHas_dumpHistory (m : Mask) : maskHas m dumpHistoryBit = m.getLsbD 5 := by revert m; decide

end Sys2Proof.Machine
end

