-- ==== Sys2Proof/Laws/Memory.lean ====
section
/-! SUPPORT. The chip's memory: a read after a write, and that every operation keeps the canonical form. -/

namespace Sys2Proof.Machine

@[simp] theorem Memory.read_nil (a : Nat) : Memory.read [] a = none := rfl

theorem Memory.read_write_same (m : Memory) (a : Nat) (b : Byte) :
    Memory.read (Memory.write m a b) a = some b := by
  induction m with
  | nil => simp [Memory.write, Memory.read]
  | cons c m ih =>
    simp only [Memory.write]
    split
    · simp [Memory.read]
    · split
      · simp [Memory.read]
      · rename_i _ hne
        simp [Memory.read, Ne.symm hne, ih]

theorem Memory.read_write_other (m : Memory) (a x : Nat) (b : Byte) (h : x ≠ a) :
    Memory.read (Memory.write m a b) x = Memory.read m x := by
  induction m with
  | nil => simp [Memory.write, Memory.read, Ne.symm h]
  | cons c m ih =>
    simp only [Memory.write]
    split
    · simp [Memory.read, Ne.symm h]
    · split
      · rename_i _ heq
        simp [Memory.read, ← heq, Ne.symm h]
      · simp only [Memory.read]
        split
        · rfl
        · exact ih

/-- A write keeps any bound on the addresses listed. -/
theorem Memory.write_forall (m : Memory) (a : Nat) (b : Byte) (p : Nat → Prop) (ha : p a)
    (hm : ∀ c ∈ m, p c.1) : ∀ c ∈ Memory.write m a b, p c.1 := by
  induction m with
  | nil => simpa [Memory.write] using ha
  | cons c m ih =>
    have hc : p c.1 := hm c (by simp)
    have hm' : ∀ d ∈ m, p d.1 := fun d hd => hm d (by simp [hd])
    simp only [Memory.write]
    split
    · simp only [List.mem_cons]
      rintro d (rfl | rfl | hd)
      exacts [ha, hc, hm' d hd]
    · split
      · simp only [List.mem_cons]
        rintro d (rfl | hd)
        exacts [ha, hm' d hd]
      · simp only [List.mem_cons]
        rintro d (rfl | hd)
        exacts [hc, ih hm' d hd]

theorem Memory.write_pairwise (m : Memory) (a : Nat) (b : Byte)
    (h : m.Pairwise fun x y => x.1 < y.1) : (Memory.write m a b).Pairwise fun x y => x.1 < y.1 := by
  induction m with
  | nil => simp [Memory.write]
  | cons c m ih =>
    obtain ⟨hc, hm⟩ := List.pairwise_cons.mp h
    simp only [Memory.write]
    split
    · rename_i hlt
      refine List.pairwise_cons.mpr ⟨?_, h⟩
      simp only [List.mem_cons]
      rintro d (rfl | hd)
      exacts [hlt, Nat.lt_trans hlt (hc d hd)]
    · split
      · rename_i _ heq
        exact List.pairwise_cons.mpr ⟨fun d hd => heq ▸ hc d hd, hm⟩
      · rename_i hge hne
        refine List.pairwise_cons.mpr ⟨?_, ih hm⟩
        exact Memory.write_forall m a b (fun x => c.1 < x) (by omega) hc

/-- A write keeps the canonical form. -/
theorem Memory.write_wf (m : Memory) (a : Nat) (b : Byte) (ha : a < 512) (h : Memory.wf m) :
    Memory.wf (Memory.write m a b) :=
  ⟨Memory.write_pairwise m a b h.1, Memory.write_forall m a b (· < 512) ha h.2⟩

theorem storePairs_wf (m : Memory) (ps : List (Addr × Byte)) (h : Memory.wf m) :
    Memory.wf (storePairs m ps) := by
  induction ps generalizing m with
  | nil => exact h
  | cons p ps ih => exact ih _ (Memory.write_wf m _ _ p.1.isLt h)

theorem storePairs_read_other (m : Memory) (ps : List (Addr × Byte)) (a : Nat)
    (h : ∀ p ∈ ps, p.1.toNat ≠ a) : Memory.read (storePairs m ps) a = Memory.read m a := by
  induction ps generalizing m with
  | nil => rfl
  | cons p ps ih =>
    simp only [storePairs]
    rw [ih _ fun q hq => h q (by simp [hq])]
    exact Memory.read_write_other _ _ _ _ (Ne.symm (h p (by simp)))

/-- What a store leaves at an address is the old byte or one of the stored bytes for it. -/
theorem storePairs_read_cases (m : Memory) (ps : List (Addr × Byte)) (a : Nat) :
    Memory.read (storePairs m ps) a = Memory.read m a ∨
      ∃ p ∈ ps, p.1.toNat = a ∧ Memory.read (storePairs m ps) a = some p.2 := by
  induction ps generalizing m with
  | nil => exact .inl rfl
  | cons p ps ih =>
    simp only [storePairs, List.mem_cons, exists_eq_or_imp]
    rcases ih (Memory.write m p.1.toNat p.2) with h | ⟨q, hq, ha, hr⟩
    · by_cases hp : p.1.toNat = a
      · refine .inr (.inl ⟨hp, ?_⟩)
        rw [h, hp, Memory.read_write_same]
      · exact .inl (by rw [h, Memory.read_write_other _ _ _ _ (Ne.symm hp)])
    · exact .inr (.inr ⟨q, hq, ha, hr⟩)

/-- Every memory operation of the chip keeps the canonical form. -/
theorem Chip.complete_wf (c : Chip) (h : Memory.wf c.mem) : Memory.wf c.complete.mem := by
  unfold Chip.complete
  split
  · exact storePairs_wf _ _ h
  · exact h

theorem Chip.faulted_wf (c : Chip) (d : BusDraw) (ps : List (Addr × Byte)) (h : Memory.wf c.mem) :
    Memory.wf (c.faulted d ps).mem := by
  unfold Chip.faulted
  split
  · exact h
  · exact storePairs_wf _ _ h

theorem Chip.powerCycled_wf (c : Chip) (lost : BitVec 128) (h : Memory.wf c.mem) :
    Memory.wf (c.powerCycled lost).mem :=
  storePairs_wf _ _ h

theorem reset_memory_wf : Memory.wf State.reset.chip.mem := by decide

end Sys2Proof.Machine
end

