-- ==== Sys2Proof/Laws/Chip.lean ====
section
/-! SUPPORT. The bytes of a write: the addresses of a burst, what stored pairs leave, and a faulted exchange. -/

namespace Sys2Proof.Machine

/-- One pair per data byte. -/
theorem writePairs_length (a : Addr) (d : List Byte) : (writePairs a d).length = d.length := by simp [writePairs]

/-- A bit after one bit is set. -/
theorem setBit_getLsbD (b : Byte) (k i : Fin 8) (v : Bool) :
    (setBit b k v).getLsbD i = if i = k then v else b.getLsbD i := by
  revert b k i v; decide

/-- The bits of a status byte: WIP and WEL in their places, the others drawn (rules R86, R117). -/
theorem statusByte_getLsbD (c : Params) (wip wel : Bool) (u : Byte) (i : Fin 8) :
    (statusByte c wip wel u).getLsbD i =
      if i = c.wipBit then wip else if i = c.welBit then wel else u.getLsbD i := by
  unfold statusByte
  rw [setBit_getLsbD, setBit_getLsbD]

/-- EEC reads WIP from a status byte (rules R86, R141). -/
theorem busyBit_statusByte (c : Params) (wip wel : Bool) (u : Byte) :
    busyBit c (statusByte c wip wel u) = wip := by
  unfold busyBit; rw [statusByte_getLsbD, if_pos rfl]

/-- `maxSize` is 1 to 16 (rule R150). -/
theorem maxSize_bounds (a : Addr) : 1 ≤ maxSize a ∧ maxSize a ≤ 16 := by
  unfold maxSize pageSize; omega

/-- Stored pairs change a byte only to one of theirs. -/
theorem byteAt_storePairs_cases (c : Chip) (ps) (x : Addr) (c' : Chip) (hc : c'.mem = storePairs c.mem ps) : c'.byteAt x = c.byteAt x ∨ ∃ p ∈ ps, p.1 = x ∧ c'.byteAt x = p.2 := by
  unfold Chip.byteAt
  rw [hc]
  rcases storePairs_read_cases c.mem ps x.toNat with h | ⟨p, hp, hx, hr⟩
  · left; rw [h]
  · right; exact ⟨p, hp, BitVec.eq_of_toNat_eq hx, by rw [hr]; rfl⟩

/-- What lands was addressed. -/
theorem mem_of_mem_landedPairs (d ps) : ∀ p ∈ landedPairs d ps, p ∈ ps := by
  intro p hp
  simp only [landedPairs, List.mem_map, List.mem_filter] at hp
  obtain ⟨⟨q, i⟩, ⟨h1, _⟩, rfl⟩ := hp
  rw [List.mem_zipIdx_iff_getElem?] at h1
  exact List.mem_of_getElem? h1

/-- Storing pairs over two memories that agree where no pair lies gives memories that agree. -/
theorem storePairs_read_congr (m m' : Memory) (ps : List (Addr × Byte)) (a : Nat) (h : (∃ p ∈ ps, p.1.toNat = a) ∨ Memory.read m a = Memory.read m' a) :
    Memory.read (storePairs m ps) a = Memory.read (storePairs m' ps) a := by
  induction ps generalizing m m' with
  | nil => simpa [storePairs] using h
  | cons p ps ih =>
    simp only [storePairs]
    apply ih
    by_cases hp : p.1.toNat = a
    · right; rw [hp, Memory.read_write_same, Memory.read_write_same]
    · rcases h with ⟨q, hq, ha⟩ | h
      · left
        rcases List.mem_cons.mp hq with rfl | hq
        · exact absurd ha hp
        · exact ⟨q, hq, ha⟩
      · right; rw [Memory.read_write_other _ _ _ _ (Ne.symm hp), Memory.read_write_other _ _ _ _ (Ne.symm hp), h]

/-- A faulted exchange leaves a byte, now and after the completion, old or new (rule R81). -/
theorem faulted_byteAt_cases (c : Chip) (d : BusDraw) (ps) (x : Addr) :
   ((c.faulted d ps).byteAt x = c.byteAt x ∨ ∃ p ∈ ps, p.1 = x ∧ (c.faulted d ps).byteAt x = p.2) ∧
   ((c.faulted d ps).complete.byteAt x = c.complete.byteAt x ∨ ∃ p ∈ ps, p.1 = x ∧ (c.faulted d ps).complete.byteAt x = p.2) := by
  have up : ∀ {P : Addr × Byte → Prop}, (∃ p ∈ landedPairs d ps, P p) → ∃ p ∈ ps, P p := by
    rintro P ⟨p, h1, h2⟩; exact ⟨p, mem_of_mem_landedPairs _ _ _ h1, h2⟩
  unfold Chip.faulted
  split
  · rename_i h
    simp at h
    refine ⟨.inl rfl, ?_⟩
    have e : c.complete = c := by simp [Chip.complete, h]
    rw [e]
    exact (byteAt_storePairs_cases c (landedPairs d ps) x _ rfl).imp_right up
  · refine ⟨(byteAt_storePairs_cases c (landedPairs d ps) x _ rfl).imp_right up, ?_⟩
    by_cases hw : c.wip = true
    · simp only [Chip.complete, hw, if_true]
      by_cases hx : ∃ p ∈ c.pending, p.1.toNat = x.toNat
      · left; unfold Chip.byteAt
        simp only
        rw [storePairs_read_congr (storePairs c.mem (landedPairs d ps)) c.mem _ _ (.inl hx)]
      · have hx' : ∀ p ∈ c.pending, p.1.toNat ≠ x.toNat := by intro p hp hh; exact hx ⟨p, hp, hh⟩
        unfold Chip.byteAt
        simp only
        rw [storePairs_read_other _ _ _ hx', storePairs_read_other _ _ _ hx']
        exact (byteAt_storePairs_cases c (landedPairs d ps) x {c with mem := storePairs c.mem (landedPairs d ps)} rfl).imp_right up
    · simp only [Chip.complete, hw]
      exact (byteAt_storePairs_cases c (landedPairs d ps) x _ rfl).imp_right up

/-- The burst address as a number: the page base and the wrapped offset (rule R89). -/
theorem burstAddress_toNat (a : Addr) (i : Nat) : (burstAddress a i).toNat = a.toNat - a.toNat % 16 + (a.toNat + i) % 16 := by
  have h1 : (burstAddress a i) = burstAddress a (i % 16) := by
    unfold burstAddress; congr 1
    apply BitVec.eq_of_toNat_eq
    have e : (15 : Nat) = 2^4 - 1 := rfl
    simp only [BitVec.toNat_and, BitVec.toNat_add, BitVec.toNat_ofNat]
    simp only [show (15 % 2^9) = 2^4 - 1 from rfl, Nat.and_two_pow_sub_one_eq_mod]; omega
  have h2 : (a.toNat + i) % 16 = (a.toNat + i % 16) % 16 := by omega
  rw [h1, h2]
  have hi : i % 16 < 16 := Nat.mod_lt _ (by decide)
  generalize i % 16 = j at *
  have : ∀ (a : Addr) (j : Fin 16), (burstAddress a j.val).toNat = a.toNat - a.toNat % 16 + (a.toNat + j.val) % 16 := by decide
  exact this a ⟨j, hi⟩

/-- The addresses of a burst are distinct. -/
theorem burstAddress_injective (a : Addr) (i j : Nat) (hi : i < 16) (hj : j < 16) (h : burstAddress a i = burstAddress a j) : i = j := by
  have := congrArg BitVec.toNat h
  rw [burstAddress_toNat, burstAddress_toNat] at this
  omega

/-- The last pair of an address is what it holds. -/
theorem storePairs_last (pre : List (Addr × Byte)) (p) (post) (m) (h : ∀ q ∈ post, q.1 ≠ p.1) : Memory.read (storePairs m (pre ++ p :: post)) p.1.toNat = some p.2 := by
  induction pre generalizing m with
  | nil =>
    simp only [List.nil_append, storePairs]
    rw [storePairs_read_other _ _ _ (fun q hq hh => h q hq (BitVec.eq_of_toNat_eq hh)), Memory.read_write_same]
  | cons q pre ih => simp only [List.cons_append, storePairs]; exact ih _

/-- With distinct addresses every pair is held. -/
theorem storePairs_get (m : Memory) (ps : List (Addr × Byte)) (hd : ps.Pairwise (fun p q => p.1 ≠ q.1)) (p) (hp : p ∈ ps) : Memory.read (storePairs m ps) p.1.toNat = some p.2 := by
  obtain ⟨pre, post, rfl⟩ := List.append_of_mem hp
  apply storePairs_last
  intro q hq
  have := (List.pairwise_append.mp hd).2.1
  exact Ne.symm ((List.pairwise_cons.mp this).1 q hq)

/-- The pairs of a write frame have distinct addresses. -/
theorem writePairs_distinct (a : Addr) (data : List Byte) (h : data.length ≤ 16) : (writePairs a data).Pairwise (fun p q => p.1 ≠ q.1) := by
  rw [List.pairwise_iff_getElem]
  intro i j hi hj hij
  simp [writePairs] at hi hj ⊢
  intro hh
  have := burstAddress_injective a i j (by omega) (by omega) hh
  omega

/-- Inside its page a burst does not wrap (rule R78). -/
theorem burstAddress_eq_add (a : Addr) (i : Nat) (h : i < 16 - a.toNat % 16) : burstAddress a i = a + BitVec.ofNat 9 i := by
  apply BitVec.eq_of_toNat_eq
  have hb : (burstAddress a i).toNat = a.toNat - a.toNat % 16 + (a.toNat + i) % 16 := by
    have : ∀ (a : Addr) (j : Fin 16), (burstAddress a j.val).toNat = a.toNat - a.toNat % 16 + (a.toNat + j.val) % 16 := by decide
    exact this a ⟨i, by omega⟩
  rw [hb, BitVec.toNat_add, BitVec.toNat_ofNat]
  have := a.isLt
  omega

/-- The bytes after a burst inside one page: the sent ones at their addresses, the old ones elsewhere (rule R92). -/
theorem bytes_after_write (c : Chip) (a : Addr) (data : List Byte) (h0 : data.length ≤ 16) (h : data.length ≤ 16 - a.toNat % 16) (c' : Chip) (hm : c'.mem = storePairs c.mem (writePairs a data)) :
   (∀ i b, data[i]? = some b → c'.byteAt (a + BitVec.ofNat 9 i) = b) ∧ (∀ x : Addr, (∀ i, i < data.length → x ≠ a + BitVec.ofNat 9 i) → c'.byteAt x = c.byteAt x) := by
  refine ⟨?_, ?_⟩
  · intro i b hb
    have hi : i < data.length := by
      by_contra hh; rw [List.getElem?_eq_none (by omega)] at hb; cases hb
    have hmem : (burstAddress a i, b) ∈ writePairs a data := by
      simp only [writePairs, List.mem_map]
      exact ⟨(b, i), by rw [List.mem_zipIdx_iff_getElem?]; exact hb, rfl⟩
    have := storePairs_get c.mem _ (writePairs_distinct a data h0) _ hmem
    simp only at this
    rw [← burstAddress_eq_add a i (by omega)]
    unfold Chip.byteAt; rw [hm, this]; rfl
  · intro x hx
    unfold Chip.byteAt
    rw [hm, storePairs_read_other]
    intro p hp hh
    simp only [writePairs, List.mem_map] at hp
    obtain ⟨⟨b, i⟩, hz, rfl⟩ := hp
    rw [List.mem_zipIdx_iff_getElem?] at hz
    have hi : i < data.length := by
      by_contra hh; rw [List.getElem?_eq_none (by omega)] at hz; cases hz
    apply hx i hi
    rw [← burstAddress_eq_add a i (by omega)]
    exact (BitVec.eq_of_toNat_eq hh).symm

end Sys2Proof.Machine
end

