-- ==== Sys2Proof/Laws/Encoding.lean ====
section
/-! SUPPORT. The address fold under every legal set of opcodes, and the decoding of each frame. -/

namespace Sys2Proof

/-- What a legal set of opcodes is (rule R16). -/
theorem Opcodes.wf_facts {c : Opcodes} (h : c.wf = true) :
    (c.read.getLsbD 3 = false ∧ c.write.getLsbD 3 = false ∧ c.wrdi.getLsbD 3 = false ∧
      c.rdsr.getLsbD 3 = false ∧ c.wren.getLsbD 3 = false) ∧
    c.read ≠ c.write ∧ c.read ≠ c.wrdi ∧ c.read ≠ c.rdsr ∧ c.read ≠ c.wren ∧ c.write ≠ c.wrdi ∧
    c.write ≠ c.rdsr ∧ c.write ≠ c.wren ∧ c.wrdi ≠ c.rdsr ∧ c.wrdi ≠ c.wren ∧ c.rdsr ≠ c.wren := by
  simp only [Opcodes.wf, Bool.and_eq_true, List.all_cons, List.all_nil, Bool.not_eq_true',
    decide_eq_true_eq, List.nodup_cons, List.mem_cons, List.not_mem_nil, or_false, not_or] at h
  tauto

/-- The folded bit on its own. -/
theorem foldedBit (a : Addr) :
    ((a &&& 0x100#9) >>> 5).setWidth 8 = if a.getLsbD 8 then 0x08#8 else 0#8 := by
  revert a; decide

/-- An address is its folded bit and its low byte. -/
theorem unfold_parts (a : Addr) :
    ((if a.getLsbD 8 then 0x08#8 else 0#8 : Byte).setWidth 9 <<< 5) ||| (lowAddress a).setWidth 9 = a := by
  revert a; decide

/-- A byte with bit 3 clear, with and without the bit. -/
theorem bit3_clear (b : Byte) (h : b.getLsbD 3 = false) :
    b &&& 0x08#8 = 0#8 ∧ (b ||| 0x08#8) &&& 0x08#8 = 0x08#8 ∧ b &&& 0xF7#8 = b ∧ (b ||| 0x08#8) &&& 0xF7#8 = b := by
  revert b; decide

/-- The decoder undoes the fold of an opcode with bit 3 clear (rule R113). -/
theorem unfold_fold (opc : Byte) (a : Addr) (h : opc.getLsbD 3 = false) :
    unfoldAddress (foldAddress opc a) (lowAddress a) = a ∧ addressedOpcode (foldAddress opc a) = opc := by
  obtain ⟨h1, h2, h3, h4⟩ := bit3_clear opc h
  have hp := unfold_parts a
  unfold unfoldAddress addressedOpcode foldAddress
  rw [foldedBit]
  cases hb : a.getLsbD 8 <;> rw [hb] at hp <;> simp only [Bool.false_eq_true, if_false, if_true] at hp ⊢
  · simpa only [BitVec.or_zero, h1, h3, and_true] using hp
  · simpa only [h2, h4, and_true] using hp

/-- A folded opcode is no other opcode. -/
theorem fold_ne {opc b : Byte} (a : Addr) (ho : opc.getLsbD 3 = false) (hb : b.getLsbD 3 = false) (hn : opc ≠ b) :
    foldAddress opc a ≠ b := by
  intro h
  apply hn
  rw [← (unfold_fold opc a ho).2, h]
  exact (bit3_clear b hb).2.2.1

/-- A read frame decodes to itself. -/
theorem decodeFrame_read {c : Opcodes} (h : c.wf = true) (a : Addr) :
    decodeFrame c (frameBytes c (.read a)) = .ok (.read a) := by
  obtain ⟨⟨r, w, d, s, e⟩, n1, n2, n3, n4, n5, n6, n7, -⟩ := c.wf_facts h
  obtain ⟨u1, u2⟩ := unfold_fold c.read a r
  simp [frameBytes, encode, decodeFrame, fold_ne a r d n2, fold_ne a r s n3, fold_ne a r e n4, u1, u2]

/-- A write frame decodes to itself. -/
theorem decodeFrame_write {c : Opcodes} (h : c.wf = true) (a : Addr) (data : List Byte)
    (hd : writeFrameLengthOk data = true) :
    decodeFrame c (frameBytes c (.write a data)) = .ok (.write a data) := by
  obtain ⟨⟨r, w, d, s, e⟩, n1, n2, n3, n4, n5, n6, n7, -⟩ := c.wf_facts h
  obtain ⟨u1, u2⟩ := unfold_fold c.write a w
  simp [frameBytes, encode, decodeFrame, fold_ne a w d n5, fold_ne a w s n6, fold_ne a w e n7, u1, u2,
    Ne.symm n1, hd]

/-- The one-byte frames decode to themselves. -/
theorem decodeFrame_command {c : Opcodes} (h : c.wf = true) :
    decodeFrame c (frameBytes c .wrdi) = .ok .wrdi ∧ decodeFrame c (frameBytes c .rdsr) = .ok .rdsr ∧
    decodeFrame c (frameBytes c .wren) = .ok .wren := by
  obtain ⟨-, n1, n2, n3, n4, n5, n6, n7, n8, n9, n10⟩ := c.wf_facts h
  simp [frameBytes, encode, decodeFrame, Ne.symm n8, Ne.symm n9, Ne.symm n10]

end Sys2Proof
end

