-- ==== Sys2Proof/Laws/Invariant.lean ====
section
/-! SUPPORT. A check that can be evaluated on a concrete state and implies the invariant. -/

namespace Sys2Proof.Machine

/-- The page-write part of `DriverPhaseOk`, on one operation. -/
def pageWriteFits : Instr → Bool
  | .writePage a len _ => len != 0 && decide (len.toNat ≤ maxSize a)
  | _ => true

/-- `DriverPhaseOk`, evaluated. -/
def checkDriver (s : State) : Bool :=
  s.eec.state == .idle ||
    match dueOp s with
    | none => false
    | some op =>
      isDriverOp op && (s.eec.state != .poll || polls op) &&
        ((s.eec.state != .wren && s.eec.state != .settle) || writes op) && pageWriteFits op

/-- `ReplyOk`, evaluated. -/
def checkReply (s : State) : Bool :=
  match s.bus.reply with
  | none => true
  | some .fault => s.eec.state == .poll || s.eec.state == .wren || s.eec.state == .xfer
  | some (.ok rx) =>
    (s.eec.state == .poll && rx.length == 1) || (s.eec.state == .wren && rx.length == 0) ||
      (s.eec.state == .xfer && (dueOp s).any fun op => rx.length == receives op)

/-- `LatchWindow`, evaluated. -/
def checkLatch (s : State) : Bool :=
  !s.chip.wip && s.chip.wel && s.bus.frame == [s.cfg.opcodes.wren]

/-- `WindowOk`, evaluated: one demand per phase. -/
def checkWindow (s : State) : Bool :=
  match s.eec.state, s.bus.reply with
  | .idle, _ => true
  | .poll, some (.ok [b]) => busyBit s.cfg b || !s.chip.wip
  | .poll, _ => true
  | .wren, none => !s.chip.wip
  | .wren, some (.ok _) => checkLatch s
  | .wren, some .fault => true
  | .settle, _ => checkLatch s
  | .xfer, some _ => true
  | .xfer, none =>
    (dueOp s).all fun op => (!polls op || !s.chip.wip) && (!writes op || checkLatch s)

/-- `LogPhaseOk`, evaluated. -/
def checkLog (s : State) : Bool :=
  match s.log.state with
  | .idle => true
  | .hdr => s.lat.op == 8#4
  | .fill => s.lat.op == 8#4 && headerSize ≤ s.log.fillAddr.toNat && s.log.fillAddr.toNat ≤ ceiling s.cfg
  | .append => s.lat.op == 9#4 && headerSize ≤ s.log.cursor.toNat && s.log.cursor.toNat < ceiling s.cfg
  | .read =>
    (s.lat.op == 10#4 && headerSize + s.lat.index.toNat < s.log.cursor.toNat) ||
      (s.lat.op == 11#4 && headerSize < s.log.cursor.toNat)
  | .tsread => s.lat.op == 12#4 && headerSize ≤ s.log.cursor.toNat && s.log.tsK.toNat ≤ 8

/-- `PollCountOk`, evaluated. -/
def checkPoll (s : State) : Bool :=
  match s.cfg.pollLimit with
  | none => s.eec.pollCount == 0
  | some limit => s.eec.pollCount ≤ limit && (s.eec.state != .poll || s.eec.pollCount < limit)

/-- The whole invariant, evaluated. -/
def checkInv (s : State) : Bool :=
  s.cfg.wf && decide (Memory.wf s.chip.mem) && (s.chip.wip || s.chip.pending == []) &&
    decide (s.chip.pending.length ≤ pageSize) &&
    (s.log.cursor == 0 || (headerSize ≤ s.log.cursor.toNat && s.log.cursor.toNat ≤ ceiling s.cfg)) &&
    checkLog s && checkDriver s && checkReply s && checkWindow s && checkPoll s &&
    (!s.arb.liveHistory || s.arb.state == .wHistory) &&
    (!s.illegalDue || (reqReady s && decide (ReservedCode s.lat.op)))

theorem checkLatch_sound {s : State} (h : checkLatch s = true) : LatchWindow s := by
  simp only [checkLatch, Bool.and_eq_true, Bool.not_eq_true', beq_iff_eq] at h
  exact ⟨h.1.1, h.1.2, h.2⟩

theorem checkDriver_sound {s : State} (h : checkDriver s = true) : DriverPhaseOk s := by
  intro hi
  unfold checkDriver at h
  rw [show (s.eec.state == .idle) = false from beq_false_of_ne hi, Bool.false_or] at h
  cases hd : dueOp s with
  | none => rw [hd] at h; cases h
  | some op =>
    rw [hd] at h
    simp only [Bool.and_eq_true, Bool.or_eq_true, bne_iff_ne] at h
    obtain ⟨⟨⟨h1, h2⟩, h3⟩, h4⟩ := h
    refine ⟨op, rfl, h1, fun hp => ?_, fun hw => ?_, ?_⟩
    · exact h2.resolve_left fun hn => hn hp
    · exact h3.resolve_left fun hn => hw.elim hn.1 hn.2
    · rintro a len buf rfl
      simpa [pageWriteFits] using h4

theorem checkReply_sound {s : State} (h : checkReply s = true) : ReplyOk s := by
  intro r hr
  unfold checkReply at h
  rw [hr] at h
  cases r with
  | fault =>
    simp only [Bool.or_eq_true, beq_iff_eq] at h
    exact h.elim (fun h => h.elim (fun h => .inl ⟨h, .inl rfl⟩) fun h => .inr (.inl ⟨h, .inl rfl⟩))
      fun h => .inr (.inr ⟨h, .inl rfl⟩)
  | ok rx =>
    simp only [Bool.or_eq_true, Bool.and_eq_true, beq_iff_eq] at h
    obtain (⟨h1, h2⟩ | ⟨h1, h2⟩) | ⟨h1, h2⟩ := h
    · obtain ⟨b, rfl⟩ := List.length_eq_one_iff.mp h2
      exact .inl ⟨h1, .inr ⟨b, rfl⟩⟩
    · exact .inr (.inl ⟨h1, .inr (by rw [List.length_eq_zero_iff.mp h2])⟩)
    · cases hd : dueOp s with
      | none => rw [hd] at h2; cases h2
      | some op =>
        rw [hd] at h2
        exact .inr (.inr ⟨h1, .inr ⟨rx, op, rfl, rfl, by simpa using h2⟩⟩)

theorem checkWindow_sound {s : State} (h : checkWindow s = true) : WindowOk s := by
  unfold checkWindow at h
  refine ⟨fun b h1 h2 h3 => ?_, fun h1 h2 => ?_, fun rx h1 h2 => ?_, fun h1 => ?_, fun op h1 h2 h3 h4 => ?_,
    fun op h1 h2 h3 h4 => ?_⟩
  · rw [h1, h2] at h; simpa [h3] using h
  · rw [h1, h2] at h; simpa using h
  · rw [h1, h2] at h; exact checkLatch_sound h
  · rw [h1] at h; exact checkLatch_sound h
  · rw [h1, h2, h3] at h; simp [h4] at h; exact h.1
  · rw [h1, h2, h3] at h; simp [h4] at h; exact checkLatch_sound h.2

theorem checkLog_sound {s : State} (h : checkLog s = true) : LogPhaseOk s := by
  unfold checkLog at h
  unfold LogPhaseOk
  cases hs : s.log.state <;> rw [hs] at h <;> first | trivial | simpa [and_assoc] using h

theorem checkPoll_sound {s : State} (h : checkPoll s = true) : PollCountOk s := by
  unfold checkPoll at h
  unfold PollCountOk
  cases hs : s.cfg.pollLimit with
  | none => rw [hs] at h; simpa using h
  | some limit =>
    rw [hs] at h
    simp only [Bool.and_eq_true, Bool.or_eq_true, bne_iff_ne, decide_eq_true_eq] at h
    exact ⟨h.1, fun hp => h.2.resolve_left fun hn => hn hp⟩

/-- A state that passes the check meets the invariant. -/
theorem machineInv_of_check {s : State} (h : checkInv s = true) : MachineInv s := by
  simp only [checkInv, Bool.and_eq_true, Bool.or_eq_true, decide_eq_true_eq, beq_iff_eq,
    Bool.not_eq_true'] at h
  obtain ⟨⟨⟨⟨⟨⟨⟨⟨⟨⟨⟨h1, h2⟩, h3⟩, h4⟩, h5⟩, h6⟩, h7⟩, h8⟩, h9⟩, h10⟩, h11⟩, h12⟩ := h
  exact
    { params := h1
      memory := h2
      pending := ⟨fun hw => h3.resolve_left (by simp [hw]), h4⟩
      cursor := h5
      log := checkLog_sound h6
      driver := checkDriver_sound h7
      reply := checkReply_sound h8
      window := checkWindow_sound h9
      poll := checkPoll_sound h10
      history := fun hl => h11.resolve_left (by simp [hl])
      illegal := fun hd => h12.resolve_left (by simp [hd]) }

end Sys2Proof.Machine
end

