-- ==== Sys2Proof/Laws/PerInstr.lean ====
section
/-! SUPPORT. Per instruction: what the encoder puts on its port is the instruction's row of
spec/opcode_table.json, transcribed here from the table. -/

namespace Sys2Proof.Laws.TableRow

/-- A row: the space its word stands in, with the table's mask and match values. -/
inductive Row
  /-- a serial frame: mask and match of its first byte, and how many bytes may follow -/
  | frame (mask value : Byte) (least most : Nat)
  /-- a request: mask and match of `req_op` -/
  | request (mask value : OpCode)
  /-- an event: the mask bits its strobes set -/
  | event (bits : Mask)
  /-- an arbiter step: `ARB.state`, and in `IDLE` `wake_pending`; for a dispatch step the mask bits it tests -/
  | arbiter (state : ArbState) (wakePending : Bool) (bits : Option Mask)
  /-- a done line -/
  | done (line : DoneSignals)

/-- The table. -/
def row : Instr → Row
  | .read _ => .frame 0xF7 0x03 1 1
  | .write _ _ => .frame 0xF7 0x02 2 17
  | .wrdi => .frame 0xFF 0x04 0 0
  | .rdsr => .frame 0xFF 0x05 0 0
  | .wren => .frame 0xFF 0x06 0 0
  | .readStatus => .request 0xF 0x0
  | .writeEnable => .request 0xF 0x1
  | .writeDisable => .request 0xF 0x2
  | .readByte _ => .request 0xF 0x3
  | .writeByte _ _ => .request 0xF 0x4
  | .writePage _ _ _ => .request 0xF 0x5
  | .resetLog _ => .request 0xF 0x8
  | .appendReading _ => .request 0xF 0x9
  | .readReading _ => .request 0xF 0xA
  | .readLastReading => .request 0xF 0xB
  | .readHeaderTimestamp => .request 0xF 0xC
  | .readingTimestamp _ => .request 0xF 0xD
  | .decideWatering _ => .request 0xF 0xE
  | .reserved6 => .request 0xF 0x6
  | .reserved7 => .request 0xF 0x7
  | .reserved15 => .request 0xF 0xF
  | .evTimer => .event 0x05
  | .evManualSample => .event 0x02
  | .evManualWater _ => .event 0x08
  | .evSetAuto _ => .event 0x10
  | .evDumpHistory => .event 0x20
  | .wake => .arbiter .idle true none
  | .idleTimeoutWake => .arbiter .idle false none
  | .dSample => .arbiter .dSample false (some 0x03)
  | .dAutoen => .arbiter .dAutoen false (some 0x10)
  | .dAutowater => .arbiter .dAutowater false (some 0x04)
  | .dManwater => .arbiter .dManwater false (some 0x08)
  | .dHistory => .arbiter .dHistory false (some 0x20)
  | .historyWaitEnd => .arbiter .wHistory false none
  | .doneSensor => .done { sensor := true, pump := false, history := false }
  | .donePump => .done { sensor := false, pump := true, history := false }
  | .doneHistory => .done { sensor := false, pump := false, history := true }

/-- The mask bits of the strobes that are high (rule R123). -/
def eventBits (e : EventSignals) : Mask :=
  (if e.timer then Machine.autoSampleBit ||| Machine.autoWaterBit else 0) |||
  (if e.manualSample then Machine.manualSampleBit else 0) |||
  (if e.manualWater then Machine.manualWaterBit else 0) |||
  (if e.setAuto then Machine.setAutoEnBit else 0) |||
  (if e.dumpHistory then Machine.dumpHistoryBit else 0)

/-- The mask bits a dispatch step tests (rules R223 to R228). -/
def testedBits : ArbState → Option Mask
  | .idle | .wHistory => none
  | .dSample => some (Machine.autoSampleBit ||| Machine.manualSampleBit)
  | .dAutoen => some Machine.setAutoEnBit
  | .dAutowater => some Machine.autoWaterBit
  | .dManwater => some Machine.manualWaterBit
  | .dHistory => some Machine.dumpHistoryBit

/-- A port's word is one of a row's. -/
def inRow : Row → PortWord → Prop
  | .frame mask value least most, .frame (b :: rest) =>
    b &&& mask = value ∧ least ≤ rest.length ∧ rest.length ≤ most
  | .request mask value, .request r => r.op &&& mask = value
  | .event bits, .event e => eventBits e = bits
  | .arbiter state wakePending bits, .arbiter state' wakePending' =>
    state' = state ∧ wakePending' = wakePending ∧ testedBits state' = bits
  | .done line, .done d => d = line
  | _, _ => False

/-- The encoding of a well-formed instruction is in its row; the table gives the frames with the default opcodes. -/
def Statement (i : Instr) : Prop :=
  i.wf = true → inRow (row i) (encode defaultOpcodes i)

/-- The folded address bit is the one the addressed rows' mask leaves out. -/
theorem fold_masked (a : Addr) :
    foldAddress defaultOpcodes.read a &&& 0xF7#8 = 0x03#8 ∧ foldAddress defaultOpcodes.write a &&& 0xF7#8 = 0x02#8 :=
  ⟨(unfold_fold _ a rfl).2, (unfold_fold _ a rfl).2⟩

/-- A request code is all of the table's mask. -/
theorem request_masked (op : OpCode) : op &&& 0xF = op := by
  revert op; decide

theorem read (addr : Addr) : Statement (.read addr) :=
  fun _ => ⟨(fold_masked addr).1, Nat.le_refl 1, Nat.le_refl 1⟩

theorem write (addr : Addr) (data : List Byte) : Statement (.write addr data) := by
  intro h
  simp only [Instr.wf, writeFrameLengthOk, Bool.and_eq_true, decide_eq_true_eq] at h
  refine ⟨(fold_masked addr).2, ?_, ?_⟩ <;> simp only [List.length_cons] <;> omega

theorem wrdi : Statement .wrdi := fun _ => by simp only [row, encode, inRow]; decide
theorem rdsr : Statement .rdsr := fun _ => by simp only [row, encode, inRow]; decide
theorem wren : Statement .wren := fun _ => by simp only [row, encode, inRow]; decide
theorem readStatus : Statement .readStatus := fun _ => rfl
theorem writeEnable : Statement .writeEnable := fun _ => rfl
theorem writeDisable : Statement .writeDisable := fun _ => rfl
theorem readByte (addr : Addr) : Statement (.readByte addr) := fun _ => request_masked 3#4
theorem writeByte (addr : Addr) (byte : Byte) : Statement (.writeByte addr byte) :=
  fun _ => request_masked 4#4
theorem writePage (addr : Addr) (len : BitVec 5) (buf : PageBuf) : Statement (.writePage addr len buf) :=
  fun _ => request_masked 5#4
theorem resetLog (ts : BitVec 64) : Statement (.resetLog ts) := fun _ => request_masked 8#4
theorem appendReading (value : Byte) : Statement (.appendReading value) := fun _ => request_masked 9#4
theorem readReading (index : BitVec 16) : Statement (.readReading index) := fun _ => request_masked 10#4
theorem readLastReading : Statement .readLastReading := fun _ => request_masked 11#4
theorem readHeaderTimestamp : Statement .readHeaderTimestamp := fun _ => request_masked 12#4
theorem readingTimestamp (index : BitVec 16) : Statement (.readingTimestamp index) :=
  fun _ => request_masked 13#4
theorem decideWatering (moisture : Byte) : Statement (.decideWatering moisture) :=
  fun _ => request_masked 14#4
theorem reserved6 : Statement .reserved6 := fun _ => request_masked 6#4
theorem reserved7 : Statement .reserved7 := fun _ => request_masked 7#4
theorem reserved15 : Statement .reserved15 := fun _ => request_masked 15#4
theorem evTimer : Statement .evTimer := fun _ => rfl
theorem evManualSample : Statement .evManualSample := fun _ => rfl
theorem evManualWater (duration : Byte) : Statement (.evManualWater duration) := fun _ => by
  simp [row, encode, inRow, eventBits, quietEvents, Machine.manualWaterBit]
theorem evSetAuto (value : Bool) : Statement (.evSetAuto value) := fun _ => by
  simp [row, encode, inRow, eventBits, quietEvents, Machine.setAutoEnBit]
theorem evDumpHistory : Statement .evDumpHistory := fun _ => rfl
theorem wake : Statement .wake := fun _ => ⟨rfl, rfl, rfl⟩
theorem idleTimeoutWake : Statement .idleTimeoutWake := fun _ => ⟨rfl, rfl, rfl⟩
theorem dSample : Statement .dSample := fun _ => ⟨rfl, rfl, rfl⟩
theorem dAutoen : Statement .dAutoen := fun _ => ⟨rfl, rfl, rfl⟩
theorem dAutowater : Statement .dAutowater := fun _ => ⟨rfl, rfl, rfl⟩
theorem dManwater : Statement .dManwater := fun _ => ⟨rfl, rfl, rfl⟩
theorem dHistory : Statement .dHistory := fun _ => ⟨rfl, rfl, rfl⟩
theorem historyWaitEnd : Statement .historyWaitEnd := fun _ => ⟨rfl, rfl, rfl⟩
theorem doneSensor : Statement .doneSensor := fun _ => rfl
theorem donePump : Statement .donePump := fun _ => rfl
theorem doneHistory : Statement .doneHistory := fun _ => rfl

end Sys2Proof.Laws.TableRow
end

