-- ==== Sys2Proof/Laws/Step.lean ====
section
/-! SUPPORT. What an instruction of the request port, a frame and a turn can answer, said once. -/

namespace Sys2Proof.Machine

/-! ## The start of a step, field by field -/

@[simp] theorem stepStart_cfg (s : State) (rest : List Turn) :
    (stepStart s rest).cfg = s.cfg := rfl
@[simp] theorem stepStart_lat (s : State) (rest : List Turn) :
    (stepStart s rest).lat = s.lat := rfl
@[simp] theorem stepStart_illegalDue (s : State) (rest : List Turn) :
    (stepStart s rest).illegalDue = s.illegalDue := rfl
@[simp] theorem stepStart_eec (s : State) (rest : List Turn) :
    (stepStart s rest).eec = s.eec := rfl
@[simp] theorem stepStart_log (s : State) (rest : List Turn) :
    (stepStart s rest).log = s.log := rfl
@[simp] theorem stepStart_arb (s : State) (rest : List Turn) :
    (stepStart s rest).arb = s.arb := rfl
@[simp] theorem stepStart_chip (s : State) (rest : List Turn) :
    (stepStart s rest).chip = s.chip := rfl
@[simp] theorem stepStart_bus (s : State) (rest : List Turn) :
    (stepStart s rest).bus = s.bus := rfl
@[simp] theorem stepStart_busIn (s : State) (rest : List Turn) :
    (stepStart s rest).busIn = s.busIn := rfl
@[simp] theorem stepStart_out (s : State) (rest : List Turn) :
    (stepStart s rest).out = [] := rfl
@[simp] theorem stepStart_agenda (s : State) (rest : List Turn) :
    (stepStart s rest).agenda = rest := rfl
@[simp] theorem stepStart_tick (s : State) (rest : List Turn) :
    (stepStart s rest).tick = s.tick + 1 := rfl
@[simp] theorem stepStart_rsp_valid (s : State) (rest : List Turn) :
    (stepStart s rest).rsp.valid = false := rfl

@[simp] theorem dueOp_withBusIn (s : State) (d : BusDraw) : dueOp (s.withBusIn d) = dueOp s := rfl
@[simp] theorem dueOp_stepStart (s : State) (rest : List Turn) : dueOp (stepStart s rest) = dueOp s := rfl
@[simp] theorem dueFrame_withBusIn (s : State) (d : BusDraw) :
    dueFrame (s.withBusIn d) = dueFrame s := rfl
@[simp] theorem dueFrame_stepStart (s : State) (rest : List Turn) :
    dueFrame (stepStart s rest) = dueFrame s := rfl
@[simp] theorem reqReady_withBusIn (s : State) (d : BusDraw) :
    reqReady (s.withBusIn d) = reqReady s := rfl
@[simp] theorem reqReady_stepStart (s : State) (rest : List Turn) :
    reqReady (stepStart s rest) = reqReady s := rfl

/-- The operation due depends on the parameters, the latches and LOG alone. -/
theorem dueOp_congr {s t : State} (hc : t.cfg = s.cfg) (hl : t.lat = s.lat) (hg : t.log = s.log) :
    dueOp t = dueOp s := by
  unfold dueOp slotAddress
  rw [hc, hl, hg]

/-! ## Frames -/

/-- The five serial frames. -/
def isFrameInstr : Instr → Bool
  | .read _ | .write _ _ | .wrdi | .rdsr | .wren => true
  | .readStatus | .writeEnable | .writeDisable | .readByte _ | .writeByte _ _ | .writePage _ _ _ |
    .resetLog _ | .appendReading _ | .readReading _ | .readLastReading | .readHeaderTimestamp |
    .readingTimestamp _ | .decideWatering _ | .reserved6 | .reserved7 | .reserved15 | .evTimer |
    .evManualSample | .evManualWater _ | .evSetAuto _ | .evDumpHistory | .wake | .idleTimeoutWake |
    .dSample | .dAutoen | .dAutowater | .dManwater | .dHistory | .historyWaitEnd | .doneSensor | .donePump |
    .doneHistory => false

/-- What a frame decodes to is one of the five. -/
theorem decodeFrame_isFrame (c : Opcodes) (bytes : List Byte) (i : Instr) (h : decodeFrame c bytes = .ok i) :
    isFrameInstr i = true := by
  unfold decodeFrame at h
  split at h
  · cases h
  · repeat' split at h
    all_goals first | (cases h; rfl) | cases h

/-- A frame's meaning is one exchange; its reaction leaves the chip's memory, and WIP once it is set. -/
theorem exec_frame_cases (i : Instr) (s : State) (hi : isFrameInstr i = true) :
    ∃ reaction : Chip × List Byte, exec i s = .next (exchange i reaction s) ∧
      reaction.1.mem = s.chip.mem ∧ (s.chip.wip = true → reaction.1.wip = true) := by
  cases i with
  | read a => exact ⟨_, rfl, rfl, id⟩
  | write a data =>
    refine ⟨_, rfl, ?_, ?_⟩ <;> unfold reactWrite
    · split <;> rfl
    · intro h; split <;> simp [Chip.endExchange, h]
  | wrdi => exact ⟨_, rfl, rfl, id⟩
  | rdsr => exact ⟨_, rfl, rfl, id⟩
  | wren =>
    refine ⟨_, rfl, ?_, ?_⟩ <;> unfold reactWren
    · split <;> rfl
    · intro h; split <;> simp [Chip.endExchange, h]
  | readStatus | writeEnable | writeDisable | readByte | writeByte | writePage | resetLog | appendReading
  | readReading | readLastReading | readHeaderTimestamp | readingTimestamp | decideWatering | reserved6
  | reserved7 | reserved15 | evTimer | evManualSample | evManualWater | evSetAuto | evDumpHistory | wake
  | idleTimeoutWake | dSample | dAutoen | dAutowater | dManwater | dHistory | historyWaitEnd | doneSensor
  | donePump | doneHistory => simp [isFrameInstr] at hi

/-- `t` differs from `s` at most in the chip and the bus port. -/
structure ExchangeFrame (s t : State) : Prop where
  cfg    : t.cfg = s.cfg
  lat    : t.lat = s.lat
  illegalDue : t.illegalDue = s.illegalDue
  eec    : t.eec = s.eec
  log    : t.log = s.log
  arb    : t.arb = s.arb
  busIn  : t.busIn = s.busIn
  rsp    : t.rsp = s.rsp
  out    : t.out = s.out
  agenda : t.agenda = s.agenda
  tick   : t.tick = s.tick

theorem exchange_frame (f : Instr) (reaction : Chip × List Byte) (s : State) :
    ExchangeFrame s (exchange f reaction s) := by
  unfold exchange
  split <;> exact ⟨rfl, rfl, rfl, rfl, rfl, rfl, rfl, rfl, rfl, rfl, rfl⟩

/-! ## The request port -/

/-- What an instruction of the request port can answer. With the port ready: EEC's operation starts, or the
response comes at once, or a LOG operation starts with the cursor as it was, or a reserved code is accepted or
answered. With the port busy: the next step of the operation in progress, or nothing. -/
theorem exec_request_cases (r : Request) (s : State) :
    (reqReady s = true ∧ ∃ l : Request,
      (∃ op, isDriverOp op = true ∧ exec (decodeRequest r) s = .next (startDriver op (s.withLat l))) ∨
      (∃ st d, exec (decodeRequest r) s = .next (respond st d (s.withLat l))) ∨
      (∃ phase k acc, exec (decodeRequest r) s =
        .next ((s.withLat l).withLog { s.log with state := phase, tsK := k, tsAcc := acc })) ∨
      (ReservedCode l.op ∧ exec (decodeRequest r) s = .next ((s.withLat l).withIllegalDue true)) ∨
      (s.illegalDue = true ∧
        exec (decodeRequest r) s = .next (respond .illegalOp 0 (s.withIllegalDue false)))) ∨
    (reqReady s = false ∧
      (exec (decodeRequest r) s = .next (continueOp s) ∨ exec (decodeRequest r) s = .next s)) := by
  by_cases h : reqReady s = true
  · refine .inl ⟨h, ?_⟩
    unfold decodeRequest
    split
    · exact ⟨_, .inl ⟨.readStatus, rfl, by simp only [exec, execReadStatus, requestStep, h, if_true]; rfl⟩⟩
    · exact ⟨_, .inl ⟨.writeEnable, rfl, by simp only [exec, execWriteEnable, requestStep, h, if_true]; rfl⟩⟩
    · exact ⟨_, .inl ⟨.writeDisable, rfl, by simp only [exec, execWriteDisable, requestStep, h, if_true]; rfl⟩⟩
    · exact ⟨_, .inl ⟨.readByte _, rfl, by simp only [exec, execReadByte, requestStep, h, if_true]; rfl⟩⟩
    · exact ⟨_, .inl ⟨.writeByte _ _, rfl, by simp only [exec, execWriteByte, requestStep, h, if_true]; rfl⟩⟩
    · exact ⟨_, .inl ⟨.writePage _ _ _, rfl, by simp only [exec, execWritePage, requestStep, h, if_true]; rfl⟩⟩
    · simp only [exec, execReserved6]
      rcases requestIllegal_cases 6#4 s h with ⟨hd, _, e⟩ | e <;> rw [e]
      · exact ⟨s.lat, .inr (.inr (.inr (.inr ⟨hd, rfl⟩)))⟩
      · exact ⟨{ s.lat with op := 6#4 }, .inr (.inr (.inr (.inl ⟨by simp [ReservedCode], rfl⟩)))⟩
    · simp only [exec, execReserved7]
      rcases requestIllegal_cases 7#4 s h with ⟨hd, _, e⟩ | e <;> rw [e]
      · exact ⟨s.lat, .inr (.inr (.inr (.inr ⟨hd, rfl⟩)))⟩
      · exact ⟨{ s.lat with op := 7#4 }, .inr (.inr (.inr (.inl ⟨by simp [ReservedCode], rfl⟩)))⟩
    · exact ⟨_, .inr (.inr (.inl ⟨_, _, _, by simp only [exec, execResetLog, requestStep, h, if_true]; rfl⟩))⟩
    · simp only [exec, execAppendReading, requestStep, h, if_true, startAppend]
      split
      · exact ⟨_, .inr (.inl ⟨_, _, rfl⟩)⟩
      · split
        · exact ⟨_, .inr (.inl ⟨_, _, rfl⟩)⟩
        · exact ⟨_, .inr (.inr (.inl ⟨_, _, _, rfl⟩))⟩
    · simp only [exec, execReadReading, requestStep, h, if_true, startReadReading]
      split
      · exact ⟨_, .inr (.inl ⟨_, _, rfl⟩)⟩
      · split
        · exact ⟨_, .inr (.inl ⟨_, _, rfl⟩)⟩
        · exact ⟨_, .inr (.inr (.inl ⟨_, _, _, rfl⟩))⟩
    · simp only [exec, execReadLastReading, requestStep, h, if_true, startReadLast]
      split
      · exact ⟨_, .inr (.inl ⟨_, _, rfl⟩)⟩
      · exact ⟨_, .inr (.inr (.inl ⟨_, _, _, rfl⟩))⟩
    · simp only [exec, execReadHeaderTimestamp, requestStep, h, if_true, startReadHeader]
      split
      · exact ⟨_, .inr (.inl ⟨_, _, rfl⟩)⟩
      · exact ⟨_, .inr (.inr (.inl ⟨_, _, _, rfl⟩))⟩
    · exact ⟨_, .inr (.inl ⟨_, _, by simp only [exec, execReadingTimestamp, requestAtOnce, h, if_true]; rfl⟩)⟩
    · exact ⟨_, .inr (.inl ⟨_, _, by simp only [exec, execDecideWatering, requestAtOnce, h, if_true]; rfl⟩)⟩
    · simp only [exec, execReserved15]
      rcases requestIllegal_cases 15#4 s h with ⟨hd, _, e⟩ | e <;> rw [e]
      · exact ⟨s.lat, .inr (.inr (.inr (.inr ⟨hd, rfl⟩)))⟩
      · exact ⟨{ s.lat with op := 15#4 }, .inr (.inr (.inr (.inl ⟨by simp [ReservedCode], rfl⟩)))⟩
  · rw [Bool.not_eq_true] at h
    refine .inr ⟨h, ?_⟩
    unfold decodeRequest
    split <;> simp only [exec, execReadStatus, execWriteEnable, execWriteDisable, execReadByte, execWriteByte,
      execWritePage, execReserved6, execReserved7, execReserved15, execResetLog, execAppendReading,
      execReadReading, execReadLastReading, execReadHeaderTimestamp, execReadingTimestamp, execDecideWatering,
      requestStep, requestAtOnce, requestIllegal, h, Bool.false_eq_true, if_false]
    all_goals first | exact .inr trivial | (split <;> first | exact .inl rfl | exact .inr rfl)

/-- An instruction of the request port, whatever it answers, leaves the parameters, ARB, the chip, the last frame,
the outputs and the model's counters alone. -/
structure RequestFrame (s t : State) : Prop where
  cfg    : t.cfg = s.cfg
  arb    : t.arb = s.arb
  chip   : t.chip = s.chip
  frame  : t.bus.frame = s.bus.frame
  busIn  : t.busIn = s.busIn
  out    : t.out = s.out
  agenda : t.agenda = s.agenda
  tick   : t.tick = s.tick

theorem SequencerFrame.toRequest {s t : State} (h : SequencerFrame s t) : RequestFrame s t :=
  ⟨h.cfg, h.arb, h.chip, h.frame, h.busIn, h.out, h.agenda, h.tick⟩

theorem exec_request_frame (r : Request) (s t : State) (h : exec (decodeRequest r) s = .next t) :
    RequestFrame s t := by
  rcases exec_request_cases r s with ⟨_, l, ⟨op, _, e⟩ | ⟨st, d, e⟩ | ⟨_, _, _, e⟩ | ⟨_, e⟩ | ⟨_, e⟩⟩ | ⟨_, e | e⟩ <;>
    rw [e] at h <;> cases h
  · have k := startDriver_frame op (s.withLat l)
    exact ⟨k.cfg, k.arb, k.chip, k.frame, k.busIn, k.out, k.agenda, k.tick⟩
  · exact ⟨rfl, rfl, rfl, rfl, rfl, rfl, rfl, rfl⟩
  · exact ⟨rfl, rfl, rfl, rfl, rfl, rfl, rfl, rfl⟩
  · exact ⟨rfl, rfl, rfl, rfl, rfl, rfl, rfl, rfl⟩
  · exact ⟨rfl, rfl, rfl, rfl, rfl, rfl, rfl, rfl⟩
  · exact (continueOp_frame s).toRequest
  · exact (SequencerFrame.refl s).toRequest

/-! ## Turns -/

/-- With no answer due, or a turn that may stand before or with it, nothing comes before the scheduled turn. -/
theorem answerFirst_false (s : State) (h : s.illegalDue = false ∨ mayFollowReserved (scheduledTurn s) = true) :
    answerFirst s = false := by
  rcases h with h | h <;> simp [answerFirst, h]

/-- A step is the head of the agenda, run from the start of the step, unless an answer comes before it. -/
theorem step_agenda (s : State) (turn : Turn) (rest : List Turn) (h : s.agenda = turn :: rest)
    (hi : s.illegalDue = false ∨ mayFollowReserved turn = true) : step s = runTurn turn (stepStart s rest) := by
  have hs : scheduledTurn s = turn := by simp [scheduledTurn, h]
  have ha := answerFirst_false s (by rw [hs]; exact hi)
  simp only [step, stepTurn, nextTurn, restAgenda, ha, hs, h]
  rfl

/-- The answer to a reserved code comes before a turn that may not stand with it, and the agenda waits. -/
theorem step_answer (s : State) (hi : s.illegalDue = true) (ht : mayFollowReserved (scheduledTurn s) = false) :
    step s = runTurn (.sequencer quietDraw) (stepStart s s.agenda) := by
  have ha : answerFirst s = true := by simp [answerFirst, hi, ht]
  simp only [step, stepTurn, nextTurn, restAgenda, ha]
  rfl

/-- In a step that finds an answer due, only the sequencer, a reset or a power cycle takes its turn. -/
theorem nextTurn_answer (s : State) (hi : s.illegalDue = true) : mayFollowReserved (nextTurn s) = true := by
  unfold nextTurn answerFirst
  cases h : mayFollowReserved (scheduledTurn s)
  · simp [hi, mayFollowReserved]
  · simp [h]

/-- Steps in a row compose. -/
theorem runSteps_append (m n : Nat) {s t u : State} (h : runSteps m s = .next t)
    (k : runSteps n t = .next u) : runSteps (m + n) s = .next u := by
  induction m generalizing s with
  | zero =>
    simp only [runSteps, Host.Outcome.next.injEq] at h
    rw [Nat.zero_add, h, k]
  | succ m ih =>
    rw [show m + 1 + n = (m + n) + 1 by omega]
    cases hs : step s with
    | next v =>
      simp only [runSteps, hs] at h ⊢
      exact ih h
    | fault r => simp only [runSteps, hs] at h; cases h
    | refused r => simp only [runSteps, hs] at h; cases h

/-- One step. -/
theorem runSteps_one {s t : State} (h : step s = .next t) : runSteps 1 s = .next t := by
  simp [runSteps, h]

/-- A step is its turn, run from the start of the step. -/
theorem step_eq_turn (s : State) : step s = runTurn (nextTurn s) (stepStart s (restAgenda s)) := rfl

/-- What a request's turn can answer. -/
theorem requestTurn_cases (r : Request) (s t : State) (h : runTurn (.request r) s = .next t) :
    (reqReady s = true ∧ exec (decodeRequest r) (s.withLat r) = .next t) ∨ (reqReady s = false ∧ t = s) := by
  simp only [runTurn, requestTurn] at h
  split at h
  · exact .inl ⟨‹_›, h⟩
  · cases h
    exact .inr ⟨eq_false_of_ne_true ‹_›, rfl⟩

/-- What the sequencer's turn can answer: the exchange of a frame, the next step of the operation in progress or
the answer to a reserved code, or nothing with the port ready. -/
theorem sequencerTurn_cases (d : BusDraw) (s t : State) (h : runTurn (.sequencer d) s = .next t) :
    (∃ f i, dueFrame s = some f ∧ decodeFrame s.cfg.opcodes (frameBytes s.cfg.opcodes f) = .ok i ∧ exec i (s.withBusIn d) = .next t) ∨
    (dueFrame s = none ∧ reqReady s = true ∧ s.illegalDue = false ∧ t = s.withBusIn d) ∨
    (dueFrame s = none ∧ (reqReady s = false ∨ s.illegalDue = true) ∧ exec (decodeRequest s.lat) (s.withBusIn d) = .next t) := by
  have hd : dueFrame (s.withBusIn d) = dueFrame s := rfl
  have hr : reqReady (s.withBusIn d) = reqReady s := rfl
  simp only [runTurn, sequencerTurn, hd, hr, State.withBusIn_cfg, State.withBusIn_illegalDue] at h
  split at h
  · rename_i f hf
    simp only [decode] at h
    cases hi : decodeFrame s.cfg.opcodes (frameBytes s.cfg.opcodes f) with
    | ok i => rw [hi] at h; exact .inl ⟨f, i, hf, hi, h⟩
    | error e => rw [hi] at h; cases h
  · split at h
    · rename_i hn hp
      simp only [Bool.and_eq_true, Bool.not_eq_true'] at hp
      cases h
      exact .inr (.inl ⟨hn, hp.1, hp.2, rfl⟩)
    · rename_i hn hp
      refine .inr (.inr ⟨hn, ?_, h⟩)
      cases hr' : reqReady s with
      | false => exact .inl rfl
      | true => right; simpa [hr'] using hp

/-- A turn of an event port, the arbiter or the done lines leaves all but ARB and the outputs alone. -/
theorem arbSide_frame (turn : Turn) (s t : State) (h : runTurn turn s = .next t)
    (hs : turn = .arbiter ∨ (∃ d, turn = .done d) ∨ ∃ e, turn = .events e) : ArbiterFrame s t := by
  rcases hs with rfl | ⟨d, rfl⟩ | ⟨e, rfl⟩
  · exact exec_arb_frame _ s t (decodeArbiter_arb _ _) h
  · exact execAll_arb_frame _ s t (decodeDone_arb d) h
  · exact execAll_arb_frame _ s t (decodeEvents_arb e) h

/-- A turn of the request port, the sequencer or the chip leaves ARB, the outputs and the parameters alone. -/
theorem requestSide_frame (turn : Turn) (s t : State) (h : runTurn turn s = .next t)
    (hs : (∃ r, turn = .request r) ∨ (∃ d, turn = .sequencer d) ∨ turn = .chip) :
    t.arb = s.arb ∧ t.out = s.out ∧ t.cfg = s.cfg := by
  rcases hs with ⟨r, rfl⟩ | ⟨d, rfl⟩ | rfl
  · rcases requestTurn_cases r s t h with ⟨_, e⟩ | ⟨_, rfl⟩
    · have k := exec_request_frame r _ t e
      exact ⟨k.arb, k.out, k.cfg⟩
    · exact ⟨rfl, rfl, rfl⟩
  · rcases sequencerTurn_cases d s t h with ⟨f, i, _, hi, e⟩ | ⟨_, _, _, rfl⟩ | ⟨_, _, e⟩
    · obtain ⟨reaction, hr, _⟩ := exec_frame_cases i (s.withBusIn d) (decodeFrame_isFrame _ _ _ hi)
      rw [hr] at e
      cases e
      have k := exchange_frame i reaction (s.withBusIn d)
      exact ⟨k.arb, k.out, k.cfg⟩
    · exact ⟨rfl, rfl, rfl⟩
    · have k := exec_request_frame s.lat _ t e
      exact ⟨k.arb, k.out, k.cfg⟩
  · cases h
    exact ⟨rfl, rfl, rfl⟩

end Sys2Proof.Machine
end

