-- ==== Sys2Proof/Laws/Preserve.lean ====
section
/-! SUPPORT. Each shared operation keeps the invariant. -/

namespace Sys2Proof.Machine

/-- The invariant reads only the units, the chip and the bus. -/
theorem MachineInv.congr {s t : State} (h : MachineInv s) (hc : t.cfg = s.cfg) (hl : t.lat = s.lat) (he : t.eec = s.eec)
    (hg : t.log = s.log) (hp : t.chip = s.chip) (hb : t.bus = s.bus)
    (hi : t.illegalDue = s.illegalDue) (hh : HistoryOk t) : MachineInv t := by
  have hd := dueOp_congr hc hl hg
  refine ⟨?_, ?_, ?_, ?_, ?_, ?_, ?_, ?_, ?_, hh, ?_⟩
  · rw [hc]; exact h.params
  · rw [hp]; exact h.memory
  · unfold PendingOk; rw [hp]; exact h.pending
  · unfold CursorOk; rw [hg, hc]; exact h.cursor
  · unfold LogPhaseOk; rw [hg, hc, hl]; exact h.log
  · unfold DriverPhaseOk; rw [he, hd]; exact h.driver
  · unfold ReplyOk; rw [he, hb, hd]; exact h.reply
  · unfold WindowOk LatchWindow; rw [he, hb, hd, hp, hc]; exact h.window
  · unfold PollCountOk; rw [hc, he]; exact h.poll
  · unfold IllegalOk reqReady; rw [hi, he, hg, hl]; exact h.illegal

/-- `CEILING` for every legal `SPH` (rules R9, R10). -/
theorem ceiling_bounds (c : Params) : 32 ≤ ceiling c ∧ ceiling c ≤ 488 := by
  unfold ceiling slotCount headerSize; cases c.sph <;> simp [Sph.toNat]

/-- While EEC is idle only few parts of the invariant say something. -/
theorem MachineInv.ofIdle {s : State} (hc : s.cfg.wf = true) (hm : Memory.wf s.chip.mem) (hp : PendingOk s) (hcu : CursorOk s)
   (hl : LogPhaseOk s) (he : s.eec.state = .idle) (hr : s.bus.reply = none) (hpo : PollCountOk s) (hh : HistoryOk s) (hi : IllegalOk s) : MachineInv s := by
  refine ⟨hc, hm, hp, hcu, hl, ?_, ?_, ?_, hpo, hh, hi⟩
  · intro h; exact absurd he h
  · intro r h; rw [hr] at h; cases h
  · unfold WindowOk; simp [he]

/-- With no LOG operation in progress the latched operation is due. -/
theorem dueOp_latched {s : State} (h : s.log.state = .idle) : dueOp s = if isDriverOp (decodeRequest s.lat) then some (decodeRequest s.lat) else none := by
  unfold dueOp; rw [h]

/-- The frame that is due, by phase. -/
theorem dueFrame_of_phase {s : State} {f : Instr} (hf : dueFrame s = some f) :
    s.bus.reply = none ∧
    ((s.eec.state = .poll ∧ f = .rdsr) ∨ (s.eec.state = .wren ∧ f = .wren) ∨
      (s.eec.state = .xfer ∧ ∃ op, dueOp s = some op ∧ finalFrame op = some f)) := by
  unfold dueFrame at hf
  split at hf
  · cases hf
  · rename_i hr
    refine ⟨hr, ?_⟩
    split at hf
    · cases hf
    · cases hf
    · rename_i he; exact .inl ⟨he, by simpa using hf.symm⟩
    · rename_i he; exact .inr (.inl ⟨he, by simpa using hf.symm⟩)
    · rename_i he
      refine .inr (.inr ⟨he, ?_⟩)
      cases hd : dueOp s with
      | none => simp [hd] at hf
      | some op => exact ⟨op, rfl, by simpa [hd] using hf⟩

/-- The opcodes are legal. -/
theorem MachineInv.params_opcodes {s : State} (h : MachineInv s) : s.cfg.opcodes.wf = true := by
  have := h.params
  simp only [Params.wf, Bool.and_eq_true] at this
  exact this.1.2

/-- `POLL_LIMIT` is legal. -/
theorem MachineInv.params_pollLimit {s : State} (h : MachineInv s) : pollLimitOk s.cfg.pollLimit = true := by
  have := h.params
  simp only [Params.wf, Bool.and_eq_true] at this
  exact this.1.1

/-- While an operation is in progress no answer to a reserved code is due. -/
theorem MachineInv.not_due_of_busy {s : State} (h : MachineInv s) (hb : reqReady s = false) : s.illegalDue = false := by
  by_contra hc
  have := (h.illegal (by simpa using hc)).1
  rw [hb] at this; cases this

/-- A state with the same latches that is ready whenever the other is keeps the demand. -/
theorem IllegalOk.mono {s t : State} (h : IllegalOk s) (hd : t.illegalDue = s.illegalDue) (hl : t.lat = s.lat)
    (hr : reqReady s = true → reqReady t = true) : IllegalOk t := by
  intro ht
  rw [hd] at ht
  rw [hl]
  exact ⟨hr (h ht).1, (h ht).2⟩

/-- While EEC is busy no answer to a reserved code is due. -/
theorem MachineInv.not_due_of_driver {s : State} (h : MachineInv s) (hs : s.eec.state ≠ .idle) :
    s.illegalDue = false :=
  h.not_due_of_busy (by simp [reqReady, hs])

/-- With no answer due the demand on it is met. -/
theorem IllegalOk.of_not {s : State} (h : s.illegalDue = false) : IllegalOk s := by
  intro hc; rw [h] at hc; cases hc

/-- The frame that is due decodes to itself and carries at most a page (rule R126). -/
theorem dueFrame_decodes {s : State} (h : MachineInv s) {f : Instr} (hf : dueFrame s = some f) :
    decodeFrame s.cfg.opcodes (frameBytes s.cfg.opcodes f) = .ok f ∧ (∀ a d, f = .write a d → d.length ≤ 16) := by
  have hwf : s.cfg.opcodes.wf = true := h.params_opcodes
  obtain ⟨c1, c2, c3⟩ := decodeFrame_command hwf
  obtain ⟨_, ⟨_, rfl⟩ | ⟨_, rfl⟩ | ⟨he, op, hd, hop⟩⟩ := dueFrame_of_phase hf
  · exact ⟨c2, by simp⟩
  · exact ⟨c3, by simp⟩
  · obtain ⟨op', hd', hdrv, _, _, hpage⟩ := h.driver (by simp [he])
    rw [hd] at hd'; cases hd'
    cases op
    case writePage =>
      simp [finalFrame] at hop; subst hop
      obtain ⟨h0, h1⟩ := hpage _ _ _ rfl
      have h2 := (maxSize_bounds _).2.trans' h1
      have hl := fun hh => h0 (BitVec.eq_of_toNat_eq hh)
      simp at hl
      refine ⟨decodeFrame_write hwf _ _ ?_, ?_⟩
      · simp [writeFrameLengthOk]; omega
      · rintro a' d' h; cases h; simp
    all_goals simp [finalFrame] at hop
    all_goals subst hop
    · exact ⟨c2, by simp⟩
    · exact ⟨c3, by simp⟩
    · exact ⟨c1, by simp⟩
    · exact ⟨decodeFrame_read hwf _, by simp⟩
    · exact ⟨decodeFrame_write hwf _ _ (by simp [writeFrameLengthOk]), by simp⟩

/-- The exchange that is due keeps the invariant. -/
theorem exchange_inv {s : State} (h : MachineInv s) {f : Instr} (hf : dueFrame s = some f) {t : State} (ht : exec f s = .next t) : MachineInv t := by
  obtain ⟨hr, hcase⟩ := dueFrame_of_phase hf
  have hlen := (dueFrame_decodes h hf).2
  obtain ⟨R, hR, hRmem, hRpend, hP, hW, hX⟩ : ∃ R : Chip × List Byte, t = exchange f R s ∧ R.1.mem = s.chip.mem ∧ PendingOk (s.withChip R.1)
      ∧ (s.eec.state = .poll → ∃ b, R.2 = [b] ∧ busyBit s.cfg b = s.chip.wip ∧ R.1.wip = s.chip.wip)
      ∧ (s.eec.state = .wren → frameBytes s.cfg.opcodes f = [s.cfg.opcodes.wren] ∧ R.2 = [] ∧ (s.chip.wip = false → R.1.wip = false ∧ R.1.wel = true))
      ∧ (s.eec.state = .xfer → ∃ op, dueOp s = some op ∧ R.2.length = receives op) := by
    have hp := h.pending
    rcases hcase with ⟨he, rfl⟩ | ⟨he, rfl⟩ | ⟨he, op, hd, hop⟩
    · cases ht; refine ⟨_, rfl, rfl, hp, ?_, by simp [he], by simp [he]⟩
      intro _; exact ⟨_, rfl, busyBit_statusByte _ _ _ _, rfl⟩
    · cases ht; refine ⟨_, rfl, ?_, ?_, by simp [he], ?_, by simp [he]⟩
      · unfold reactWren; split <;> rfl
      · unfold reactWren; split <;> exact hp
      · intro _; refine ⟨rfl, rfl, ?_⟩
        intro hw; simp [reactWren, hw]
    · have key : ∀ a d, f = .write a d → receives op = 0 → ∃ R : Chip × List Byte, t = exchange f R s ∧ R.1.mem = s.chip.mem ∧ PendingOk (s.withChip R.1) ∧ (s.eec.state = .xfer → ∃ op, dueOp s = some op ∧ R.2.length = receives op) := by
        rintro a d rfl h0
        cases ht; refine ⟨_, rfl, ?_, ?_, ?_⟩
        · unfold reactWrite; split <;> rfl
        · unfold reactWrite; split
          · refine ⟨?_, ?_⟩
            · simp [Chip.endExchange]
            · simp [Chip.endExchange, writePairs_length]; exact hlen a d rfl
          · exact hp
        · intro _; exact ⟨op, hd, by rw [h0]; rfl⟩
      have key2 : ∃ R : Chip × List Byte, t = exchange f R s ∧ R.1.mem = s.chip.mem ∧ PendingOk (s.withChip R.1) ∧ (s.eec.state = .xfer → ∃ op, dueOp s = some op ∧ R.2.length = receives op) := by
        cases op <;> simp [finalFrame] at hop <;> subst hop
        · cases ht; exact ⟨_, rfl, rfl, hp, fun _ => ⟨_, hd, rfl⟩⟩
        · cases ht; refine ⟨_, rfl, ?_, ?_, fun _ => ⟨_, hd, rfl⟩⟩ <;> unfold reactWren <;> split <;> first | rfl | exact hp
        · cases ht; exact ⟨_, rfl, rfl, hp, fun _ => ⟨_, hd, rfl⟩⟩
        · cases ht; exact ⟨_, rfl, rfl, hp, fun _ => ⟨_, hd, rfl⟩⟩
        · exact key _ _ rfl rfl
        · exact key _ _ rfl rfl
      obtain ⟨R, a, b, c, d⟩ := key2
      exact ⟨R, a, b, c, by simp [he], by simp [he], d⟩
  have hdel : ∀ u : State, u.cfg = s.cfg → u.lat = s.lat → u.log = s.log → dueOp u = dueOp s := fun u a b c => dueOp_congr a b c
  by_cases hfa : s.busIn.fault = true
  · have ht' : t = (s.withChip (s.chip.faulted s.busIn (addressedPairs f))).withBus { frame := frameBytes s.cfg.opcodes f, reply := some .fault } := by
      rw [hR]; simp [exchange, hfa]
    have hd : dueOp t = dueOp s := by subst ht'; exact hdel _ rfl rfl rfl
    subst ht'
    refine ⟨h.params, ?_, ?_, h.cursor, h.log, ?_, ?_, ?_, h.poll, h.history, h.illegal⟩
    · exact Chip.faulted_wf _ _ _ h.memory
    · have hp := h.pending
      have hap : (addressedPairs f).length ≤ 16 := by
        cases f <;> simp [addressedPairs, writePairs_length]
        exact hlen _ _ rfl
      have hl : (landedPairs s.busIn (addressedPairs f)).length ≤ 16 := by
        unfold landedPairs
        rw [List.length_map]
        exact (List.length_filter_le _ _).trans (by simpa using hap)
      unfold PendingOk at *
      simp only [State.withBus_chip, State.withChip_chip]
      unfold Chip.faulted
      split
      · exact ⟨by simp, hl⟩
      · exact hp
    · have := h.driver; unfold DriverPhaseOk at *; rw [hd]; exact this
    · intro r hr'
      simp at hr'; subst hr'
      rcases hcase with ⟨he, _⟩ | ⟨he, _⟩ | ⟨he, _⟩ <;> simp [he]
    · unfold WindowOk; simp
      intro hs
      rcases hcase with ⟨he, _⟩ | ⟨he, _⟩ | ⟨he, _⟩ <;> simp [he] at hs
  · have ht' : t = (s.withChip R.1).withBus { frame := frameBytes s.cfg.opcodes f, reply := some (.ok R.2) } := by
      rw [hR]; simp [exchange, hfa]
    have hd : dueOp t = dueOp s := by subst ht'; exact hdel _ rfl rfl rfl
    subst ht'
    refine ⟨h.params, ?_, hRpend, h.cursor, h.log, ?_, ?_, ?_, h.poll, h.history, h.illegal⟩
    · simpa [hRmem] using h.memory
    · have := h.driver; unfold DriverPhaseOk at *; rw [hd]; exact this
    · intro r hr'
      simp at hr'; subst hr'
      rcases hcase with ⟨he, _⟩ | ⟨he, _⟩ | ⟨he, _⟩
      · obtain ⟨b, hb, _⟩ := hP he; simp [he, hb]
      · obtain ⟨_, hb, _⟩ := hW he; simp [he, hb]
      · obtain ⟨op, ho, hb⟩ := hX he
        refine .inr (.inr ⟨by simp [he], .inr ⟨_, op, rfl, by rw [hd, ho], hb⟩⟩)
    · unfold WindowOk
      rcases hcase with ⟨he, _⟩ | ⟨he, _⟩ | ⟨he, _⟩
      · obtain ⟨b, hb, hbb, hw⟩ := hP he; simp [he, hb]
        intro e2; rw [hw, ← hbb, e2]
      · obtain ⟨hfb, hb, hw⟩ := hW he; simp [he, hb]
        have := (h.window.2.1 he hr)
        exact ⟨(hw this).1, (hw this).2, hfb⟩
      · simp [he]

/-- A fill burst is not empty, fits its page and stays below the ceiling (rule R182). -/
theorem fillBurst_facts {c : Params} {x : BitVec 10} (h : x.toNat < ceiling c) :
    1 ≤ fillBurst c x ∧ fillBurst c x ≤ 16 ∧ fillBurst c x ≤ 16 - x.toNat % 16 ∧ x.toNat + fillBurst c x ≤ ceiling c := by
  unfold fillBurst pageSize; omega

/-- What LOG does with an ended sub-operation keeps the invariant. -/
theorem logReceive_inv {s : State} (h : MachineInv s) (hi : s.illegalDue = false) (he : s.eec.state = .idle) (hr : s.bus.reply = none)
    (hf : s.log.state = .fill → s.log.fillAddr.toNat < ceiling s.cfg)
    (ht : s.log.state = .tsread → s.log.tsK.toNat < 8) (st) (d) : MachineInv (logReceive st d s) := by
  have hb := ceiling_bounds s.cfg
  have hlog := h.log
  have hcur := h.cursor
  have key : ∀ u : State, SequencerFrame s u → u.eec = s.eec → u.bus = s.bus → CursorOk u → LogPhaseOk u → MachineInv u := by
    intro u hu h1 h2 h3 h4
    apply MachineInv.ofIdle
    · rw [hu.cfg]; exact h.params
    · rw [hu.chip]; exact h.memory
    · unfold PendingOk; rw [hu.chip]; exact h.pending
    · exact h3
    · exact h4
    · rw [h1]; exact he
    · rw [h2]; exact hr
    · unfold PollCountOk; rw [h1, hu.cfg]; exact h.poll
    · unfold HistoryOk; rw [hu.arb]; exact h.history
    · exact .of_not (hu.illegalDue.trans hi)
  apply key _ (logReceive_frame _ _ _)
  all_goals unfold logReceive
  · split
    · split <;> rfl
    · rfl
  · split
    · split <;> rfl
    · rfl
  · split
    · split
      · exact hcur
      · exact hcur
      · exact hcur
      · rename_i hs
        unfold LogPhaseOk at hlog; rw [hs] at hlog
        obtain ⟨_, h1, h2⟩ := hlog
        unfold CursorOk endLog; right
        simp [respond]
        simp only [headerSize] at *; omega
      · exact hcur
      · exact hcur
    · exact hcur
  · split
    · split
      · exact hlog
      · rename_i hs
        unfold LogPhaseOk at hlog ⊢; rw [hs] at hlog
        simp [headerSize, hlog]; omega
      · rename_i hs
        have hf' := hf hs
        obtain ⟨_, h2, _, h4⟩ := fillBurst_facts hf'
        unfold LogPhaseOk at hlog ⊢; rw [hs] at hlog
        simp [hs, hlog, BitVec.toNat_add]
        omega
      · trivial
      · trivial
      · rename_i hs
        have := ht hs
        unfold LogPhaseOk at hlog ⊢; rw [hs] at hlog
        simp [hs, hlog, BitVec.toNat_add]; omega
    · trivial

/-- EEC going idle with no reply keeps the invariant. -/
theorem endPhase_inv {s : State} (h : MachineInv s) : MachineInv ((s.withEec { s.eec with state := .idle }).withBus { s.bus with reply := none }) := by
  apply MachineInv.ofIdle
  · exact h.params
  · exact h.memory
  · exact h.pending
  · exact h.cursor
  · exact h.log
  · rfl
  · rfl
  · have := h.poll; unfold PollCountOk at *; simp; split <;> simp_all
  · exact h.history
  · exact h.illegal.mono rfl rfl fun hr => (reqReady_iff _).mpr ⟨rfl, ((reqReady_iff s).mp hr).2⟩

/-- A response keeps the invariant. -/
theorem respond_inv {s : State} (h : MachineInv s) (st d) : MachineInv (respond st d s) :=
  MachineInv.congr h rfl rfl rfl rfl rfl rfl rfl h.history

/-- The end of an EEC operation keeps the invariant. -/
theorem endDriver_inv {s : State} (h : MachineInv s) (hi : s.illegalDue = false)
    (hd : s.log.state ≠ .idle → (dueOp s).isSome) (st d) : MachineInv (endDriver st d s) := by
  unfold endDriver
  dsimp only
  split
  · exact respond_inv (endPhase_inv h) _ _
  · rename_i hl
    apply logReceive_inv (endPhase_inv h) hi rfl rfl
    · intro hs
      have := hd hl
      unfold dueOp at this; simp at hs; rw [hs] at this
      by_contra hc; simp at hc; simp [Nat.not_lt.mpr hc] at this
    · intro hs
      have := hd hl
      unfold dueOp at this; simp at hs; rw [hs] at this
      by_contra hc; simp at hc; simp [Nat.not_lt.mpr hc] at this

/-- A change of phase leaves the due operation. -/
theorem gotoPhase_due (p) (s : State) : dueOp (gotoPhase p s) = dueOp s := dueOp_congr rfl rfl rfl

/-- A change of phase keeps the invariant if the new phase has what it relies on. -/
theorem gotoPhase_inv {s : State} (h : MachineInv s) (hs : s.eec.state ≠ .idle) (p : EecState)
   (hpoll : p = .poll → ∀ op, dueOp s = some op → polls op = true)
   (hpc : p = .poll → ∀ l, s.cfg.pollLimit = some l → s.eec.pollCount < l)
   (hw : p = .wren ∨ p = .settle → ∀ op, dueOp s = some op → writes op = true)
   (h1 : p = .wren → s.chip.wip = false) (h2 : p = .settle → LatchWindow s)
   (h3 : p = .xfer → ∀ op, dueOp s = some op → (polls op = true → s.chip.wip = false) ∧ (writes op = true → LatchWindow s)) :
   MachineInv (gotoPhase p s) := by
  refine ⟨h.params, h.memory, h.pending, h.cursor, h.log, ?_, ?_, ?_, ?_, h.history, .of_not (h.not_due_of_driver hs)⟩
  · intro _
    obtain ⟨op, a, b, c, d, e⟩ := h.driver hs
    refine ⟨op, by rw [gotoPhase_due]; exact a, b, ?_, ?_, e⟩
    · intro hh; exact hpoll hh op a
    · intro hh; exact hw hh op a
  · intro r hr; simp [gotoPhase] at hr
  · unfold WindowOk
    rw [gotoPhase_due]
    refine ⟨by simp [gotoPhase], ?_, by simp [gotoPhase], ?_, ?_, ?_⟩
    · intro a _; exact h1 a
    · intro a; exact h2 a
    · intro op a _ c d; exact (h3 a op c).1 d
    · intro op a _ c d; exact (h3 a op c).2 d
  · have := h.poll
    unfold PollCountOk at *
    cases hn : s.cfg.pollLimit with
    | none => simp [hn] at this; simp [gotoPhase, hn, this]
    | some l => simp [hn] at this; simp [gotoPhase, hn]; exact ⟨this.1, fun a => hpc a l hn⟩

/-- EEC is busy only with an operation. -/
theorem dueOp_isSome {s : State} (h : MachineInv s) (hs : s.eec.state ≠ .idle) : (dueOp s).isSome := by
  obtain ⟨op, a, _⟩ := h.driver hs; simp [a]

/-- A busy answer of the poll keeps the invariant. -/
theorem pollBusy_inv {s : State} (h : MachineInv s) (hs : s.eec.state = .poll) : MachineInv (pollBusy s) := by
  have hne : s.eec.state ≠ .idle := by simp [hs]
  obtain ⟨op0, a0, b0, c0, d0, e0⟩ := h.driver hne
  have hp := h.poll
  have hnd := h.not_due_of_driver hne
  unfold pollBusy
  split
  · rename_i hn
    apply gotoPhase_inv h hne <;> try simp
    · intro op ho; rw [a0] at ho; cases ho; exact c0 hs
    · simp [hn]
  · rename_i l hn
    unfold PollCountOk at hp; rw [hn] at hp; simp at hp
    have hlt := hp.2 hs
    have hi : ∀ (hx : s.eec.pollCount + 1 ≤ l), MachineInv (s.withEec { s.eec with state := .idle, pollCount := s.eec.pollCount + 1 } |>.withBus {s.bus with reply := none}) := by
      intro hx
      apply MachineInv.ofIdle
      · exact h.params
      · exact h.memory
      · exact h.pending
      · exact h.cursor
      · exact h.log
      · rfl
      · rfl
      · unfold PollCountOk; simp [hn]; omega
      · exact h.history
      · exact .of_not hnd
    dsimp only
    split
    · -- endDriver
      unfold endDriver
      dsimp only
      split
      · exact respond_inv (hi (by omega)) _ _
      · unfold logReceive; simp only [reduceCtorEq, if_false]
        have := logReceive_inv (hi (by omega)) hnd rfl rfl (st := .deviceUnresponsive) (d := 0)
        unfold logReceive at this; simp only [reduceCtorEq, if_false] at this
        apply this
        · intro hf; simp at hf
          unfold dueOp at a0; rw [hf] at a0; by_contra hc; simp at hc; simp [Nat.not_lt.mpr hc] at a0
        · intro hf; simp at hf
          unfold dueOp at a0; rw [hf] at a0; by_contra hc; simp at hc; simp [Nat.not_lt.mpr hc] at a0
    · rename_i hlim
      refine ⟨h.params, h.memory, h.pending, h.cursor, h.log, ?_, ?_, ?_, ?_, h.history, .of_not hnd⟩
      · intro _
        refine ⟨op0, ?_, b0, fun _ => c0 hs, ?_, e0⟩
        · rw [gotoPhase_due]; rw [← a0]; exact dueOp_congr rfl rfl rfl
        · simp [gotoPhase]
      · intro r hr; simp [gotoPhase] at hr
      · unfold WindowOk; simp [gotoPhase]
      · unfold PollCountOk; simp [gotoPhase, hn]; omega

/-- A step of EEC keeps the invariant. -/
theorem driverStep_inv {s : State} (h : MachineInv s) : MachineInv (driverStep s) := by
  unfold driverStep
  split
  · exact h
  · rename_i hs
    have hne : s.eec.state ≠ .idle := by simp [hs]
    apply gotoPhase_inv h hne <;> try simp
    have hw := h.window.2.2.2.1 hs
    intro op _; exact ⟨fun _ => hw.1, fun _ => hw⟩
  · rename_i rx hs hr
    have hne : s.eec.state ≠ .idle := by simp [hs]
    split
    · exact pollBusy_inv h hs
    · rename_i hb
      rcases h.reply _ hr with ⟨_, h' | ⟨b, h'⟩⟩ | ⟨h', _⟩ | ⟨h', _⟩
      · cases h'
      · cases h'
        have hwip := h.window.1 b hs hr (by simpa [receivedStatus] using hb)
        obtain ⟨op0, a0, b0, c0, d0, e0⟩ := h.driver hne
        unfold pollDone; rw [a0]; dsimp only
        apply gotoPhase_inv h hne
        · split <;> simp
        · split <;> simp
        · intro hp op ho; rw [a0] at ho; cases ho
          by_contra hc; simp [hc] at hp
        · intro _; exact hwip
        · split <;> simp
        · intro hp op ho; rw [a0] at ho; cases ho
          refine ⟨fun _ => hwip, ?_⟩
          intro hw; simp [hw] at hp
      · rw [hs] at h'; cases h'
      · rw [hs] at h'; cases h'
  · rename_i rx hs hr
    have hne : s.eec.state ≠ .idle := by simp [hs]
    obtain ⟨op0, a0, b0, c0, d0, e0⟩ := h.driver hne
    have hw := h.window.2.2.1 _ hs hr
    apply gotoPhase_inv h hne <;> try simp
    · intro op ho; rw [a0] at ho; cases ho; exact d0 (.inl hs)
    · exact hw
  · rename_i rx hs hr
    exact endDriver_inv h (h.not_due_of_driver (by simp [hs])) (fun _ => dueOp_isSome h (by simp [hs])) _ _
  · rename_i hs hr _ _ _
    have hne : s.eec.state ≠ .idle := by intro hc; simp_all
    exact endDriver_inv h (h.not_due_of_driver hne) (fun _ => dueOp_isSome h hne) _ _
  · exact h

/-- The entry to the poll keeps the invariant. -/
theorem startPoll_inv {s : State} (h : MachineInv s) (hi : s.illegalDue = false) (hr : s.bus.reply = none) {op : Instr} (ho : dueOp s = some op)
   (hdrv : isDriverOp op = true) (hp : polls op = true) (hfit : ∀ a len buf, op = .writePage a len buf → len ≠ 0 ∧ len.toNat ≤ maxSize a) : MachineInv (enterPoll s) := by
  refine ⟨h.params, h.memory, h.pending, h.cursor, h.log, ?_, ?_, ?_, ?_, h.history, .of_not hi⟩
  · intro _
    exact ⟨op, by rw [← ho]; exact dueOp_congr rfl rfl rfl, hdrv, fun _ => hp, by simp [enterPoll], hfit⟩
  · intro r hr'; simp [enterPoll, hr] at hr'
  · unfold WindowOk; simp [enterPoll, hr]
  · have := h.params_pollLimit
    unfold pollLimitOk at this
    unfold PollCountOk
    cases hn : s.cfg.pollLimit with
    | none => simp [enterPoll, hn]
    | some l => simp [hn] at this; simp [enterPoll, hn]; omega

/-- No reply waits while EEC is idle. -/
theorem no_reply_of_idle {s : State} (h : MachineInv s) (he : s.eec.state = .idle) : s.bus.reply = none := by
  cases hr : s.bus.reply with
  | none => rfl
  | some r => rcases h.reply r hr with ⟨a, _⟩ | ⟨a, _⟩ | ⟨a, _⟩ <;> rw [he] at a <;> cases a

/-- The first step of an EEC operation keeps the invariant. -/
theorem startDriver_inv {s : State} (h : MachineInv s) (hi : s.illegalDue = false) (he : s.eec.state = .idle) {op : Instr} (ho : dueOp s = some op) (hdrv : isDriverOp op = true) : MachineInv (startDriver op s) := by
  have hr := no_reply_of_idle h he
  have hx : polls op = false → writes op = false → MachineInv (s.withEec { s.eec with state := .xfer }) := by
    intro hp hw
    refine ⟨h.params, h.memory, h.pending, h.cursor, h.log, ?_, ?_, ?_, ?_, h.history, .of_not hi⟩
    · intro _
      refine ⟨op, by rw [← ho]; exact dueOp_congr rfl rfl rfl, hdrv, by simp, by simp, ?_⟩
      intro a l b hh; subst hh; simp [polls] at hp
    · intro r hr'; simp [hr] at hr'
    · have hd : dueOp (s.withEec { s.eec with state := .xfer }) = some op := by rw [← ho]; exact dueOp_congr rfl rfl rfl
      unfold WindowOk; rw [hd]; simp [hp, hw]
    · have := h.poll
      unfold PollCountOk at *
      cases hn : s.cfg.pollLimit with
      | none => simp [hn] at this; simp [hn, this]
      | some l => simp [hn] at this; simp [hn]; exact this.1
  cases op <;> simp [isDriverOp] at hdrv
  · exact hx rfl rfl
  · exact hx rfl rfl
  · exact hx rfl rfl
  · exact startPoll_inv h hi hr ho rfl rfl (by simp)
  · exact startPoll_inv h hi hr ho rfl rfl (by simp)
  · simp only [startDriver]
    split
    · exact endDriver_inv h hi (fun _ => by simp [ho]) _ _
    · split
      · exact endDriver_inv h hi (fun _ => by simp [ho]) _ _
      · rename_i h1 h2
        refine startPoll_inv h hi hr ho rfl rfl ?_
        intro a l b hh; cases hh; exact ⟨h2, by omega⟩

/-- What is due is an operation of EEC. -/
theorem dueOp_driver {s : State} {op} (ho : dueOp s = some op) : isDriverOp op = true := by
  unfold dueOp at ho
  split at ho
  · split at ho
    · cases ho; assumption
    · cases ho
  · cases ho; rfl
  · split at ho
    · cases ho; rfl
    · cases ho
  · cases ho; rfl
  · cases ho; rfl
  · split at ho
    · cases ho; rfl
    · cases ho

/-- The end of a LOG operation keeps the invariant. -/
theorem endLog_inv {s : State} (h : MachineInv s) (hi : s.illegalDue = false) (he : s.eec.state = .idle) (st d) : MachineInv (endLog st d s) := by
  apply respond_inv
  exact MachineInv.ofIdle (s := s.withLog { s.log with state := .idle }) h.params h.memory h.pending h.cursor trivial he (no_reply_of_idle (s := s) h he) h.poll h.history (.of_not hi)

/-- A step of LOG keeps the invariant. -/
theorem logStep_inv {s : State} (h : MachineInv s) (hi : s.illegalDue = false) (he : s.eec.state = .idle) : MachineInv (logStep s) := by
  have hb := ceiling_bounds s.cfg
  unfold logStep
  split
  · rename_i op ho
    exact startDriver_inv h hi he ho (dueOp_driver ho)
  · split
    · apply respond_inv
      apply MachineInv.ofIdle
      · exact h.params
      · exact h.memory
      · exact h.pending
      · right; simp [headerSize]; omega
      · trivial
      · exact he
      · exact no_reply_of_idle (s := s) h he
      · exact h.poll
      · exact h.history
      · exact .of_not hi
    · exact endLog_inv h hi he _ _
    all_goals exact h

/-- The next step of an operation keeps the invariant. -/
theorem continueOp_inv {s : State} (h : MachineInv s) : MachineInv (continueOp s) := by
  rcases continueOp_cases s with ⟨_, e⟩ | ⟨he, hl, e⟩ | ⟨_, _, e⟩ <;> rw [e]
  · exact driverStep_inv h
  · exact logStep_inv h (h.not_due_of_busy (by simp [reqReady, hl])) he
  · exact h

/-- Latching a request keeps the invariant. -/
theorem latch_inv {s : State} (h : MachineInv s) (hi : s.illegalDue = false) (hr : reqReady s = true) (l : Request) : MachineInv (s.withLat l) := by
  obtain ⟨he, hl⟩ := (reqReady_iff s).mp hr
  exact MachineInv.ofIdle (s := s.withLat l) h.params h.memory h.pending h.cursor (by unfold LogPhaseOk; simp [hl]) he (no_reply_of_idle (s := s) h he) h.poll h.history (.of_not hi)

/-- A LOG phase entered with its demand keeps the invariant. -/
theorem logFirst_inv {s : State} (h : MachineInv s) (hi : s.illegalDue = false) (he : s.eec.state = .idle) (g : LogUnit) (hg : g.cursor = s.log.cursor) (hp : LogPhaseOk (s.withLog g)) : MachineInv (s.withLog g) := by
  exact MachineInv.ofIdle (s := s.withLog g) h.params h.memory h.pending (by have := h.cursor; unfold CursorOk at *; simpa [hg] using this) hp he (no_reply_of_idle (s := s) h he) h.poll h.history (.of_not hi)

/-- A request step keeps the invariant if its first step does. -/
theorem requestStep_inv {s : State} (h : MachineInv s) (hi : reqReady s = true → s.illegalDue = false)
    (op : OpCode) (latch : Request → Request) (first : State → State) 
   (hf : ∀ l : Request, l.op = op → l = { latch s.lat with op := op } → ∀ t, t = s.withLat l → MachineInv t → t.illegalDue = false → t.eec.state = .idle → t.log.state = .idle → MachineInv (first t)) :
   MachineInv (requestStep op latch first s) := by
  rcases requestStep_cases op latch first s with ⟨hr, e⟩ | ⟨_, _, e⟩ | ⟨_, _, e⟩ <;> rw [e]
  · obtain ⟨he, hl⟩ := (reqReady_iff s).mp hr
    exact hf _ rfl rfl _ rfl (latch_inv h (hi hr) hr _) (hi hr) he hl
  · exact continueOp_inv h
  · exact h

/-- An operation of one step keeps the invariant. -/
theorem atOnce_inv {s : State} (h : MachineInv s) (hi : reqReady s = true → s.illegalDue = false)
    (op : OpCode) (latch : Request → Request) (st) (d) : MachineInv (requestAtOnce op latch st d s) := by
  unfold requestAtOnce
  split
  · rename_i hr; exact respond_inv (latch_inv h (hi hr) hr _) _ _
  · exact h

/-- A reserved code's acceptance and its answer keep the invariant. -/
theorem illegal_inv {s : State} (h : MachineInv s) (op : OpCode) (ho : ReservedCode op) :
    MachineInv (requestIllegal op s) := by
  by_cases hr : reqReady s = true
  · obtain ⟨he, hl⟩ := (reqReady_iff s).mp hr
    have hrep := no_reply_of_idle h he
    rcases requestIllegal_cases op s hr with ⟨_, _, e⟩ | e <;> rw [e]
    · exact MachineInv.ofIdle (s := respond .illegalOp 0 (s.withIllegalDue false)) h.params h.memory h.pending h.cursor
        (by unfold LogPhaseOk; simp [hl]) he hrep h.poll h.history (.of_not rfl)
    · exact MachineInv.ofIdle (s := (s.withLat { s.lat with op := op }).withIllegalDue true) h.params h.memory h.pending
        h.cursor (by unfold LogPhaseOk; simp [hl]) he hrep h.poll h.history (fun _ => ⟨hr, ho⟩)
  · rw [show requestIllegal op s = s by simp [requestIllegal, hr]]
    exact h

/-- The chip's completion keeps the invariant. -/
theorem complete_inv {s : State} (h : MachineInv s) : MachineInv (s.withChip s.chip.complete) := by
  by_cases hw : s.chip.wip = true
  · have hne : s.chip.wip ≠ false := by simp [hw]
    have hWin := h.window
    refine ⟨h.params, Chip.complete_wf _ h.memory, ?_, h.cursor, h.log, ?_, ?_, ?_, h.poll, h.history, h.illegal⟩
    · unfold PendingOk; simp [Chip.complete, hw]
    · exact h.driver
    · exact h.reply
    · have hd : dueOp (s.withChip s.chip.complete) = dueOp s := dueOp_congr rfl rfl rfl
      unfold WindowOk LatchWindow at *
      rw [hd]
      obtain ⟨w1, w2, w3, w4, w5, w6⟩ := hWin
      refine ⟨?_, ?_, ?_, ?_, ?_, ?_⟩
      · intros; simp [Chip.complete, hw]
      · intros; simp [Chip.complete, hw]
      · intro rx a b; exact absurd (w3 rx a b).1 hne
      · intro a; exact absurd (w4 a).1 hne
      · intros; simp [Chip.complete, hw]
      · intro op a b c d; exact absurd (w6 op a b c d).1 hne
  · have : s.chip.complete = s.chip := by simp [Chip.complete, hw]
    rw [this]; exact h

/-- A fault leaves a pending write of one burst at most. -/
theorem faulted_pending {s : State} (h : MachineInv s) (d : BusDraw) {f} (hf : dueFrame s = some f) : PendingOk (s.withChip (s.chip.faulted d (addressedPairs f))) := by
  have hlen := (dueFrame_decodes h hf).2
  have hp := h.pending
  have hap : (addressedPairs f).length ≤ 16 := by
    cases f <;> simp [addressedPairs, writePairs_length]
    exact hlen _ _ rfl
  have hl : (landedPairs d (addressedPairs f)).length ≤ 16 := by
    unfold landedPairs
    rw [List.length_map]
    exact (List.length_filter_le _ _).trans (by simpa using hap)
  unfold PendingOk at *
  simp only [State.withChip_chip]
  unfold Chip.faulted
  split
  · exact ⟨by simp, hl⟩
  · exact hp

end Sys2Proof.Machine
end

