-- ==== Sys2Proof/Laws/Runs.lean ====
section
/-! SUPPORT. The parts an operation's run is made of. -/

namespace Sys2Proof.Machine

/-- The sequencer's turn with a frame due is that exchange. -/
theorem sequencerTurn_frame (d : BusDraw) (s : State) (f i : Instr) (h1 : dueFrame s = some f)
    (h2 : decodeFrame s.cfg.opcodes (frameBytes s.cfg.opcodes f) = .ok i) :
    runTurn (.sequencer d) s = exec i (s.withBusIn d) := by
  simp only [runTurn, sequencerTurn]
  show (match dueFrame s with | some f => _ | none => _) = _
  rw [h1]; simp only [decode, State.withBusIn_cfg, h2, runDecoded]

/-- The sequencer's turn with none due is the operation's next step. -/
theorem sequencerTurn_operation (d : BusDraw) (s : State) (h1 : dueFrame s = none) (h2 : reqReady s = false) :
    runTurn (.sequencer d) s = exec (decodeRequest (s.withBusIn d).lat) (s.withBusIn d) := by
  simp only [runTurn, sequencerTurn]
  show (match dueFrame s with | some f => _ | none => if (reqReady s && !s.illegalDue) = true then _ else _) = _
  rw [h1]; simp [h2, decode, runDecoded]

/-- The codes of the operations that take several steps. -/
abbrev RunningCode (op : OpCode) : Prop :=
  op = 0#4 ∨ op = 1#4 ∨ op = 2#4 ∨ op = 3#4 ∨ op = 4#4 ∨ op = 5#4 ∨ op = 8#4 ∨ op = 9#4 ∨ op = 10#4 ∨
    op = 11#4 ∨ op = 12#4

/-- A latched operation that is in progress takes its next step. -/
theorem exec_latched_continues (s : State) (h : reqReady s = false) (ho : RunningCode s.lat.op) :
    exec (decodeRequest s.lat) s = .next (continueOp s) := by
  unfold decodeRequest
  rcases ho with h' | h' | h' | h' | h' | h' | h' | h' | h' | h' | h' <;>
    simp [h', exec, execReadStatus, execWriteEnable, execWriteDisable, execReadByte, execWriteByte, execWritePage,
      execResetLog, execAppendReading, execReadReading,
      execReadLastReading, execReadHeaderTimestamp, requestStep, h]

/-- The step of a request's turn with the port ready. -/
theorem request_step (s : State) (r : Request) (rest : List Turn) (ha : s.agenda = .request r :: rest)
    (hi : s.illegalDue = false) (hr : reqReady s = true) :
    step s = exec (decodeRequest r) ((stepStart s rest).withLat r) := by
  rw [step_agenda _ _ _ ha (.inl hi)]
  simp only [runTurn, requestTurn, reqReady_stepStart, hr, if_true, decode, runDecoded]

/-- The step of the sequencer's turn with no frame due and an operation in progress. -/
theorem operation_step (s : State) (d : BusDraw) (rest : List Turn) (ha : s.agenda = .sequencer d :: rest)
    (hd : dueFrame s = none) (hr : reqReady s = false) (ho : RunningCode s.lat.op) :
    step s = .next (continueOp ((stepStart s rest).withBusIn d)) := by
  rw [step_agenda _ _ _ ha (.inr rfl), sequencerTurn_operation d (stepStart s rest) hd hr]
  exact exec_latched_continues _ hr ho

/-- The step of the sequencer's turn with a frame due. -/
theorem frame_step (s : State) (d : BusDraw) (rest : List Turn) (f i : Instr) (ha : s.agenda = .sequencer d :: rest)
    (hd : dueFrame s = some f) (hi : decodeFrame s.cfg.opcodes (frameBytes s.cfg.opcodes f) = .ok i) :
    step s = exec i ((stepStart s rest).withBusIn d) := by
  rw [step_agenda _ _ _ ha (.inr rfl), sequencerTurn_frame d (stepStart s rest) f i hd hi]

/-- The step of EEC's sequence in a phase with no frame due. -/
theorem phase_step (s : State) (d : BusDraw) (rest : List Turn) (ha : s.agenda = .sequencer d :: rest)
    (hd : dueFrame s = none) (he : s.eec.state ≠ .idle) (ho : RunningCode s.lat.op) :
    step s = .next (driverStep ((stepStart s rest).withBusIn d)) := by
  rw [operation_step s d rest ha hd (by simp [reqReady, he]) ho]
  unfold continueOp
  rw [if_pos (show ((stepStart s rest).withBusIn d).eec.state ≠ .idle from he)]

/-- The step of the chip's turn. -/
theorem chip_step (s : State) (rest : List Turn) (ha : s.agenda = .chip :: rest) (hi : s.illegalDue = false) :
    step s = .next ((stepStart s rest).withChip s.chip.complete) := by
  rw [step_agenda _ _ _ ha (.inl hi)]
  rfl

/-- The step that takes the reply of an operation's last frame ends it. -/
theorem take_step (s : State) (d : BusDraw) (rest : List Turn) (rx : List Byte)
    (ha : s.agenda = .sequencer d :: rest) (he : s.eec.state = .xfer) (hr : s.bus.reply = some (.ok rx))
    (ho : RunningCode s.lat.op) :
    step s = .next (endDriver .ok (receivedData rx) ((stepStart s rest).withBusIn d)) := by
  rw [phase_step s d rest ha (by simp [dueFrame, hr]) (by simp [he]) ho]
  unfold driverStep
  simp only [State.withBusIn_eec, State.withBusIn_bus, stepStart_eec, stepStart_bus, he, hr]

/-- The status exchange of a poll. -/
theorem status_frame_step (s : State) (d : BusDraw) (rest : List Turn) (hc : s.cfg.opcodes.wf = true)
    (he : s.eec.state = .poll) (hr : s.bus.reply = none) (hf : d.fault = false)
    (ha : s.agenda = .sequencer d :: rest) :
    ∃ t, step s = .next t ∧ t.bus.reply = some (.ok [statusByte s.cfg s.chip.wip s.chip.wel d.status]) ∧
      t.eec = s.eec ∧ t.log = s.log ∧ t.lat = s.lat ∧ t.cfg = s.cfg ∧ t.arb = s.arb ∧ t.illegalDue = s.illegalDue ∧
      t.agenda = rest ∧ t.chip = s.chip.endExchange s.cfg := by
  refine ⟨_, frame_step s d rest .rdsr .rdsr ha (by simp [dueFrame, hr, he]) (decodeFrame_command hc).2.1, ?_⟩
  have x := exchange_frame .rdsr (reactRdsr s.cfg d s.chip) ((stepStart s rest).withBusIn d)
  refine ⟨?_, x.eec, x.log, x.lat, x.cfg, x.arb, x.illegalDue, x.agenda, ?_⟩ <;> simp [exchange, reactRdsr, hf]

/-- What a step that only moves EEC's phase leaves. -/
theorem goto_frame (p : EecState) (s : State) (d : BusDraw) (rest : List Turn) :
    (gotoPhase p ((stepStart s rest).withBusIn d)).eec.state = p ∧
    (gotoPhase p ((stepStart s rest).withBusIn d)).bus.reply = none ∧
    (gotoPhase p ((stepStart s rest).withBusIn d)).log = s.log ∧
    (gotoPhase p ((stepStart s rest).withBusIn d)).lat = s.lat ∧
    (gotoPhase p ((stepStart s rest).withBusIn d)).cfg = s.cfg ∧
    (gotoPhase p ((stepStart s rest).withBusIn d)).arb = s.arb ∧
    (gotoPhase p ((stepStart s rest).withBusIn d)).illegalDue = s.illegalDue ∧
    (gotoPhase p ((stepStart s rest).withBusIn d)).agenda = rest ∧
    (gotoPhase p ((stepStart s rest).withBusIn d)).chip = s.chip :=
  ⟨rfl, rfl, rfl, rfl, rfl, rfl, rfl, rfl, rfl⟩

/-- The step that takes a poll's answer, of an idle chip: the poll is over. -/
theorem poll_take_step (s : State) (d : BusDraw) (rest : List Turn) (op : Instr) (b : Byte)
    (ha : s.agenda = .sequencer d :: rest) (he : s.eec.state = .poll) (hr : s.bus.reply = some (.ok [b]))
    (hb : busyBit s.cfg b = false) (hd : dueOp s = some op) (ho : RunningCode s.lat.op) :
    step s = .next (gotoPhase (if writes op then .wren else .xfer) ((stepStart s rest).withBusIn d)) := by
  rw [phase_step s d rest ha (by simp [dueFrame, hr]) (by simp [he]) ho]
  unfold driverStep
  simp only [State.withBusIn_eec, State.withBusIn_bus, stepStart_eec, stepStart_bus, he, hr]
  rw [show busyBit ((stepStart s rest).withBusIn d).cfg (receivedStatus [b]) = false from hb, if_neg (by simp)]
  unfold pollDone
  rw [show dueOp ((stepStart s rest).withBusIn d) = some op from hd]

/-- The poll of an idle chip: the status exchange and the step that takes its answer. -/
theorem poll_run (s : State) (hc : s.cfg.opcodes.wf = true) (d1 d2 : BusDraw) (rest : List Turn) (op : Instr)
    (he : s.eec.state = .poll) (hr : s.bus.reply = none) (hd : dueOp s = some op) (ho : RunningCode s.lat.op)
    (hf : d1.fault = false) (hw : s.chip.wip = false) (ha : s.agenda = .sequencer d1 :: .sequencer d2 :: rest) :
    ∃ t, runSteps 2 s = .next t ∧ t.eec.state = (if writes op then .wren else .xfer) ∧ t.bus.reply = none ∧
      t.lat = s.lat ∧ t.log = s.log ∧ t.arb = s.arb ∧ t.cfg = s.cfg ∧ t.illegalDue = s.illegalDue ∧ t.agenda = rest ∧
      t.chip.wip = false ∧ t.chip.mem = s.chip.mem ∧ t.chip.pending = s.chip.pending := by
  obtain ⟨u, e1, u1, u2, u3, u4, u5, u6, u7, u8, u9⟩ := status_frame_step s d1 _ hc he hr hf ha
  have e2 := poll_take_step u d2 rest op _ u8 (by rw [u2]; exact he) u1
    (by rw [u5, busyBit_statusByte]; exact hw) (by rw [← hd]; exact dueOp_congr u5 u4 u3) (by rw [u4]; exact ho)
  obtain ⟨v1, v2, v3, v4, v5, v6, v7, v8, v9⟩ := goto_frame (if writes op then .wren else .xfer) u d2 rest
  refine ⟨_, runSteps_append 1 1 (runSteps_one e1) (runSteps_one e2), v1, v2, v4.trans u4, v3.trans u3, v6.trans u6,
    v5.trans u5, v7.trans u7, v8, ?_⟩
  rw [v9, u9]
  exact ⟨hw, rfl, rfl⟩

/-- The enable exchange of an idle chip. -/
theorem enable_frame_step (s : State) (d : BusDraw) (rest : List Turn) (hc : s.cfg.opcodes.wf = true)
    (he : s.eec.state = .wren) (hr : s.bus.reply = none) (hf : d.fault = false) (hw : s.chip.wip = false)
    (ha : s.agenda = .sequencer d :: rest) :
    ∃ t, step s = .next t ∧ t.bus.reply = some (.ok []) ∧
      t.eec = s.eec ∧ t.log = s.log ∧ t.lat = s.lat ∧ t.cfg = s.cfg ∧ t.arb = s.arb ∧ t.illegalDue = s.illegalDue ∧
      t.agenda = rest ∧ t.chip = { s.chip with wel := true } := by
  refine ⟨_, frame_step s d rest .wren .wren ha (by simp [dueFrame, hr, he]) (decodeFrame_command hc).2.2, ?_⟩
  have x := exchange_frame .wren (reactWren s.cfg s.chip) ((stepStart s rest).withBusIn d)
  refine ⟨?_, x.eec, x.log, x.lat, x.cfg, x.arb, x.illegalDue, x.agenda, ?_⟩ <;> simp [exchange, reactWren, hf, hw]

/-- The enable's reply, and then the end of the settle wait: two turns of the sequencer. -/
theorem settle_run (s : State) (d1 d2 : BusDraw) (rest : List Turn) (rx : List Byte) (he : s.eec.state = .wren)
    (hr : s.bus.reply = some (.ok rx)) (ho : RunningCode s.lat.op)
    (ha : s.agenda = .sequencer d1 :: .sequencer d2 :: rest) :
    ∃ t, runSteps 2 s = .next t ∧ t.eec.state = .xfer ∧ t.bus.reply = none ∧ t.log = s.log ∧ t.lat = s.lat ∧
      t.cfg = s.cfg ∧ t.arb = s.arb ∧ t.illegalDue = s.illegalDue ∧ t.agenda = rest ∧ t.chip = s.chip := by
  have e1 : step s = .next (gotoPhase .settle ((stepStart s (.sequencer d2 :: rest)).withBusIn d1)) := by
    rw [phase_step s d1 _ ha (by simp [dueFrame, hr]) (by simp [he]) ho]
    unfold driverStep
    simp only [State.withBusIn_eec, State.withBusIn_bus, stepStart_eec, stepStart_bus, he, hr]
  obtain ⟨v1, v2, v3, v4, v5, v6, v7, v8, v9⟩ := goto_frame .settle s d1 (.sequencer d2 :: rest)
  generalize gotoPhase .settle ((stepStart s (.sequencer d2 :: rest)).withBusIn d1) = v at *
  have e2 : step v = .next (gotoPhase .xfer ((stepStart v rest).withBusIn d2)) := by
    rw [phase_step v d2 _ v8 (by simp [dueFrame, v1, v2]) (by simp [v1]) (by rw [v4]; exact ho)]
    unfold driverStep
    simp only [State.withBusIn_eec, stepStart_eec, v1]
  obtain ⟨w1, w2, w3, w4, w5, w6, w7, w8, w9⟩ := goto_frame .xfer v d2 rest
  exact ⟨_, runSteps_append 1 1 (runSteps_one e1) (runSteps_one e2), w1, w2, w3.trans v3, w4.trans v4, w5.trans v5,
    w6.trans v6, w7.trans v7, w8, w9.trans v9⟩

/-- The exchange of a write frame that the chip takes. -/
theorem write_frame_step (s : State) (d : BusDraw) (rest : List Turn) (op : Instr) (a : Addr) (data : List Byte)
    (hc : s.cfg.opcodes.wf = true) (he : s.eec.state = .xfer) (hr : s.bus.reply = none) (hd : dueOp s = some op)
    (hff : finalFrame op = some (.write a data)) (hwf : writeFrameLengthOk data = true) (hf : d.fault = false)
    (hw : s.chip.wip = false) (hl : s.chip.wel = true) (ha : s.agenda = .sequencer d :: rest) :
    ∃ t, step s = .next t ∧ t.bus.reply = some (.ok []) ∧
      t.eec = s.eec ∧ t.log = s.log ∧ t.lat = s.lat ∧ t.cfg = s.cfg ∧ t.arb = s.arb ∧ t.illegalDue = s.illegalDue ∧
      t.agenda = rest ∧ t.chip.wip = true ∧ t.chip.mem = s.chip.mem ∧ t.chip.pending = writePairs a data := by
  refine ⟨_, frame_step s d rest (.write a data) (.write a data) ha (by simp [dueFrame, hr, he, hd, hff])
    (decodeFrame_write hc a data hwf), ?_⟩
  have x := exchange_frame (.write a data) (reactWrite s.cfg (writePairs a data) s.chip) ((stepStart s rest).withBusIn d)
  refine ⟨?_, x.eec, x.log, x.lat, x.cfg, x.arb, x.illegalDue, x.agenda, ?_, ?_, ?_⟩ <;>
    simp [exchange, reactWrite, hf, hw, hl, Chip.endExchange]

/-- From the enable frame to the write frame's reply: enable, its reply, the settle wait, the write. -/
theorem write_run (s : State) (hc : s.cfg.opcodes.wf = true) (d1 d2 d3 d4 : BusDraw) (rest : List Turn) (op : Instr)
    (a : Addr) (data : List Byte) (he : s.eec.state = .wren) (hr : s.bus.reply = none) (hd : dueOp s = some op)
    (hff : finalFrame op = some (.write a data)) (hwf : writeFrameLengthOk data = true) (ho : RunningCode s.lat.op)
    (hf1 : d1.fault = false) (hf4 : d4.fault = false) (hw : s.chip.wip = false)
    (ha : s.agenda = .sequencer d1 :: .sequencer d2 :: .sequencer d3 :: .sequencer d4 :: rest) :
    ∃ t, runSteps 4 s = .next t ∧ t.eec.state = .xfer ∧ t.bus.reply = some (.ok []) ∧ t.lat = s.lat ∧ t.log = s.log ∧
      t.arb = s.arb ∧ t.cfg = s.cfg ∧ t.illegalDue = s.illegalDue ∧ t.agenda = rest ∧ t.chip.wip = true ∧
      t.chip.mem = s.chip.mem ∧ t.chip.pending = writePairs a data := by
  obtain ⟨u, e1, u1, u2, u3, u4, u5, u6, u7, u8, u9⟩ := enable_frame_step s d1 _ hc he hr hf1 hw ha
  obtain ⟨w, e2, w1, w2, w4, w3, w6, w5, w7, w9, w8⟩ := settle_run u d2 d3 _ [] (by rw [u2]; exact he) u1
    (by rw [u4]; exact ho) u8
  obtain ⟨t, e4, t1, t2, t3, t4, t5, t6, t7, t8, t9, t10, t11⟩ := write_frame_step w d4 rest op a data
    (by rw [w6, u5]; exact hc) w1 w2 (by rw [← hd]; exact dueOp_congr (w6.trans u5) (w3.trans u4) (w4.trans u3))
    hff hwf hf4 (by rw [w8, u9]; exact hw) (by rw [w8, u9]) w9
  exact ⟨t, runSteps_append 1 3 (runSteps_one e1) (runSteps_append 2 1 e2 (runSteps_one e4)), by rw [t2]; exact w1, t1,
    (t4.trans w3).trans u4, (t3.trans w4).trans u3, (t6.trans w5).trans u6, (t5.trans w6).trans u5,
    (t7.trans w7).trans u7, t8, t9, by rw [t10, w8, u9], t11⟩

/-- A LOG operation's sub-operation starts with its poll. -/
theorem sub_start_step (s : State) (d : BusDraw) (rest : List Turn) (op : Instr)
    (ha : s.agenda = .sequencer d :: rest) (he : s.eec.state = .idle) (hl : s.log.state ≠ .idle)
    (ho : RunningCode s.lat.op) (hd : dueOp s = some op) (hs : ∀ u, startDriver op u = enterPoll u) :
    step s = .next (enterPoll ((stepStart s rest).withBusIn d)) := by
  rw [operation_step s d rest ha ?_ ?_ ho]
  · congr 1
    unfold continueOp
    rw [if_neg (by simp [he]), if_pos (show (stepStart s rest |>.withBusIn d).log.state ≠ .idle from hl)]
    unfold logStep
    rw [show dueOp ((stepStart s rest).withBusIn d) = some op from hd]
    exact hs _
  · unfold dueFrame
    split
    · rfl
    · rw [he]
  · simp [reqReady, he, hl]

/-- The end of a sub-operation in a state of LOG: EEC is idle, and LOG has moved on. -/
theorem endDriver_sub (data : BitVec 64) (s : State) (h : s.log.state ≠ .idle) :
    (endDriver .ok data s).eec.state = .idle ∧ (endDriver .ok data s).bus.reply = none ∧
    (endDriver .ok data s).log = (logReceive .ok data s).log := by
  rw [endDriver_called _ _ _ h]
  unfold logReceive
  simp only [if_true]
  split <;> simp_all [endLog, respond]

/-- The start and the poll of a LOG operation's sub-operation: three turns of the sequencer. -/
theorem sub_poll_run (s : State) (d0 d1 d2 : BusDraw) (rest : List Turn) (op : Instr)
    (hc : s.cfg.opcodes.wf = true) (he : s.eec.state = .idle) (hr : s.bus.reply = none) (hl : s.log.state ≠ .idle)
    (ho : RunningCode s.lat.op) (hd : dueOp s = some op) (hs : ∀ u, startDriver op u = enterPoll u)
    (hwip : s.chip.wip = false) (hf : d1.fault = false) (ha : s.agenda = .sequencer d0 :: .sequencer d1 :: .sequencer d2 :: rest) :
    ∃ t, runSteps 3 s = .next t ∧ t.eec.state = (if writes op then .wren else .xfer) ∧ t.bus.reply = none ∧
      dueOp t = some op ∧ t.lat = s.lat ∧ t.log = s.log ∧ t.arb = s.arb ∧ t.cfg = s.cfg ∧
      t.illegalDue = s.illegalDue ∧ t.agenda = rest ∧ t.chip.wip = false ∧ t.chip.mem = s.chip.mem := by
  have e1 := sub_start_step s d0 _ op ha he hl ho hd hs
  generalize g1 : enterPoll ((stepStart s (.sequencer d1 :: .sequencer d2 :: rest)).withBusIn d0) = s1 at e1
  have due1 : dueOp s1 = some op := by rw [← hd, ← g1]; exact dueOp_congr rfl rfl rfl
  obtain ⟨t, r2, p1, p2, p3, p4, p5, p6, pi, p7, p8, p9, _⟩ := poll_run s1 (by rw [← g1]; exact hc) d1 d2 rest op
    (by rw [← g1]; rfl) (by rw [← g1]; exact hr) due1 (by rw [← g1]; exact ho) hf (by rw [← g1]; exact hwip)
    (by rw [← g1]; rfl)
  refine ⟨t, runSteps_append 1 2 (runSteps_one e1) r2, p1, p2, by rw [← due1]; exact dueOp_congr p6 p3 p4, ?_⟩
  subst g1
  exact ⟨p3, p4, p5, p6, pi, p7, p8, p9⟩

/-- The last step of a sub-operation's run: its frame's reply is taken, and LOG moves on. -/
theorem sub_take_step (s : State) (d : BusDraw) (rest : List Turn) (rx : List Byte)
    (ha : s.agenda = .sequencer d :: rest) (he : s.eec.state = .xfer) (hr : s.bus.reply = some (.ok rx))
    (hl : s.log.state ≠ .idle) (ho : RunningCode s.lat.op) :
    ∃ v w, step s = .next w ∧ w = endDriver .ok (receivedData rx) v ∧ v.log = s.log ∧ v.cfg = s.cfg ∧
      w.eec.state = .idle ∧ w.bus.reply = none ∧ w.log = (logReceive .ok (receivedData rx) v).log ∧
      w.lat = s.lat ∧ w.cfg = s.cfg ∧ w.arb = s.arb ∧ w.illegalDue = s.illegalDue ∧ w.agenda = rest ∧
      w.chip = s.chip := by
  have fr := endDriver_frame .ok (receivedData rx) ((stepStart s rest).withBusIn d)
  obtain ⟨z1, z2, z3⟩ := endDriver_sub (receivedData rx) ((stepStart s rest).withBusIn d) hl
  exact ⟨(stepStart s rest).withBusIn d, _, take_step s d rest rx ha he hr ho, rfl, rfl, rfl, z1, z2, z3,
    fr.lat, fr.cfg, fr.arb, fr.illegalDue, fr.agenda, fr.chip⟩

/-- The exchange of a read frame. -/
theorem read_frame_step (s : State) (d : BusDraw) (rest : List Turn) (a : Addr) (hc : s.cfg.opcodes.wf = true)
    (he : s.eec.state = .xfer) (hr : s.bus.reply = none) (hd : dueOp s = some (.readByte a))
    (hwip : s.chip.wip = false) (hf : d.fault = false) (ha : s.agenda = .sequencer d :: rest) :
    ∃ t, step s = .next t ∧ t.bus.reply = some (.ok [s.chip.byteAt a]) ∧ t.eec = s.eec ∧ t.log = s.log ∧
      t.lat = s.lat ∧ t.cfg = s.cfg ∧ t.arb = s.arb ∧ t.illegalDue = s.illegalDue ∧ t.agenda = rest ∧
      t.chip.wip = false ∧ t.chip.mem = s.chip.mem := by
  have e := step_agenda s _ _ ha (.inr rfl)
  rw [sequencerTurn_frame d (stepStart s rest) (.read a) (.read a)
    (show dueFrame s = _ by simp [dueFrame, hr, he, hd, finalFrame]) (decodeFrame_read hc a)] at e
  refine ⟨_, e, ?_⟩
  have x := exchange_frame (.read a) (reactRead s.cfg d a s.chip) ((stepStart s rest).withBusIn d)
  refine ⟨?_, x.eec, x.log, x.lat, x.cfg, x.arb, x.illegalDue, x.agenda, ?_, ?_⟩ <;>
    simp [exchange, reactRead, hf, hwip, Chip.endExchange]

/-- A LOG operation's page or byte write, and the chip's completion: eight turns of the sequencer and one of the
chip. -/
theorem sub_write_run (s : State) (ds : List BusDraw) (rest : List Turn) (op : Instr) (a : Addr) (data : List Byte)
    (hc : s.cfg.opcodes.wf = true) (hi : s.illegalDue = false) (he : s.eec.state = .idle) (hr : s.bus.reply = none)
    (hl : s.log.state ≠ .idle) (ho : s.lat.op = 8#4 ∨ s.lat.op = 9#4) (hd : dueOp s = some op)
    (hs : ∀ u, startDriver op u = enterPoll u) (hw : writes op = true) (hff : finalFrame op = some (.write a data))
    (hdata : writeFrameLengthOk data = true) (hwip : s.chip.wip = false) (hlen : ds.length = 8)
    (hf : ∀ d ∈ ds, d.fault = false) (ha : s.agenda = ds.map .sequencer ++ .chip :: rest) :
    ∃ v u w, runSteps 8 s = .next u ∧ runSteps 9 s = .next w ∧ u = endDriver .ok 0 v ∧
      v.log = s.log ∧ v.cfg = s.cfg ∧
      w.eec.state = .idle ∧ w.bus.reply = none ∧ w.log = (logReceive .ok 0 v).log ∧ w.log = u.log ∧ w.eec = u.eec ∧
      w.lat = s.lat ∧ w.cfg = s.cfg ∧ w.arb = s.arb ∧ w.illegalDue = false ∧ w.agenda = rest ∧
      w.chip.wip = false ∧ w.chip.mem = storePairs s.chip.mem (writePairs a data) := by
  match ds, hlen with
  | [d0, d1, d2, d3, d4, d5, d6, d7], _ =>
  simp only [List.map_cons, List.map_nil, List.cons_append, List.nil_append] at ha
  have ho' : RunningCode s.lat.op := by rcases ho with h | h <;> simp [RunningCode, h]
  obtain ⟨t, r3, p1, p2, due, p3, p4, p5, p6, pi, p7, p8, p9⟩ := sub_poll_run s d0 d1 d2 _ op hc he hr hl ho' hd hs
    hwip (hf d1 (by simp)) ha
  obtain ⟨u, r4, q1, q2, q3, q4, q5, q6, qi, q7, q8, q9, q10⟩ := write_run t (by rw [p6]; exact hc) d3 d4 d5 d6 _
    op a data (by rw [p1, hw]; rfl) p2 due hff hdata (by rw [p3]; exact ho') (hf d3 (by simp))
    (hf d6 (by simp)) p8 p7
  obtain ⟨v, w, e8, hwv, v1, v2, w1, w2, w3, w4, w5, w6, w7, w8, w9⟩ := sub_take_step u d7 _ [] q7 q1 q2
    (by rw [q4, p4]; exact hl) (by rw [q3, p3]; exact ho')
  have iw : w.illegalDue = false := by rw [w7, qi, pi, hi]
  have r8 : runSteps 8 s = .next w := runSteps_append 3 5 r3 (runSteps_append 4 1 r4 (runSteps_one e8))
  refine ⟨v, w, _, r8, runSteps_append 8 1 r8 (runSteps_one (chip_step w rest w8 iw)), hwv, by rw [v1, q4, p4],
    by rw [v2, q6, p6], w1, w2, w3, rfl, rfl, (w4.trans q3).trans p3, (w5.trans q6).trans p6, (w6.trans q5).trans p5,
    iw, rfl, ?_, ?_⟩
  · show w.chip.complete.wip = _
    rw [w9, Chip.complete, if_pos q8]
  · show w.chip.complete.mem = _
    rw [w9, Chip.complete, if_pos q8]
    show storePairs u.chip.mem u.chip.pending = _
    rw [q9, q10, p9]

/-- A LOG operation's byte read: five turns of the sequencer. -/
theorem sub_read_run (s : State) (ds : List BusDraw) (rest : List Turn) (a : Addr)
    (hc : s.cfg.opcodes.wf = true) (he : s.eec.state = .idle) (hr : s.bus.reply = none)
    (hl : s.log.state ≠ .idle) (ho : s.lat.op = 10#4 ∨ s.lat.op = 11#4 ∨ s.lat.op = 12#4)
    (hd : dueOp s = some (.readByte a)) (hwip : s.chip.wip = false) (hlen : ds.length = 5)
    (hf : ∀ d ∈ ds, d.fault = false) (ha : s.agenda = ds.map .sequencer ++ rest) :
    ∃ v w, runSteps 5 s = .next w ∧ w = endDriver .ok ((s.chip.byteAt a).setWidth 64) v ∧ v.log = s.log ∧
      w.eec.state = .idle ∧ w.bus.reply = none ∧
      w.log = (logReceive .ok ((s.chip.byteAt a).setWidth 64) v).log ∧ w.lat = s.lat ∧ w.cfg = s.cfg ∧
      w.arb = s.arb ∧ w.illegalDue = s.illegalDue ∧ w.agenda = rest ∧ w.chip.wip = false ∧
      w.chip.mem = s.chip.mem := by
  match ds, hlen with
  | [d0, d1, d2, d3, d4], _ =>
  simp only [List.map_cons, List.map_nil, List.cons_append, List.nil_append] at ha
  have ho' : RunningCode s.lat.op := by rcases ho with h | h | h <;> simp [RunningCode, h]
  obtain ⟨t, r3, p1, p2, due, p3, p4, p5, p6, pi, p7, p8, p9⟩ := sub_poll_run s d0 d1 d2 _ _ hc he hr hl
    ho' hd (fun _ => rfl) hwip (hf d1 (by simp)) ha
  have p1' : t.eec.state = .xfer := p1
  obtain ⟨u, e4, q1, q2, q3, q4, q5, q6, qi, q7, q8, q9⟩ := read_frame_step t d3 _ a (by rw [p6]; exact hc) p1' p2 due
    p8 (hf d3 (by simp)) p7
  obtain ⟨v, w, e5, hwv, v1, v2, w1, w2, w3, w4, w5, w6, w7, w8, w9⟩ := sub_take_step u d4 _ _ q7
    (by rw [q2]; exact p1') q1 (by rw [q3, p4]; exact hl)
    (by rw [q4, p3]; exact ho')
  have hby : t.chip.byteAt a = s.chip.byteAt a := by unfold Chip.byteAt; rw [p9]
  rw [hby] at hwv w3
  exact ⟨v, w, runSteps_append 3 2 r3 (runSteps_append 1 1 (runSteps_one e4) (runSteps_one e5)), hwv,
    (v1.trans q3).trans p4, w1, w2, w3, (w4.trans q4).trans p3, (w5.trans q5).trans p6, (w6.trans q6).trans p5,
    (w7.trans qi).trans pi,
    w8, by rw [w9]; exact q8, by rw [w9]; exact q9.trans p9⟩

end Sys2Proof.Machine
end

