-- ==== Sys2Proof/Laws/Progress.lean ====
section
/-! SUPPORT. Runs and fairness: an induction along a run, what weak fairness brings about, and a measure that the
sequencer's steps lower. -/

namespace Sys2Proof.Machine

/-! ## Along a run -/

/-- What every step keeps, and the agenda does not matter for, holds all along a run. -/
theorem IsRun.keeps {run : Nat → State} (h : IsRun run) {P : State → Prop} (ha : ∀ s ts, P s → P (s.withAgenda ts))
    (hs : ∀ s t, P s → step s = .next t → P t) (h0 : P (run 0)) (n : Nat) : P (run n) := by
  induction n with
  | zero => exact h0
  | succ n ih =>
    obtain ⟨t, ts, e, en⟩ := h n
    rw [en]
    exact ha _ _ (hs _ _ ih e)

/-- Weak fairness, used: if from a point on, short of the goal, the agent's step is enabled, the situation stays until
it is taken, and taking it reaches the goal, then the goal is reached. -/
theorem WeaklyFair.leads {a : FairAgent} {run : Nat → State} (h : WeaklyFair a run) {P Q : Nat → Prop}
    (enabled : ∀ m, P m → Q m ∨ stepEnabled a (run m) = true)
    (stays : ∀ m, P m → stepTaken a (run m) = false → Q m ∨ Q (m + 1) ∨ P (m + 1))
    (reaches : ∀ m, P m → stepTaken a (run m) = true → Q m ∨ Q (m + 1)) {n : Nat} (hn : P n) :
    ∃ m, n ≤ m ∧ Q m := by
  obtain ⟨m, hm, hfair⟩ := h n
  by_contra hno
  have never : ∀ k, n ≤ k → ¬ Q k := fun k hk hq => hno ⟨k, hk, hq⟩
  have still : ∀ d, P (n + d) := by
    intro d
    induction d with
    | zero => exact hn
    | succ d ih =>
      cases ht : stepTaken a (run (n + d)) with
      | true =>
        rcases reaches _ ih ht with q | q
        · exact absurd q (never _ (by omega))
        · exact absurd q (never _ (by omega))
      | false =>
        rcases stays _ ih ht with q | q | p
        · exact absurd q (never _ (by omega))
        · exact absurd q (never _ (by omega))
        · exact p
  have pm : P m := by have := still (m - n); rwa [show n + (m - n) = m by omega] at this
  rcases hfair with hd | ht
  · rcases enabled m pm with q | e
    · exact never m hm q
    · rw [hd] at e; cases e
  · rcases reaches m pm ht with q | q
    · exact never m hm q
    · exact never (m + 1) (by omega) q

/-- An agent's turn names the agent's kind of turn. -/
theorem stepTaken_iff (a : FairAgent) (s : State) :
    stepTaken a s = true ↔ stepEnabled a s = true ∧ agentTurn a (nextTurn s) = true := by
  simp [stepTaken]

/-! ## The operation in progress -/

/-- With the port busy, the latches hold an operation of several steps. -/
theorem MachineInv.running {s : State} (h : MachineInv s) (hb : reqReady s = false) : RunningCode s.lat.op := by
  have hl := h.log
  unfold LogPhaseOk at hl
  split at hl
  · rename_i hi
    have he : s.eec.state ≠ .idle := by intro hc; simp [reqReady, hc, hi] at hb
    obtain ⟨op, hd, _⟩ := h.driver he
    rw [dueOp_latched hi] at hd
    split at hd
    · rename_i hdrv
      unfold decodeRequest at hdrv
      unfold RunningCode
      split at hdrv <;> simp_all [isDriverOp]
    · cases hd
  · simp [RunningCode, hl]
  · simp [RunningCode, hl]
  · simp [RunningCode, hl]
  · rcases hl with hl | hl <;> simp [RunningCode, hl]
  · simp [RunningCode, hl]

/-- A sub-operation that LOG has due starts with its poll (rule R153). -/
theorem MachineInv.sub_polls {s : State} (h : MachineInv s) (hl : s.log.state ≠ .idle) {op : Instr}
    (hd : dueOp s = some op) (u : State) : startDriver op u = enterPoll u := by
  have hp := h.log
  have hb := ceiling_bounds s.cfg
  unfold LogPhaseOk at hp
  unfold dueOp at hd
  split at hd
  · contradiction
  · cases hd; rfl
  · rename_i hs
    rw [hs] at hp
    split at hd <;> cases hd
    rename_i hx
    have := fillBurst_facts hx
    simp only [startDriver]
    rw [if_neg, if_neg]
    · intro h0; have := congrArg BitVec.toNat h0; simp at this; omega
    · simp [maxSize, pageSize]; omega
  · cases hd; rfl
  · cases hd; rfl
  · split at hd <;> cases hd
    rfl

/-! ## The measure -/

/-- EEC has heard that the chip is busy, and polls again next. -/
def heardBusy (s : State) : Bool :=
  match s.eec.state, s.bus.reply with
  | .poll, some (.ok rx) => busyBit s.cfg (receivedStatus rx)
  | _, _ => false

/-- How far EEC is from the end of its operation. -/
def eecRank (s : State) : Nat :=
  match s.eec.state, s.bus.reply with
  | .idle, _ => 13
  | .settle, _ => 8
  | _, some .fault => 1
  | .poll, none => 12
  | .poll, some (.ok rx) => if busyBit s.cfg (receivedStatus rx) then 12 else 11
  | .wren, none => 10
  | .wren, some (.ok _) => 9
  | .xfer, none => 7
  | .xfer, some (.ok _) => 1

/-- How far LOG is from its last sub-operation. -/
def logRank (s : State) : Nat :=
  match s.log.state with
  | .idle | .append | .read => 0
  | .hdr => 1000
  | .fill => ceiling s.cfg - s.log.fillAddr.toNat
  | .tsread => 8 - s.log.tsK.toNat

/-- How far the operation in progress is from its end. -/
def opRank (s : State) : Nat :=
  20 * logRank s + eecRank s

/-- The measures read the parameters, the two units and the waiting reply. -/
theorem opRank_congr {s t : State} (hc : t.cfg = s.cfg) (he : t.eec = s.eec) (hg : t.log = s.log)
    (hb : t.bus = s.bus) : opRank t = opRank s ∧ reqReady t = reqReady s ∧ heardBusy t = heardBusy s := by
  unfold opRank logRank eecRank reqReady heardBusy
  rw [hc, he, hg, hb]
  exact ⟨rfl, rfl, rfl⟩

/-- The end of an EEC operation leaves the port ready, or the rank lower. -/
theorem endDriver_progress {s : State} (st : Status) (d : BitVec 64) (hd : s.log.state ≠ .idle → (dueOp s).isSome)
    (hr : st = .ok → 1 ≤ eecRank s) :
    reqReady (endDriver st d s) = true ∨ opRank (endDriver st d s) < opRank s := by
  by_cases hl : s.log.state = .idle
  · left; rw [endDriver_alone _ _ _ hl]; simp [reqReady, hl]
  · rw [endDriver_called _ _ _ hl]
    unfold logReceive
    split
    · rename_i hst
      have h1 := hr hst
      have hb := ceiling_bounds s.cfg
      have hdue := hd hl
      simp only [State.withBus_log, State.withEec_log, State.withBus_cfg, State.withEec_cfg]
      cases hs : s.log.state with
      | idle => exact absurd hs hl
      | hdr =>
        right
        simp [opRank, logRank, eecRank, hs] at h1 ⊢
        simp [headerSize]
        omega
      | fill =>
        right
        have hlt : s.log.fillAddr.toNat < ceiling s.cfg := by
          by_contra hc
          unfold dueOp at hdue; rw [hs] at hdue; simp [hc] at hdue
        have := fillBurst_facts hlt
        simp [opRank, logRank, eecRank, hs, BitVec.toNat_add] at h1 ⊢
        rw [show (s.log.fillAddr.toNat + fillBurst s.cfg s.log.fillAddr) % 1024 =
          s.log.fillAddr.toNat + fillBurst s.cfg s.log.fillAddr by omega]
        omega
      | append => left; simp [reqReady]
      | read => left; simp [reqReady]
      | tsread =>
        right
        have hlt : s.log.tsK.toNat < 8 := by
          by_contra hc
          unfold dueOp at hdue; rw [hs] at hdue; simp [hc] at hdue
        simp [opRank, logRank, eecRank, hs, BitVec.toNat_add] at h1 ⊢
        omega
    · left; simp [reqReady]

/-- A poll's answer is not the end of the sub-operation: the phase moves on, or polls again. -/
theorem gotoPhase_progress (p : EecState) (s : State) (h : eecRank (gotoPhase p s) < eecRank s) :
    opRank (gotoPhase p s) < opRank s := by
  have e : logRank (gotoPhase p s) = logRank s := rfl
  unfold opRank
  omega

/-- The next step of the operation in progress, with no frame due, leaves the port ready or the rank lower, or polls
again after a busy answer. -/
theorem continueOp_progress {s : State} (h : MachineInv s) (hb : reqReady s = false) (hd : dueFrame s = none) :
    reqReady (continueOp s) = true ∨ opRank (continueOp s) < opRank s ∨
    (heardBusy s = true ∧ heardBusy (continueOp s) = false ∧ opRank (continueOp s) = opRank s) := by
  rcases continueOp_cases s with ⟨he, e⟩ | ⟨he, hl, e⟩ | ⟨he, hl, _⟩
  · rw [e]
    have some_due := dueOp_isSome h he
    unfold driverStep
    split
    · contradiction
    · rename_i hs
      right; left
      exact gotoPhase_progress _ _ (by simp [eecRank, hs])
    · rename_i rx hs hr
      split
      · rename_i hbusy
        have hh : heardBusy s = true := by simp [heardBusy, hs, hr, hbusy]
        have poll_again : ∀ u : State, u.log = s.log → u.cfg = s.cfg →
            heardBusy (gotoPhase .poll u) = false ∧ opRank (gotoPhase .poll u) = opRank s := by
          intro u h1 h2
          simp [heardBusy, opRank, logRank, eecRank, h1, h2, hs, hr, hbusy]
        unfold pollBusy
        split
        · exact .inr (.inr ⟨hh, poll_again _ rfl rfl⟩)
        · dsimp only
          split
          · left
            by_cases hl : s.log.state = .idle
            · rw [endDriver_alone _ _ _ (by simpa using hl)]; simp [reqReady, hl]
            · rw [endDriver_called _ _ _ (by simpa using hl)]; simp [logReceive, reqReady]
          · exact .inr (.inr ⟨hh, poll_again _ rfl rfl⟩)
      · rename_i hclear
        obtain ⟨op, ho⟩ := Option.isSome_iff_exists.mp some_due
        unfold pollDone
        rw [ho]
        right; left
        apply gotoPhase_progress
        cases hw : writes op <;> simp [eecRank, hs, hr, hclear]
    · rename_i hs hr
      right; left
      exact gotoPhase_progress _ _ (by simp [eecRank, hs, hr])
    · rename_i rx hs hr
      have := endDriver_progress .ok (receivedData rx) (fun _ => some_due) (fun _ => by simp [eecRank, hs, hr])
      exact this.imp_right .inl
    · have := endDriver_progress (s := s) .busFault 0 (fun _ => some_due) (by simp)
      exact this.imp_right .inl
    · rename_i hr _ _
      exfalso
      obtain ⟨op, ho, hdrv, _⟩ := h.driver he
      unfold dueFrame at hd
      rw [hr] at hd
      cases hs : s.eec.state <;> simp_all
      cases op <;> simp_all [isDriverOp, finalFrame]
  · rw [e]
    unfold logStep
    cases ho : dueOp s with
    | some op =>
      right; left
      have hr := no_reply_of_idle h he
      simp only [h.sub_polls hl ho]
      simp [opRank, logRank, eecRank, he, hr]
    | none =>
      left
      unfold dueOp at ho
      cases hs : s.log.state <;> simp_all [reqReady]
  · simp [reqReady, he, hl] at hb

/-- The exchange that is due lowers the rank, or it is a poll, of a busy chip, that hears so. -/
theorem exchange_progress {s : State} {f : Instr} (hd : dueFrame s = some f) (hi : isFrameInstr f = true) {t : State}
    (d : BusDraw) (ht : exec f (s.withBusIn d) = .next t) :
    opRank t < opRank s ∨ (s.chip.wip = true ∧ heardBusy s = false ∧ opRank t = opRank s ∧ reqReady t = reqReady s) := by
  obtain ⟨hr, hcase⟩ := dueFrame_of_phase hd
  have rank : ∀ (u : State), u.eec = s.eec → u.log = s.log → u.cfg = s.cfg → eecRank u < eecRank s →
      opRank u < opRank s := by
    intro u h1 h2 h3 h4
    have : logRank u = logRank s := by unfold logRank; rw [h2, h3]
    unfold opRank; omega
  obtain ⟨reaction, e, _⟩ := exec_frame_cases f (s.withBusIn d) hi
  have fr := exchange_frame f reaction (s.withBusIn d)
  rcases hcase with ⟨hs, rfl⟩ | ⟨hs, rfl⟩ | ⟨hs, _⟩
  · have ht' : t = exchange .rdsr (reactRdsr s.cfg d s.chip) (s.withBusIn d) := by cases ht; rfl
    subst ht'
    have fr := exchange_frame .rdsr (reactRdsr s.cfg d s.chip) (s.withBusIn d)
    by_cases hf : d.fault = true
    · left
      refine rank _ fr.eec fr.log fr.cfg ?_
      simp [eecRank, hs, hr, exchange, hf]
    · cases hw : s.chip.wip with
      | true =>
        right
        refine ⟨rfl, by simp [heardBusy, hs, hr], ?_, ?_⟩
        · simp [opRank, logRank, eecRank, hs, hr, exchange, hf, reactRdsr, receivedStatus, busyBit_statusByte, hw]
        · unfold reqReady; rw [fr.eec, fr.log]; rfl
      | false =>
        left
        refine rank _ fr.eec fr.log fr.cfg ?_
        simp [eecRank, hs, hr, exchange, hf, reactRdsr, receivedStatus, busyBit_statusByte, hw]
  · rw [e] at ht; cases ht
    left
    refine rank _ fr.eec fr.log fr.cfg ?_
    unfold exchange
    split <;> simp [eecRank, hs, hr]
  · rw [e] at ht; cases ht
    left
    refine rank _ fr.eec fr.log fr.cfg ?_
    unfold exchange
    split <;> simp [eecRank, hs, hr]

/-- What the sequencer's turn does to an operation in progress: the port is ready, or the rank is lower, or it polls
again after a busy answer, or it hears of a busy chip. -/
theorem sequencerTurn_progress {s t : State} (h : MachineInv s) (hb : reqReady s = false) (d : BusDraw)
    (ht : runTurn (.sequencer d) s = .next t) :
    reqReady t = true ∨ opRank t < opRank s ∨
    (heardBusy s = true ∧ heardBusy t = false ∧ opRank t = opRank s ∧ t.chip = s.chip) ∨
    (heardBusy s = false ∧ s.chip.wip = true ∧ opRank t = opRank s ∧ reqReady t = false) := by
  rcases sequencerTurn_cases d s t ht with ⟨f, i, hf, hi, e⟩ | ⟨_, hr, _⟩ | ⟨hf, _, e⟩
  · rw [(dueFrame_decodes h hf).1] at hi
    cases hi
    rcases exchange_progress hf (decodeFrame_isFrame _ _ _ (dueFrame_decodes h hf).1) d e with g | ⟨a, b, c, g⟩
    · exact .inr (.inl g)
    · exact .inr (.inr (.inr ⟨b, a, c, g.trans hb⟩))
  · rw [hb] at hr; cases hr
  · have h1 : MachineInv (s.withBusIn d) := MachineInv.congr h rfl rfl rfl rfl rfl rfl rfl h.history
    have ho : RunningCode (s.withBusIn d).lat.op := h.running hb
    have ec : exec (decodeRequest s.lat) (s.withBusIn d) = .next (continueOp (s.withBusIn d)) :=
      exec_latched_continues (s.withBusIn d) hb ho
    rw [ec] at e
    cases e
    have fr := continueOp_frame (s.withBusIn d)
    rcases continueOp_progress h1 hb hf with g | g | ⟨a, b, c⟩
    · exact .inl g
    · exact .inr (.inl g)
    · exact .inr (.inr (.inl ⟨a, b, c, fr.chip⟩))

/-- What any other turn does to an operation in progress: a reset ends it, and the rest leave EEC and LOG alone and
touch the chip only to complete its write. -/
theorem otherTurn_progress {s t : State} (turn : Turn) (hb : reqReady s = false) (hn : ∀ d, turn ≠ .sequencer d)
    (ht : runTurn turn s = .next t) :
    reqReady t = true ∨
    (t.cfg = s.cfg ∧ t.eec = s.eec ∧ t.log = s.log ∧ t.bus = s.bus ∧
      (t.chip = s.chip ∨ turn = .chip ∧ t.chip = s.chip.complete)) := by
  have arb : ArbiterFrame s t → t.cfg = s.cfg ∧ t.eec = s.eec ∧ t.log = s.log ∧ t.bus = s.bus ∧
      (t.chip = s.chip ∨ turn = .chip ∧ t.chip = s.chip.complete) :=
    fun k => ⟨k.cfg, k.eec, k.log, k.bus, .inl k.chip⟩
  cases turn with
  | request r =>
    rcases requestTurn_cases r s t ht with ⟨hr, _⟩ | ⟨_, rfl⟩
    · rw [hb] at hr; cases hr
    · exact .inr ⟨rfl, rfl, rfl, rfl, .inl rfl⟩
  | events e => exact .inr (arb (arbSide_frame _ s t ht (.inr (.inr ⟨e, rfl⟩))))
  | done d => exact .inr (arb (arbSide_frame _ s t ht (.inr (.inl ⟨d, rfl⟩))))
  | arbiter => exact .inr (arb (arbSide_frame _ s t ht (.inl rfl)))
  | sequencer d => exact absurd rfl (hn d)
  | chip => cases ht; exact .inr ⟨rfl, rfl, rfl, rfl, .inr ⟨rfl, rfl⟩⟩
  | reset c d => cases ht; exact .inl rfl
  | powerCycle c d l => cases ht; exact .inl rfl

/-! ## The arbiter -/

/-- How many dispatch steps are left of a wake. -/
def arbRank (s : State) : Nat :=
  match s.arb.state with
  | .dSample => 5
  | .dAutoen => 4
  | .dAutowater => 3
  | .dManwater => 2
  | .dHistory => 1
  | .idle | .wHistory => 0

/-- The arbiter's turn in a dispatch state lowers the count. -/
theorem arbiterTurn_progress {s t : State} (hr : 0 < arbRank s) (ht : runTurn .arbiter s = .next t) :
    arbRank t < arbRank s := by
  change exec (decodeArbiter s.arb.state s.arb.wakePending) s = .next t at ht
  cases hs : s.arb.state with
  | idle => simp [arbRank, hs] at hr
  | wHistory => simp [arbRank, hs] at hr
  | dSample | dAutoen | dAutowater | dManwater =>
    rw [hs] at ht
    cases ht
    rw [arbiterStep_here _ _ _ hs]
    split <;> simp [arbRank, hs]
  | dHistory =>
    rw [hs] at ht
    cases ht
    rw [arbiterStep_here _ _ _ hs]
    split <;> simp [arbRank, hs]

/-- The arbiter's turn with a wake signalled goes to the first dispatch step. -/
theorem arbiterTurn_wake {s t : State} (hs : s.arb.state = .idle) (hw : s.arb.wakePending = true)
    (ht : runTurn .arbiter s = .next t) : t.arb.state = .dSample := by
  change exec (decodeArbiter s.arb.state s.arb.wakePending) s = .next t at ht
  rw [hs, hw] at ht
  cases ht
  rw [arbiterStep_here _ _ _ hs, if_pos hw]
  rfl

/-- An event, or a done line, leaves the arbiter's state and a signalled wake. -/
theorem execAll_arb_stays (is : List Instr)
    (h : ∀ i ∈ is, ∀ s t, exec i s = .next t →
      t.arb.state = s.arb.state ∧ (s.arb.wakePending = true → t.arb.wakePending = true)) (s t : State)
    (ht : execAll is s = .next t) :
    t.arb.state = s.arb.state ∧ (s.arb.wakePending = true → t.arb.wakePending = true) := by
  induction is generalizing s with
  | nil => cases ht; exact ⟨rfl, id⟩
  | cons i is ih =>
    obtain ⟨u, hu⟩ := exec_next i s
    rw [execAll_cons i is s u hu] at ht
    have h1 := h i (by simp) s u hu
    have h2 := ih (fun j hj => h j (by simp [hj])) u ht
    exact ⟨h2.1.trans h1.1, fun w => h2.2 (h1.2 w)⟩

/-- What any turn but the arbiter's does to it: a reset makes it idle, and the rest leave its state and a signalled
wake. -/
theorem otherTurn_arb {s t : State} (turn : Turn) (hn : turn ≠ .arbiter) (ht : runTurn turn s = .next t) :
    ((∃ c d, turn = .reset c d) ∨ ∃ c d l, turn = .powerCycle c d l) ∧ t.arb.state = .idle ∨
    (t.arb.state = s.arb.state ∧ (s.arb.wakePending = true → t.arb.wakePending = true)) := by
  have side : t.arb = s.arb → t.arb.state = s.arb.state ∧ (s.arb.wakePending = true → t.arb.wakePending = true) :=
    fun e => by rw [e]; exact ⟨rfl, id⟩
  cases turn with
  | request r => exact .inr (side (requestSide_frame _ s t ht (.inl ⟨r, rfl⟩)).1)
  | sequencer d => exact .inr (side (requestSide_frame _ s t ht (.inr (.inl ⟨d, rfl⟩))).1)
  | chip => exact .inr (side (requestSide_frame _ s t ht (.inr (.inr rfl))).1)
  | arbiter => exact absurd rfl hn
  | reset c d => cases ht; exact .inl ⟨.inl ⟨c, d, rfl⟩, rfl⟩
  | powerCycle c d l => cases ht; exact .inl ⟨.inr ⟨c, d, l, rfl⟩, rfl⟩
  | events e =>
    refine .inr (execAll_arb_stays _ ?_ s t ht)
    intro i hi u v hv
    simp only [decodeEvents, List.mem_append, List.mem_ite_nil_right, List.mem_singleton] at hi
    rcases hi with (((⟨_, rfl⟩ | ⟨_, rfl⟩) | ⟨_, rfl⟩) | ⟨_, rfl⟩) | ⟨_, rfl⟩ <;> cases hv <;> exact ⟨rfl, fun _ => rfl⟩
  | done d =>
    refine .inr (execAll_arb_stays _ ?_ s t ht)
    intro i hi u v hv
    simp only [decodeDone, List.mem_append, List.mem_ite_nil_right, List.mem_singleton] at hi
    rcases hi with (⟨_, rfl⟩ | ⟨_, rfl⟩) | ⟨_, rfl⟩ <;> cases hv <;> exact ⟨rfl, id⟩

end Sys2Proof.Machine
end

