-- ==== Sys2Proof/Tests/Slice0.lean ====
section
/-! SUPPORT. Tests on fixed values, their expected results from spec/30_encoding.md and the vectors of
spec/95_test_vectors.md, and for every statement with hypotheses a state that meets them. -/

namespace Sys2Proof.Tests

open Sys2Proof Sys2Proof.Machine

/-! ## Small states -/

/-- The parameters of the vectors: `SPH = 1`, the defaults for the rest. -/
def cfg1 : Params :=
  { sph := .sph1, pollLimit := none, idleTimeoutFinite := true, sampleCollapse := .clearBoth,
    welAnyExchange := false, autoWaterReset := false, opcodes := defaultOpcodes, wipBit := 0, welBit := 1 }

/-- Another legal set of opcodes. -/
def otherOpcodes : Opcodes := { read := 0x02#8, write := 0x03#8, wrdi := 0x34#8, rdsr := 0x35#8, wren := 0x36#8 }

/-- The machine after reset with those parameters. -/
def base : State := { State.reset with cfg := cfg1 }

/-- `base` with a chip that holds the cells. -/
def withCells (cells : Memory) : State := { base with chip := { newChip with mem := cells } }

/-- A log unit in a phase with a cursor. -/
def logAt (phase : LogState) (cursor : BitVec 16) : LogUnit :=
  { state := phase, fillAddr := 8, tsK := 0, tsAcc := 0, cursor := cursor }

/-- `base` with an initialised log. -/
def logged (cursor : BitVec 16) : State := { base with log := logAt .idle cursor }

/-- An operation in progress: the request, EEC's phase, the reply, LOG's registers. -/
def running (r : Request) (phase : EecState) (reply : Option BusReply) (log : LogUnit) : State :=
  { base with
    lat := r
    eec := { state := phase, pollCount := 0 }
    bus := { frame := [0x06#8], reply := reply }
    log := log }

/-- The same with the chip's latch set. -/
def enabled (r : Request) (phase : EecState) (reply : Option BusReply) (log : LogUnit) : State :=
  { running r phase reply log with chip := { newChip with wel := true } }

/-- A machine whose arbiter is in a state with a mask. -/
def arbAt (state : ArbState) (mask : Mask) : State :=
  { base with arb := { base.arb with state := state, mask := mask } }

/-- The agenda of `s` with one turn before it. -/
def withTurn (t : Turn) (s : State) : State := { s with agenda := t :: s.agenda }

/-- A draw with a fault. -/
def faultDraw : BusDraw := { quietDraw with fault := true }

/-- A page buffer whose first elements are the list's. -/
def bufOf (bytes : List Byte) : PageBuf := Vector.ofFn fun i => bytes.getD i.val 0#8

/-- Requests of the vectors. -/
def rReadStatus : Request := bareRequest 0#4
def rWriteEnable : Request := bareRequest 1#4
def rWriteDisable : Request := bareRequest 2#4
def rReadByte : Request := { bareRequest 3#4 with addr := 0x1FF#9 }
def rWriteByte : Request := { bareRequest 4#4 with addr := 0x1FF#9, data := 0xFF#8 }
def rWritePage : Request :=
  { bareRequest 5#4 with addr := 0x1F8#9, len := 8#5, buf := bufOf [1#8, 2#8, 3#8, 4#8, 5#8, 6#8, 7#8, 8#8] }
def rResetLog : Request := { bareRequest 8#4 with ts := 0x0000000065A1B2C3#64 }
def rAppend : Request := { bareRequest 9#4 with data := 0x64#8 }
def rReadReading : Request := { bareRequest 10#4 with index := 1#16 }
def rReadLast : Request := bareRequest 11#4
def rReadHeader : Request := bareRequest 12#4

/-- A check on the next state. -/
def after (o : Host.Outcome State Fault Refusal) (check : State → Bool) : Bool :=
  match o with
  | .next t => check t
  | .fault _ => false
  | .refused _ => false

/-- The response a state gives. -/
def answers (st : BitVec 3) (data : BitVec 64) (t : State) : Bool :=
  t.rsp == { valid := true, status := st, data := data }

/-- The response a state gives when its data are free. -/
def answersStatus (st : BitVec 3) (t : State) : Bool :=
  t.rsp.valid && t.rsp.status == st

/-! ## WellFormed: what the checks refuse -/

theorem test_wf_write_empty_refused : Instr.wf (.write 0x008#9 []) = false := by decide
theorem test_wf_write_seventeen_refused : Instr.wf (.write 0x000#9 (List.replicate 17 0#8)) = false := by decide
theorem test_wf_poll_limit_zero_refused : Params.wf { cfg1 with pollLimit := some 0 } = false := by decide
theorem test_wf_opcode_bit3_refused : Params.wf { cfg1 with opcodes := { defaultOpcodes with read := 0x0B#8 } } = false ∧
    Params.wf { cfg1 with opcodes := { defaultOpcodes with wren := 0x05#8 } } = false := by decide
theorem test_wf_status_bits_equal_refused : Params.wf { cfg1 with welBit := 0 } = false := by decide

/-! ## Decode: words from 30_encoding.md, and what is no instruction -/

theorem test_decode_rdsr : decodeFrame defaultOpcodes [0b00000101#8] = .ok .rdsr := by decide
theorem test_decode_wren : decodeFrame defaultOpcodes [0b00000110#8] = .ok .wren := by decide
theorem test_decode_wrdi : decodeFrame defaultOpcodes [0b00000100#8] = .ok .wrdi := by decide
/-- S5: address 0x1A5. -/
theorem test_decode_read_high : decodeFrame defaultOpcodes [0b00001011#8, 0b10100101#8] = .ok (.read 0x1A5#9) := by decide
theorem test_decode_read_low : decodeFrame defaultOpcodes [0b00000011#8, 0b10100101#8] = .ok (.read 0x0A5#9) := by decide
/-- E13. -/
theorem test_decode_write : decodeFrame defaultOpcodes [0b00001010#8, 0b11111000#8, 1#8, 2#8] = .ok (.write 0x1F8#9 [1#8, 2#8]) := by
  decide
theorem test_decode_unlisted : decodeFrame defaultOpcodes [0b00000001#8] = .error .unlistedInstructionByte := by decide
theorem test_decode_bit7 : decodeFrame defaultOpcodes [0b10000011#8, 0#8] = .error .unlistedInstructionByte := by decide
theorem test_decode_rdsr_long : decodeFrame defaultOpcodes [0b00000101#8, 0#8] = .error .frameLength := by decide
theorem test_decode_write_empty : decodeFrame defaultOpcodes [0b00000010#8, 0#8] = .error .frameLength := by decide
theorem test_decode_nothing : decodeFrame defaultOpcodes [] = .error .emptyFrame := by decide

/-- R16: under another set of opcodes a byte stands for another frame. -/
theorem test_decode_other_opcodes :
    decodeFrame otherOpcodes [0x02#8, 0x10#8] = .ok (.read 0x010#9) ∧ decodeFrame otherOpcodes [0x36#8] = .ok .wren ∧
    decodeFrame otherOpcodes [0x06#8] = .error .unlistedInstructionByte := by decide

/-- R118: the sixteen codes of `req_op`. -/
theorem test_decode_codes : (List.range 16).map (fun n => decodeRequest (bareRequest (BitVec.ofNat 4 n))) =
    [.readStatus, .writeEnable, .writeDisable, .readByte 0, .writeByte 0 0, .writePage 0 0 (bufOf []),
     .reserved6, .reserved7] ++
    [.resetLog 0, .appendReading 0, .readReading 0, .readLastReading, .readHeaderTimestamp, .readingTimestamp 0,
     .decideWatering 0, .reserved15] := by decide

theorem test_decode_events :
    decode defaultOpcodes (.event { quietEvents with timer := true }) = .ok .evTimer ∧
    decode defaultOpcodes (.event { quietEvents with manualSample := true }) = .ok .evManualSample ∧
    decode defaultOpcodes (.event { quietEvents with manualWater := true, duration := 30#8 }) = .ok (.evManualWater 30#8) ∧
    decode defaultOpcodes (.event { quietEvents with setAuto := true, autoValue := true }) = .ok (.evSetAuto true) ∧
    decode defaultOpcodes (.event { quietEvents with dumpHistory := true }) = .ok .evDumpHistory ∧
    decode defaultOpcodes (.event quietEvents) = .error .noStrobe ∧
    decode defaultOpcodes (.event { quietEvents with timer := true, dumpHistory := true }) = .error .severalStrobes := by decide
theorem test_decode_done :
    decode defaultOpcodes (.done { quietDone with sensor := true }) = .ok .doneSensor ∧
    decode defaultOpcodes (.done { quietDone with pump := true }) = .ok .donePump ∧
    decode defaultOpcodes (.done { quietDone with history := true }) = .ok .doneHistory := by decide
theorem test_decode_arbiter :
    decodeArbiter .idle true = .wake ∧ decodeArbiter .idle false = .idleTimeoutWake ∧
    decodeArbiter .dSample true = .dSample ∧ decodeArbiter .dAutoen false = .dAutoen ∧
    decodeArbiter .dAutowater false = .dAutowater ∧ decodeArbiter .dManwater false = .dManwater ∧
    decodeArbiter .dHistory false = .dHistory ∧ decodeArbiter .wHistory true = .historyWaitEnd := by decide

/-! ## Frames -/

/-- E2, second exchange. -/
theorem test_rdsr_wel : after (exec .rdsr { base with chip := { newChip with wel := true } })
    (fun t => t.bus == { frame := [0x05#8], reply := some (.ok [0x02#8]) } && t.chip.wel) = true := by decide
/-- E3, second exchange: under `WEL_ANY_EXCHANGE` the latch is gone at its end. -/
theorem test_rdsr_wel_any_exchange :
    after (exec .rdsr { base with cfg := { cfg1 with welAnyExchange := true }, chip := { newChip with wel := true } })
    (fun t => t.bus.reply == some (.ok [0x02#8]) && !t.chip.wel) = true := by decide
/-- R16 and R17: other opcodes and other places of the status bits. -/
theorem test_rdsr_other_parameters : after (exec .rdsr { base with
      cfg := { cfg1 with opcodes := otherOpcodes, wipBit := 7, welBit := 2 }
      chip := { newChip with wel := true, wip := true } })
    (fun t => t.bus == { frame := [0x35#8], reply := some (.ok [0x84#8]) } && busyBit t.cfg 0x84#8 &&
      !busyBit t.cfg 0x01#8) = true := by decide
/-- E2, first exchange. -/
theorem test_wren : after (exec .wren base) (fun t => t.bus.frame == [0x06#8] && t.chip.wel) = true := by decide
/-- E4. -/
theorem test_wrdi : after (exec .wrdi { base with chip := { newChip with wel := true } })
    (fun t => t.bus.frame == [0x04#8] && !t.chip.wel) = true := by decide
/-- E7. -/
theorem test_read : after (exec (.read 0x100#9) (withCells [(0, 0x99#8), (0x100, 0x22#8)]))
    (fun t => t.bus == { frame := [0x0B#8, 0x00#8], reply := some (.ok [0x22#8]) }) = true := by decide
/-- E9. -/
theorem test_write : after (exec (.write 0x008#9 [0x2A#8]) { base with chip := { newChip with wel := true } })
    (fun t => t.bus.frame == [0x02#8, 0x08#8, 0x2A#8] && t.chip.wip && t.chip.pending == [(0x008#9, 0x2A#8)] &&
      t.chip.mem == []) = true := by decide
/-- R89: a burst wraps inside its page, and a write without the latch is ignored. -/
theorem test_write_wrap_and_ignored :
    after (exec (.write 0x01F#9 [1#8, 2#8]) { base with chip := { newChip with wel := true } })
      (fun t => t.chip.pending == [(0x01F#9, 1#8), (0x010#9, 2#8)]) = true ∧
    after (exec (.write 0x008#9 [0x2A#8]) base) (fun t => t.chip == newChip) = true := by decide

/-! ## EEC -/

/-- E1. -/
theorem test_readStatus : after (exec .readStatus (running rReadStatus .xfer (some (.ok [0x00#8])) (logAt .idle 0)))
    (answers 0 0) = true := by decide
/-- E2. -/
theorem test_writeEnable : dueFrame (running rWriteEnable .xfer none (logAt .idle 0)) = some .wren ∧
    after (exec .writeEnable (running rWriteEnable .xfer (some (.ok [])) (logAt .idle 0))) (answers 0 0) = true := by
  decide
/-- E4. -/
theorem test_writeDisable : dueFrame (running rWriteDisable .xfer none (logAt .idle 0)) = some .wrdi := by decide
/-- E8: the poll comes first, the address is folded. -/
theorem test_readByte : after (exec (.readByte 0x1FF#9) base) (fun t => dueFrame t == some .rdsr) = true ∧
    frameBytes defaultOpcodes (.read 0x1FF#9) = [0x0B#8, 0xFF#8] := by decide
theorem test_readByte_end :
    after (exec (.readByte 0x1FF#9) (running rReadByte .xfer (some (.ok [0x33#8])) (logAt .idle 0)))
      (answers 0 0x33) = true := by decide
/-- E10: poll, enable, settle, write. -/
theorem test_writeByte :
    after (exec (.writeByte 0x1FF#9 0xFF#8) (running rWriteByte .poll (some (.ok [0x00#8])) (logAt .idle 0)))
      (fun t => dueFrame t == some .wren) = true ∧
    after (exec (.writeByte 0x1FF#9 0xFF#8) (running rWriteByte .settle none (logAt .idle 0)))
      (fun t => dueFrame t == some (.write 0x1FF#9 [0xFF#8])) = true := by decide
/-- E20: a busy status byte polls again. -/
theorem test_writeByte_busy :
    after (exec (.writeByte 0x1FF#9 0xFF#8) (running rWriteByte .poll (some (.ok [0x03#8])) (logAt .idle 0)))
      (fun t => dueFrame t == some .rdsr) = true := by decide
/-- E13, and E16 and E17: equality is accepted, one more byte is not. -/
theorem test_writePage :
    after (exec (.writePage 0x1F8#9 8#5 (bufOf [])) base) (fun t => dueFrame t == some .rdsr) = true ∧
    after (exec (.writePage 0x0F1#9 16#5 (bufOf [])) base) (answersStatus 1) = true ∧
    after (exec (.writePage 0x000#9 17#5 (bufOf [])) base) (answersStatus 1) = true := by decide
/-- E18 and E13's frame. -/
theorem test_writePage_empty_and_frame :
    after (exec (.writePage 0x123#9 0#5 (bufOf [])) base) (answers 0 0) = true ∧
    dueFrame (enabled rWritePage .xfer none (logAt .idle 0)) =
      some (.write 0x1F8#9 [1#8, 2#8, 3#8, 4#8, 5#8, 6#8, 7#8, 8#8]) := by decide
/-- R141: a finite `POLL_LIMIT`. -/
theorem test_poll_limit :
    after (exec (.readByte 0x1FF#9) { running rReadByte .poll (some (.ok [0x01#8])) (logAt .idle 0) with
      cfg := { cfg1 with pollLimit := some 1 } }) (answersStatus 4) = true := by decide
/-- E19: accepted, then answered. -/
theorem test_reserved :
    [(6, Instr.reserved6), (7, .reserved7), (15, .reserved15)].all (fun p : OpCode × Instr =>
      after (exec p.2 base) (fun t => t.lat.op == p.1 && t.illegalDue && !t.rsp.valid && t.chip == newChip) &&
      after (exec p.2 { base with lat := bareRequest p.1, illegalDue := true })
        (fun t => answersStatus 7 t && !t.illegalDue)) = true := by decide

/-! ## LOG -/

/-- LG1: the header's bytes. -/
theorem test_resetLog_header : after (exec (.resetLog 0x0000000065A1B2C3#64) base)
    (fun t => dueOp t == some (.writePage 0x000#9 8#5
      (bufOf [0xC3#8, 0xB2#8, 0xA1#8, 0x65#8, 0#8, 0#8, 0#8, 0#8]))) = true := by decide
/-- LG1: the second fill burst is the page 0x010, and the end sets the cursor. -/
theorem test_resetLog_fill :
    after (exec (.resetLog 0x65A1B2C3#64) (running rResetLog .xfer (some (.ok [])) (logAt .fill 11)))
      (fun t => dueOp t == some (.writePage 0x010#9 16#5 (bufOf [])) && t.log.cursor == 11) = true ∧
    after (exec (.resetLog 0x65A1B2C3#64) (running rResetLog .idle none { logAt .fill 11 with fillAddr := 32 }))
      (fun t => answers 0 0 t && t.log.cursor == 8) = true := by decide
/-- LG8. -/
theorem test_appendReading :
    after (exec (.appendReading 0x64#8) (logged 31)) (fun t => dueOp t == some (.writeByte 0x01F#9 0x64#8)) = true ∧
    after (exec (.appendReading 0x64#8) (running rAppend .xfer (some (.ok [])) (logAt .append 31)))
      (fun t => answers 0 0 t && t.log.cursor == 32) = true := by decide
/-- LG9, LG10, and LG11's fault. -/
theorem test_appendReading_full_and_fault :
    after (exec (.appendReading 7#8) (logged 32)) (fun t => answersStatus 3 t && t.log.cursor == 32) = true ∧
    after (exec (.appendReading 7#8) base) (answersStatus 3) = true ∧
    after (exec (.appendReading 0x64#8) (running rAppend .xfer (some .fault) (logAt .append 9)))
      (fun t => answersStatus 2 t && t.log.cursor == 9) = true := by decide
/-- LG14. -/
theorem test_readReading :
    after (exec (.readReading 1#16) (logged 11)) (fun t => dueOp t == some (.readByte 0x009#9)) = true ∧
    after (exec (.readReading 1#16) (running rReadReading .xfer (some (.ok [0x11#8])) (logAt .read 11)))
      (answers 0 17) = true := by decide
/-- LG15 to LG18. -/
theorem test_readReading_none :
    after (exec (.readReading 3#16) (logged 11)) (answersStatus 5) = true ∧
    after (exec (.readReading 65535#16) (logged 11)) (answersStatus 5) = true ∧
    after (exec (.readReading 0#16) (logged 0)) (answersStatus 5) = true ∧
    after (exec (.readReading 0#16) (logged 8)) (answersStatus 5) = true := by decide
/-- LG19. -/
theorem test_readLastReading :
    after (exec .readLastReading (logged 11)) (fun t => dueOp t == some (.readByte 0x00A#9)) = true ∧
    after (exec .readLastReading (running rReadLast .xfer (some (.ok [0x63#8])) (logAt .read 11))) (answers 0 99) =
      true := by decide
/-- LG20. -/
theorem test_readLastReading_none : after (exec .readLastReading (logged 8)) (answersStatus 5) = true ∧
    after (exec .readLastReading (logged 0)) (answersStatus 5) = true := by decide
/-- LG21: the byte read at address 3 goes to bits 31 to 24, and the end answers the timestamp. -/
theorem test_readHeaderTimestamp :
    after (exec .readHeaderTimestamp (running rReadHeader .xfer (some (.ok [0x65#8]))
      { logAt .tsread 8 with tsK := 3, tsAcc := 0xA1B2C3#64 }))
      (fun t => t.log.tsAcc == 0x65A1B2C3#64 && dueOp t == some (.readByte 4#9)) = true ∧
    after (exec .readHeaderTimestamp (running rReadHeader .idle none
      { logAt .tsread 8 with tsK := 8, tsAcc := 0x65A1B2C3#64 })) (answers 0 0x65A1B2C3#64) = true := by decide
/-- LG22. -/
theorem test_readHeaderTimestamp_none :
    after (exec .readHeaderTimestamp (logged 0)) (answersStatus 5) = true := by decide
/-- LG24. -/
theorem test_readingTimestamp_sph4 :
    after (exec (.readingTimestamp 3#16) { base with cfg := { cfg1 with sph := .sph4 } }) (answers 0 2700) = true := by
  decide
/-- LG26. -/
theorem test_readingTimestamp_max :
    after (exec (.readingTimestamp 65535#16) base) (answers 0 235926000) = true := by decide

/-! ## POL -/

/-- W1 to W6 at the ends of the steps. -/
theorem test_decideWatering : ([(0, 60), (1, 50), (10, 50), (11, 40), (20, 40), (21, 30)] ++
      [(30, 30), (31, 20), (40, 20), (41, 10), (49, 10)]).all (fun p : Nat × Nat =>
    after (exec (.decideWatering (BitVec.ofNat 8 p.1)) base) (answers 0 (BitVec.ofNat 64 p.2))) = true := by decide
/-- W7 and W8. -/
theorem test_decideWatering_none : [50, 51, 100, 101, 255].all (fun p =>
    after (exec (.decideWatering (BitVec.ofNat 8 p)) base) (answersStatus 5)) = true := by decide

/-! ## ARB -/

/-- A19. -/
theorem test_evTimer : after (exec .evTimer base) (fun t => t.arb.mask == 0x05#6 && t.arb.wakePending) = true := by
  decide
/-- A23. -/
theorem test_evManualSample : after (exec .evManualSample (arbAt .dAutoen 0x04))
    (fun t => t.arb.mask == 0x06#6 && t.arb.wakePending && t.arb.state == .dAutoen) = true := by decide
/-- A21, second event. -/
theorem test_evManualWater : after (exec (.evManualWater 60#8)
    { base with arb := { base.arb with mask := 0x08#6, manDuration := 30#8 } })
    (fun t => t.arb.mask == 0x08#6 && t.arb.manDuration == 60#8) = true := by decide
/-- A22: both strobes in one step. -/
theorem test_evSetAuto_and_evDumpHistory : after (runTurn (.events
    { quietEvents with setAuto := true, autoValue := true, dumpHistory := true }) base)
    (fun t => t.arb.mask == 0x30#6 && t.arb.autoReq && t.arb.wakePending) = true := by decide
/-- A18. -/
theorem test_wake : after (exec .wake { base with arb := { base.arb with wakePending := true } })
    (fun t => t.arb.state == .dSample && !t.arb.wakePending) = true := by decide
/-- R221. -/
theorem test_idleTimeoutWake : after (exec .idleTimeoutWake base) (fun t => t.arb.state == .dSample) = true ∧
    after (exec .idleTimeoutWake { base with cfg := { cfg1 with idleTimeoutFinite := false } })
      (fun t => t.arb.state == .idle) = true := by decide
/-- A2 and A3. -/
theorem test_dSample : after (exec .dSample (arbAt .dSample 0x07))
      (fun t => t.arb.mask == 0x04#6 && t.arb.liveSensor && t.out == [.startSensor .auto]) = true ∧
    after (exec .dSample { arbAt .dSample 0x07 with cfg := { cfg1 with sampleCollapse := .keepManual } })
      (fun t => t.arb.mask == 0x06#6 && t.out == [.startSensor .auto]) = true := by decide
/-- A1 and A4. -/
theorem test_dSample_manual_and_guard : after (exec .dSample (arbAt .dSample 0x02))
      (fun t => t.arb.mask == 0#6 && t.arb.state == .dAutoen && t.out == [.startSensor .manual]) = true ∧
    after (exec .dSample { base with arb := { base.arb with state := .dSample, mask := 0x05#6, liveSensor := true } })
      (fun t => t.arb.mask == 0x04#6 && t.out == []) = true := by decide
/-- A8. -/
theorem test_dAutoen : after (exec .dAutoen
    { base with arb := { base.arb with state := .dAutoen, mask := 0x14#6, autoReq := true } })
    (fun t => t.arb.mask == 0x04#6 && t.arb.autoWaterEnabled) = true := by decide
/-- A5 and A7. -/
theorem test_dAutowater : after (exec .dAutowater
      { base with arb := { base.arb with state := .dAutowater, mask := 0x04#6, autoWaterEnabled := true } })
      (fun t => t.arb.mask == 0#6 && t.arb.livePump && t.out == [.startPump .auto 0]) = true ∧
    after (exec .dAutowater { base with arb := { base.arb with
      state := .dAutowater, mask := 0x04#6, autoWaterEnabled := true, livePump := true, pumpKind := .manual } })
      (fun t => t.arb.mask == 0#6 && t.arb.pumpKind == .manual && t.out == []) = true := by decide
/-- A6. -/
theorem test_dAutowater_dropped : after (exec .dAutowater (arbAt .dAutowater 0x04))
    (fun t => t.arb.mask == 0#6 && !t.arb.livePump && t.out == []) = true := by decide
/-- A10. -/
theorem test_dManwater_cancels : after (exec .dManwater { base with arb := { base.arb with
      state := .dManwater, mask := 0x08#6, livePump := true, pumpKind := .auto, manDuration := 30#8 } })
    (fun t => t.arb.livePump && t.arb.pumpKind == .manual &&
      t.out == [.cancelPump, .dutyOff, .startPump .manual 30#8]) = true := by decide
/-- A11. -/
theorem test_dManwater_guard : after (exec .dManwater { base with arb := { base.arb with
      state := .dManwater, mask := 0x08#6, livePump := true, pumpKind := .manual } })
    (fun t => t.arb.mask == 0#6 && t.arb.livePump && t.out == []) = true := by decide
/-- A14 and A15. -/
theorem test_dHistory : after (exec .dHistory (arbAt .dHistory 0x20))
      (fun t => t.arb.mask == 0#6 && t.arb.liveHistory && t.arb.state == .wHistory && t.out == [.startHistory]) = true ∧
    after (exec .dHistory (arbAt .dHistory 0)) (fun t => t.arb.state == .idle && t.out == []) = true := by decide
/-- A16 and A17. -/
theorem test_historyWaitEnd : after (exec .historyWaitEnd (arbAt .wHistory 0)) (fun t => t.arb.state == .idle) = true ∧
    after (exec .historyWaitEnd { base with arb := { base.arb with
      state := .wHistory, liveHistory := true, mask := 0x0F#6, wakePending := true } })
      (fun t => t.arb.state == .wHistory && t.arb.mask == 0x0F#6) = true := by decide
/-- A24. -/
theorem test_done : after (exec .donePump { base with arb := { base.arb with livePump := true, pumpKind := .manual } })
      (fun t => !t.arb.livePump && t.arb.pumpKind == .manual) = true ∧
    after (exec .doneSensor { base with arb := { base.arb with liveSensor := true } })
      (fun t => !t.arb.liveSensor) = true ∧
    after (exec .doneHistory { base with arb := { base.arb with liveHistory := true } })
      (fun t => !t.arb.liveHistory) = true := by decide

/-! ## Turns -/

/-- R90. -/
theorem test_chip_completes : after (runTurn .chip { base with
    chip := { mem := [(8, 1#8)], wel := true, wip := true, pending := [(8#9, 0x2A#8), (3#9, 5#8)] } })
    (fun t => t.chip == { mem := [(3, 5#8), (8, 0x2A#8)], wel := false, wip := false, pending := [] }) = true := by
  decide
/-- Z1. -/
theorem test_reset_turn : after (runTurn (.reset false quietDraw) (running rAppend .poll none (logAt .append 9)))
    (fun t => reqReady t && t.log.cursor == 0 && t.arb.mask == 0 && !t.rsp.valid) = true := by decide
/-- R30: a busy port accepts nothing. -/
theorem test_request_not_accepted : after (runTurn (.request rReadStatus) (running rAppend .poll none (logAt .append 9)))
    (fun t => t.lat == rAppend && t.eec.state == .poll) = true := by decide
/-- R125: the answer comes in the next step, before a turn that would accept another request; a reset may still cut
it. -/
theorem test_reserved_answer_first :
    after (step (withTurn (.request rReadStatus) { base with lat := bareRequest 6#4, illegalDue := true }))
      (fun t => answersStatus 7 t && t.agenda == [.request rReadStatus]) = true ∧
    after (step (withTurn (.reset false quietDraw) { base with lat := bareRequest 6#4, illegalDue := true }))
      (fun t => !t.rsp.valid && !t.illegalDue && t.agenda == []) = true := by decide
/-- The table's word of `APPEND_READING` runs as the next step. -/
theorem test_fetch_word : decodeTableWord 4 9 = some (.appendReading 0#8) ∧
    after (step (base.withFetchWord 4 9)) (answersStatus 3) = true := by decide

/-! ## Witnesses: states that meet the hypotheses of each statement, clause by clause -/

/-- An append whose write frame is due, the latch window open. -/
def writeDue : State := enabled rAppend .xfer none (logAt .append 31)

/-- An EEC poll that a busy chip answers. -/
def pollingBusy : State :=
  { running rReadByte .poll none (logAt .idle 0) with chip := { newChip with wip := true, pending := [(0x1FF#9, 1#8)] } }

/-- A poll under `POLL_LIMIT = 2` with `n` busy answers counted. -/
def limited (n : Nat) (b : Byte) : State :=
  { running rReadByte .poll (some (.ok [b])) (logAt .idle 0) with
    cfg := { cfg1 with pollLimit := some 2 }, eec := { state := .poll, pollCount := n } }

/-- The arbiter waiting for the history worker. -/
def historyWait : State := { base with arb := { base.arb with state := .wHistory, liveHistory := true } }

/-- The run in which the environment gives one turn again and again. -/
def feed (turn : Turn) (s : State) : Nat → State
  | 0 => s.withAgenda [turn]
  | n + 1 =>
    match step (feed turn s n) with
    | .next t => t.withAgenda (t.agenda ++ [turn])
    | .fault _ | .refused _ => feed turn s n

theorem feed_next {turn : Turn} {s t : State} {n : Nat} (h : step (feed turn s n) = .next t) :
    feed turn s (n + 1) = t.withAgenda (t.agenda ++ [turn]) := by
  simp only [feed, h]

theorem feed_chip (s : State) (hi : s.illegalDue = false) (n : Nat) :
    (feed .chip s n).agenda = [.chip] ∧ (feed .chip s n).illegalDue = false ∧ (feed .chip s n).eec = s.eec ∧
    (feed .chip s n).log = s.log ∧ (feed .chip s n).arb = s.arb ∧ ∃ t, step (feed .chip s n) = .next t := by
  induction n with
  | zero => exact ⟨rfl, hi, rfl, rfl, rfl, _, chip_step _ _ rfl hi⟩
  | succ n ih =>
    obtain ⟨h1, h2, h3, h4, h5, _⟩ := ih
    have e := feed_next (chip_step _ _ h1 h2)
    have a : (feed .chip s (n + 1)).agenda = [.chip] := by rw [e]; rfl
    have i : (feed .chip s (n + 1)).illegalDue = false := by rw [e]; exact h2
    exact ⟨a, i, by rw [e]; exact h3, by rw [e]; exact h4, by rw [e]; exact h5, _, chip_step _ _ a i⟩

theorem feed_arbiter (s : State) (hi : s.illegalDue = false) (n : Nat) :
    (feed .arbiter s n).agenda = [.arbiter] ∧ (feed .arbiter s n).illegalDue = false ∧
    (feed .arbiter s n).eec = s.eec ∧ (feed .arbiter s n).log = s.log ∧ (feed .arbiter s n).chip = s.chip ∧
    ∃ t, step (feed .arbiter s n) = .next t := by
  have go : ∀ u : State, u.agenda = [.arbiter] → u.illegalDue = false →
      ∃ t, step u = .next t ∧ ArbiterFrame (stepStart u []) t := by
    intro u h1 h2
    have e := step_agenda u .arbiter [] h1 (.inl h2)
    obtain ⟨t, ht⟩ := exec_next (decodeArbiter u.arb.state u.arb.wakePending) (stepStart u [])
    exact ⟨t, by rw [e]; exact ht, exec_arb_frame _ _ t (decodeArbiter_arb _ _) ht⟩
  induction n with
  | zero =>
    obtain ⟨t, ht, _⟩ := go (feed .arbiter s 0) rfl hi
    exact ⟨rfl, hi, rfl, rfl, rfl, t, ht⟩
  | succ n ih =>
    obtain ⟨h1, h2, h3, h4, h5, _⟩ := ih
    obtain ⟨t, ht, k⟩ := go _ h1 h2
    have e := feed_next ht
    have a : (feed .arbiter s (n + 1)).agenda = [.arbiter] := by
      rw [e]; show t.agenda ++ [.arbiter] = _; rw [k.agenda]; rfl
    have i : (feed .arbiter s (n + 1)).illegalDue = false := by rw [e]; exact k.illegalDue.trans h2
    obtain ⟨u, hu, _⟩ := go _ a i
    exact ⟨a, i, by rw [e]; exact k.eec.trans h3, by rw [e]; exact k.log.trans h4, by rw [e]; exact k.chip.trans h5,
      u, hu⟩

/-- With nothing enabled but the chip's completion, the chip's turns make a fair run. -/
theorem feed_chip_fair (s : State) (hi : s.illegalDue = false) (hr : reqReady s = true)
    (ha : stepEnabled .arb s = false) : FairRun (feed .chip s) := by
  obtain ⟨he, hl⟩ := (reqReady_iff s).mp hr
  refine ⟨fun n => ?_, fun a hc n => ⟨n, le_refl n, .inl ?_⟩, fun n => ⟨n, le_refl n, ?_⟩⟩
  · obtain ⟨t, ht⟩ := (feed_chip s hi n).2.2.2.2.2
    exact ⟨t, [.chip], ht, feed_next ht⟩
  · obtain ⟨_, h2, h3, h4, h5, _⟩ := feed_chip s hi n
    cases a with
    | eec => simp [stepEnabled, h2, h3, he]
    | log => simp [stepEnabled, h4, hl]
    | arb => rw [← ha]; unfold stepEnabled; rw [h5]
    | chip => exact absurd rfl hc
  · obtain ⟨h1, h2, _⟩ := feed_chip s hi n
    cases hw : (feed .chip s n).chip.wip with
    | false => exact .inl hw
    | true => right; simp [stepTaken, stepEnabled, hw, nextTurn, answerFirst, h2, scheduledTurn, h1, agentTurn]

/-- With nothing enabled but the arbiter, its turns make a fair run. -/
theorem feed_arbiter_fair (s : State) (hi : s.illegalDue = false) (hr : reqReady s = true)
    (hw : s.chip.wip = false) : FairRun (feed .arbiter s) := by
  obtain ⟨he, hl⟩ := (reqReady_iff s).mp hr
  refine ⟨fun n => ?_, fun a hc n => ⟨n, le_refl n, ?_⟩, fun n => ⟨n, le_refl n, .inl ?_⟩⟩
  · obtain ⟨t, ht⟩ := (feed_arbiter s hi n).2.2.2.2.2
    exact ⟨t, [.arbiter], ht, feed_next ht⟩
  · obtain ⟨h1, h2, h3, h4, _⟩ := feed_arbiter s hi n
    cases a with
    | eec => left; simp [stepEnabled, h2, h3, he]
    | log => left; simp [stepEnabled, h4, hl]
    | arb =>
      cases hen : stepEnabled .arb (feed .arbiter s n) with
      | false => exact .inl rfl
      | true => right; simp [stepTaken, hen, nextTurn, answerFirst, h2, scheduledTurn, h1, agentTurn]
    | chip => exact absurd rfl hc
  · simp [stepEnabled, (feed_arbiter s hi n).2.2.2.2.1, hw]

/-- A fair run with a step before it is one. -/
theorem fair_run_before {s t : State} {run : Nat → State} (h : FairRun run) (hs : step s = .next t)
    (h0 : ∃ turns, run 0 = t.withAgenda (t.agenda ++ turns)) :
    FairRun (fun n => match n with | 0 => s | n + 1 => run n) := by
  have later : ∀ a, WeaklyFair a run → WeaklyFair a (fun n => match n with | 0 => s | n + 1 => run n) := by
    intro a hf n
    obtain ⟨m, hm, hc⟩ := hf n
    exact ⟨m + 1, by omega, hc⟩
  refine ⟨fun n => ?_, fun a hc => later a (h.core a hc), later _ h.chip⟩
  cases n with
  | zero => obtain ⟨turns, e⟩ := h0; exact ⟨t, turns, hs, e⟩
  | succ n => exact h.isRun n

theorem witness_ResetInstallsResetValues : (∃ turn, turn = Turn.reset true quietDraw ∨ turn = .powerCycle true quietDraw 0) ∧
    ∃ turn, turn = Turn.reset false faultDraw ∨ turn = .powerCycle false faultDraw 0 :=
  ⟨⟨.reset true quietDraw, .inl rfl⟩, ⟨.powerCycle false faultDraw 0, .inr rfl⟩⟩

theorem witness_EveryStepKeepsInvariant : MachineInv (withTurn (.sequencer quietDraw) writeDue) ∧
    (∃ t, step (withTurn (.sequencer quietDraw) writeDue) = .next t) ∧
    MachineInv (withTurn .chip pollingBusy) ∧ ∃ t, step (withTurn .chip pollingBusy) = .next t :=
  ⟨machineInv_of_check (by decide), ⟨_, rfl⟩, machineInv_of_check (by decide), ⟨_, rfl⟩⟩

theorem witness_InvariantStepsAreSafe : MachineInv writeDue := machineInv_of_check (by decide)

theorem witness_DecodeAfterEncode : defaultOpcodes.wf = true ∧ otherOpcodes.wf = true ∧ Instr.wf (.write 0x1FF#9 [0#8]) = true ∧
    Instr.wf (.write 0x000#9 (List.replicate 16 0xFF#8)) = true ∧ Instr.wf (.resetLog 0) = true := by decide

theorem witness_FrameEncodeAfterDecode : defaultOpcodes.wf = true ∧ decodeFrame defaultOpcodes [0x05#8] = .ok .rdsr ∧ decodeFrame defaultOpcodes [0x06#8] = .ok .wren ∧
    decodeFrame defaultOpcodes [0x04#8] = .ok .wrdi ∧ decodeFrame defaultOpcodes [0x0B#8, 0xFF#8] = .ok (.read 0x1FF#9) ∧
    decodeFrame defaultOpcodes (0x02#8 :: 0x00#8 :: List.replicate 16 1#8) = .ok (.write 0 (List.replicate 16 1#8)) := by decide

theorem witness_AddressFold : defaultOpcodes.read.getLsbD 3 = false ∧ otherOpcodes.wf = true ∧ (0 < 8 ∧ 0 ≠ 3) ∧ 7 < 8 ∧ 7 ≠ 3 := by decide

theorem witness_RequestFieldsRead : (∀ op : OpCode, (bareRequest op).op = op) ∧ (16#5).toNat ≤ 16 ∧
    (0#5).toNat ≤ 16 ∧
    ∃ buf buf' : PageBuf, buf ≠ buf' ∧ ∀ i (h : i < 16), i < (15#5).toNat → buf[i] = buf'[i] := by
  refine ⟨fun _ => rfl, by decide, by decide,
    bufOf (List.replicate 15 7#8), bufOf (List.replicate 16 7#8), by decide, ?_⟩
  have h : ∀ i : Fin 16, i.val < (15#5).toNat →
      (bufOf (List.replicate 15 7#8))[i.val] = (bufOf (List.replicate 16 7#8))[i.val] := by decide
  exact fun i hi => h ⟨i, hi⟩

/-- A reserved code was accepted in the step before. -/
def answerDue : State := { base with lat := bareRequest 6#4, illegalDue := true }

theorem witness_StepRunsDecodedInstruction :
    (base.illegalDue = false ∧ writeDue.illegalDue = false ∧ mayFollowReserved (.reset false quietDraw) = true ∧
      mayFollowReserved (.sequencer quietDraw) = true) ∧
    (answerDue.illegalDue = true ∧ dueFrame answerDue = none ∧
      (withTurn .chip answerDue).agenda = .chip :: []) ∧
    ((withTurn (.request rAppend) base).agenda = .request rAppend :: [] ∧
      reqReady (withTurn (.request rAppend) base) = true) ∧
    ((withTurn (.request rAppend) writeDue).agenda = .request rAppend :: [] ∧
      reqReady (withTurn (.request rAppend) writeDue) = false) ∧
    decode base.cfg.opcodes (.event { quietEvents with timer := true }) = .ok .evTimer ∧
    decode base.cfg.opcodes (.done { quietDone with history := true }) = .ok .doneHistory ∧
    (dueFrame writeDue = some (.write 0x01F#9 [0x64#8]) ∧
      decodeFrame writeDue.cfg.opcodes (frameBytes writeDue.cfg.opcodes (.write 0x01F#9 [0x64#8])) =
        .ok (.write 0x01F#9 [0x64#8])) ∧
    (dueFrame (enabled rAppend .settle none (logAt .append 31)) = none ∧
      reqReady (enabled rAppend .settle none (logAt .append 31)) = false) ∧
    dueFrame base = none ∧ reqReady base = true := by decide

theorem witness_DueFrameOfPhase : MachineInv base ∧ MachineInv (enabled rWriteByte .settle none (logAt .idle 0)) ∧
    MachineInv (running rReadByte .poll none (logAt .idle 0)) ∧
    MachineInv (running rWriteByte .wren none (logAt .idle 0)) ∧
    (MachineInv (running rReadStatus .xfer none (logAt .idle 0)) ∧
      dueOp (running rReadStatus .xfer none (logAt .idle 0)) = some .readStatus) ∧
    (MachineInv (running rWriteEnable .xfer none (logAt .idle 0)) ∧
      dueOp (running rWriteEnable .xfer none (logAt .idle 0)) = some .writeEnable) ∧
    (MachineInv (running rWriteDisable .xfer none (logAt .idle 0)) ∧
      dueOp (running rWriteDisable .xfer none (logAt .idle 0)) = some .writeDisable) ∧
    (MachineInv (running rReadByte .xfer none (logAt .idle 0)) ∧
      dueOp (running rReadByte .xfer none (logAt .idle 0)) = some (.readByte 0x1FF#9)) ∧
    (MachineInv writeDue ∧ dueOp writeDue = some (.writeByte 0x01F#9 0x64#8)) ∧
    MachineInv (enabled rWritePage .xfer none (logAt .idle 0)) ∧
    dueOp (enabled rWritePage .xfer none (logAt .idle 0)) = some (.writePage 0x1F8#9 8#5 rWritePage.buf) :=
  ⟨machineInv_of_check (by decide), machineInv_of_check (by decide), machineInv_of_check (by decide),
   machineInv_of_check (by decide), ⟨machineInv_of_check (by decide), by decide⟩,
   ⟨machineInv_of_check (by decide), by decide⟩, ⟨machineInv_of_check (by decide), by decide⟩,
   ⟨machineInv_of_check (by decide), by decide⟩, ⟨machineInv_of_check (by decide), by decide⟩,
   machineInv_of_check (by decide), by decide⟩

theorem witness_StatusFrameReportsWipAndWel : base.cfg.wf = true ∧ base.busIn.fault = false ∧
    (7 : Fin 8) ≠ base.cfg.wipBit ∧ (7 : Fin 8) ≠ base.cfg.welBit := by decide

theorem witness_ReadFrameReturnsByte : base.busIn.fault = false ∧ base.chip.wip = false ∧
    pollingBusy.busIn.fault = false ∧ pollingBusy.chip.wip = true := by decide

theorem witness_EnableAndDisableFrames : base.busIn.fault = false ∧ base.chip.wip = false ∧
    pollingBusy.busIn.fault = false ∧ pollingBusy.chip.wip = true := by decide

theorem witness_WriteFrameStartsWrite : writeFrameLengthOk [0#8] = true ∧
    writeFrameLengthOk (List.replicate 16 0#8) = true ∧
    (writeDue.busIn.fault = false ∧ writeDue.chip.wel = true ∧ writeDue.chip.wip = false) ∧
    (base.busIn.fault = false ∧ base.chip.wel = false) ∧
    pollingBusy.busIn.fault = false ∧ pollingBusy.chip.wip = true := by decide

theorem witness_FaultedExchangeLeavesOldOrNew : ({ base with busIn := faultDraw } : State).busIn.fault = true ∧
    (∃ a, Instr.read 0x1FF#9 = .read a) ∧
    (∃ a data, Instr.write 0#9 [1#8] = .write a data ∧ Instr.wf (.write 0#9 [1#8]) = true) ∧
    writeFrameLengthOk [1#8] = true ∧ writeFrameLengthOk (List.replicate 16 1#8) = true :=
  ⟨rfl, ⟨_, rfl⟩, ⟨_, _, rfl, by decide⟩, by decide, by decide⟩

theorem witness_ChipCompletesWrite : pollingBusy.chip.wip = true ∧
    (∀ p ∈ pollingBusy.chip.pending, p.1 ≠ 0x1FE#9) ∧
    (pollingBusy.chip.pending = [] ++ (0x1FF#9, 1#8) :: [] ∧ ∀ q ∈ ([] : List (Addr × Byte)), q.1 ≠ 0x1FF#9) ∧
    base.chip.wip = false := by simp [pollingBusy, running, base, State.reset, newChip]

theorem witness_ChipCompletesWrite_run : ∃ run, FairRun run ∧ (run 0).chip.wip = true :=
  ⟨_, feed_chip_fair { base with chip := pollingBusy.chip } rfl rfl rfl, rfl⟩

theorem witness_WrittenBytesAreReadBack : writeFrameLengthOk [1#8, 2#8] = true ∧
    [1#8, 2#8].length ≤ 16 - (0x1FE#9).toNat % 16 ∧ writeDue.busIn.fault = false ∧ writeDue.chip.wel = true ∧
    writeDue.chip.wip = false := by decide

theorem witness_DriverOperationsStart : reqReady base = true := by decide

theorem witness_WritePageSizeCheck : PortIdle base ∧ (16 - (0x1FF#9).toNat % 16 < (2#5).toNat) ∧
    ((1#5).toNat ≤ 16 - (0x1FF#9).toNat % 16 ∧ 1#5 ≠ 0) ∧
    ((16#5).toNat ≤ 16 - (0x1F0#9).toNat % 16 ∧ 16#5 ≠ 0) ∧ 16 - (0x1F0#9).toNat % 16 < (17#5).toNat := by
  unfold PortIdle; decide

theorem witness_PollAnswers :
    (MachineInv (running rReadByte .poll (some (.ok [0xFC#8])) (logAt .idle 0)) ∧ (0xFC#8).getLsbD cfg1.wipBit = false) ∧
    (MachineInv (running rReadByte .poll (some (.ok [0x03#8])) (logAt .idle 0)) ∧ (0x03#8).getLsbD cfg1.wipBit = true ∧
      cfg1.pollLimit = none) ∧
    (MachineInv (limited 0 0x01#8) ∧ (limited 0 0x01#8).eec.state = .poll ∧
      (limited 0 0x01#8).bus.reply = some (.ok [0x01#8]) ∧ (limited 0 0x01#8).cfg.pollLimit = some 2 ∧
      (limited 0 0x01#8).eec.pollCount + 1 < 2) ∧
    MachineInv (limited 1 0x01#8) ∧ (limited 1 0x01#8).cfg.pollLimit = some 2 ∧
      2 ≤ (limited 1 0x01#8).eec.pollCount + 1 :=
  ⟨⟨machineInv_of_check (by decide), by decide⟩, ⟨machineInv_of_check (by decide), by decide⟩,
   ⟨machineInv_of_check (by decide), by decide⟩, machineInv_of_check (by decide), by decide⟩

theorem witness_EnableThenSettleThenWrite : MachineInv (enabled rWriteByte .wren (some (.ok [])) (logAt .idle 0)) ∧
    (enabled rWriteByte .wren (some (.ok [])) (logAt .idle 0)).bus.reply = some (.ok []) ∧
    MachineInv (enabled rWriteByte .settle none (logAt .idle 0)) :=
  ⟨machineInv_of_check (by decide), by decide, machineInv_of_check (by decide)⟩

theorem witness_WriteFrameFollowsEnable : MachineInv writeDue ∧ dueFrame writeDue = some (.write 0x01F#9 [0x64#8]) ∧
    quietDraw.fault = false := ⟨machineInv_of_check (by decide), by decide, by decide⟩

theorem witness_AddressedFramesMeetIdleChip : (MachineInv (running rReadByte .xfer none (logAt .idle 0)) ∧
      dueFrame (running rReadByte .xfer none (logAt .idle 0)) = some (.read 0x1FF#9)) ∧
    (MachineInv writeDue ∧ dueFrame writeDue = some (.write 0x01F#9 [0x64#8])) ∧
    MachineInv (running rWriteByte .wren none (logAt .idle 0)) ∧
    dueFrame (running rWriteByte .wren none (logAt .idle 0)) = some .wren :=
  ⟨⟨machineInv_of_check (by decide), by decide⟩, ⟨machineInv_of_check (by decide), by decide⟩,
   machineInv_of_check (by decide), by decide⟩

theorem witness_DriverReadsEnd :
    let s := running rReadStatus .xfer (some (.ok [0xFF#8])) (logAt .idle 0)
    let t := running rReadByte .xfer (some (.ok [0xFF#8])) (logAt .idle 0)
    (s.log.state = .idle ∧ s.eec.state = .xfer ∧ s.bus.reply = some (.ok [0xFF#8]) ∧ s.lat.op = 0) ∧
    t.log.state = .idle ∧ t.eec.state = .xfer ∧ t.bus.reply = some (.ok [0xFF#8]) ∧ t.lat.op = 3 := by decide

theorem witness_DriverCommandsEnd :
    [rWriteEnable, rWriteDisable, rWriteByte, rWritePage].map (fun r =>
      let s := running r .xfer (some (.ok [])) (logAt .idle 0)
      (s.log.state, s.eec.state, s.bus.reply, s.lat.op)) =
    [1, 2, 4, 5].map fun op => (.idle, .xfer, some (.ok []), op) := by decide

theorem witness_FaultEndsOperation : MachineInv (running rAppend .xfer (some .fault) (logAt .append 9)) ∧
    MachineInv (running rReadByte .poll (some .fault) (logAt .idle 0)) ∧
    (running rAppend .xfer (some .fault) (logAt .append 9)).bus.reply = some .fault :=
  ⟨machineInv_of_check (by decide), machineInv_of_check (by decide), by decide⟩

theorem witness_ReservedCodesAnswerIllegal : (reqReady base = true ∧ base.illegalDue = false ∧ base.lat.op ≠ 6) ∧
    (reqReady answerDue = true ∧ answerDue.illegalDue = true ∧ answerDue.lat.op = 6) ∧
    MachineInv { base with agenda := [.request (bareRequest 15#4), .request rAppend] } ∧ (bareRequest 15#4).op = 15 ∧
    (∀ c d, Turn.request rAppend ≠ .reset c d) ∧ ∀ c d l, Turn.request rAppend ≠ .powerCycle c d l :=
  ⟨by decide, by decide, machineInv_of_check (by decide), by decide, by simp, by simp⟩

theorem witness_PollHangs : PollingBusyChip (withTurn (.sequencer quietDraw) pollingBusy) ∧
    pollingBusy.cfg.wf = true ∧ pollingBusy.cfg.pollLimit = none ∧ nextTurn (withTurn (.sequencer quietDraw) pollingBusy) = .sequencer quietDraw ∧
    quietDraw.fault = false ∧ ∃ t, step (withTurn (.sequencer quietDraw) pollingBusy) = .next t :=
  ⟨⟨rfl, rfl, .inl rfl⟩, rfl, rfl, rfl, rfl, ⟨_, rfl⟩⟩

/-- A run that starts with `read_status` about to end. -/
theorem witness_PollHangs_run : ∃ run, FairRun run ∧ MachineInv (run 0) ∧ reqReady (run 0) = false := by
  let s := withTurn (.sequencer quietDraw) (running rReadStatus .xfer (some (.ok [0#8])) (logAt .idle 0))
  have hs : MachineInv s := machineInv_of_check (by decide)
  obtain ⟨t, ht, h1, h2, h3, h4⟩ : ∃ t, step s = .next t ∧ t.agenda = [] ∧ t.illegalDue = false ∧
      reqReady t = true ∧ stepEnabled .arb t = false := ⟨_, rfl, rfl, rfl, rfl, rfl⟩
  exact ⟨_, fair_run_before (feed_chip_fair t h2 h3 h4) ht ⟨[.chip], by rw [h1]; rfl⟩, hs, rfl⟩

theorem witness_LogSubOperations : MachineInv (running rResetLog .idle none (logAt .hdr 0)) ∧
    (MachineInv (running rResetLog .idle none { logAt .fill 0 with fillAddr := 31 }) ∧
      ({ logAt .fill 0 with fillAddr := 31 } : LogUnit).fillAddr.toNat < 8 + 24 * cfg1.sph.toNat) ∧
    MachineInv (running rAppend .idle none (logAt .append 31)) ∧
    MachineInv (running rReadReading .idle none (logAt .read 10)) ∧
    MachineInv (running rReadLast .idle none (logAt .read 9)) ∧
    MachineInv (running rReadHeader .idle none { logAt .tsread 8 with tsK := 7 }) :=
  ⟨machineInv_of_check (by decide), ⟨machineInv_of_check (by decide), by decide⟩, machineInv_of_check (by decide),
   machineInv_of_check (by decide), machineInv_of_check (by decide), machineInv_of_check (by decide)⟩

theorem witness_LogStartsSubOperation : MachineInv (running rAppend .idle none (logAt .append 31)) ∧
    dueOp (running rAppend .idle none (logAt .append 31)) = some (.writeByte 0x01F#9 0x64#8) :=
  ⟨machineInv_of_check (by decide), by decide⟩

theorem witness_ResetLogPhases : reqReady base = true ∧
    [logAt .hdr 0, logAt .fill 0].map (fun l =>
      let s := running rResetLog .xfer (some (.ok [])) l
      (s.lat.op, s.log.state, s.eec.state, s.bus.reply)) =
      [(8#4, .hdr, .xfer, some (.ok [])), (8#4, .fill, .xfer, some (.ok []))] ∧
    let t := running rResetLog .idle none { logAt .fill 0 with fillAddr := 32 }
    t.lat.op = 8 ∧ t.log.state = .fill ∧ t.eec.state = .idle ∧ 8 + 24 * t.cfg.sph.toNat ≤ t.log.fillAddr.toNat := by
  decide

theorem witness_FillPartition : ((31#10).toNat < 8 + 24 * cfg1.sph.toNat ∧ (0#10).toNat < 8 + 24 * cfg1.sph.toNat) ∧
    ((16#10).toNat % 16 = 0 ∧ (16#10).toNat + 16 ≤ 8 + 24 * cfg1.sph.toNat) ∧
    ((16#10).toNat < 8 + 24 * cfg1.sph.toNat ∧ 8 + 24 * cfg1.sph.toNat ≤ (16#10).toNat + 16) ∧
    (48#10).toNat % 16 = 0 ∧ (48#10).toNat < 8 + 24 * Sph.sph2.toNat ∧
    8 + 24 * Sph.sph2.toNat ≤ (48#10).toNat + 16 := by decide

theorem witness_AppendReading : (reqReady (logged 7) = true ∧ (logged 7).log.cursor.toNat < 8) ∧
    (reqReady (logged 32) = true ∧ 8 + 24 * (logged 32).cfg.sph.toNat ≤ (logged 32).log.cursor.toNat) ∧
    (8 ≤ (logged 8).log.cursor.toNat ∧ (logged 31).log.cursor.toNat < 8 + 24 * (logged 31).cfg.sph.toNat) ∧
    let t := running rAppend .xfer (some (.ok [])) (logAt .append 31)
    t.lat.op = 9 ∧ t.log.state = .append ∧ t.eec.state = .xfer ∧ t.bus.reply = some (.ok []) := by decide

theorem witness_ReadReading : (reqReady (logged 0) = true ∧ (logged 0).log.cursor.toNat < 8) ∧
    (reqReady (logged 11) = true ∧ (logged 11).log.cursor.toNat - 8 ≤ (3#16).toNat) ∧
    8 + (2#16).toNat < (logged 11).log.cursor.toNat ∧
    let t := running rReadReading .xfer (some (.ok [1#8])) (logAt .read 10)
    t.lat.op = 10 ∧ t.log.state = .read ∧ t.eec.state = .xfer ∧ t.bus.reply = some (.ok [1#8]) := by decide

theorem witness_ReadLastReading : (reqReady (logged 8) = true ∧ (logged 8).log.cursor.toNat ≤ 8) ∧
    (reqReady (logged 9) = true ∧ 8 < (logged 9).log.cursor.toNat) ∧
    let t := running rReadLast .xfer (some (.ok [1#8])) (logAt .read 9)
    t.lat.op = 11 ∧ t.log.state = .read ∧ t.eec.state = .xfer ∧ t.bus.reply = some (.ok [1#8]) := by decide

theorem witness_ReadHeaderTimestamp : (reqReady (logged 7) = true ∧ (logged 7).log.cursor.toNat < 8) ∧
    (reqReady (logged 8) = true ∧ 8 ≤ (logged 8).log.cursor.toNat) ∧
    (let t := running rReadHeader .xfer (some (.ok [1#8])) { logAt .tsread 8 with tsK := 7 }
     t.lat.op = 12 ∧ t.log.state = .tsread ∧ t.eec.state = .xfer ∧ t.bus.reply = some (.ok [1#8]) ∧
      t.log.tsK.toNat < 8) ∧
    let u := running rReadHeader .idle none { logAt .tsread 8 with tsK := 8 }
    u.lat.op = 12 ∧ u.log.state = .tsread ∧ u.eec.state = .idle ∧ 8 ≤ u.log.tsK.toNat := by decide

theorem witness_ReadingTimestamp : reqReady base = true := by decide

theorem witness_CursorMoves :
    (∃ t, step (withTurn (.sequencer quietDraw) (running rAppend .xfer (some (.ok [])) (logAt .append 31))) = .next t ∧
      t.log.cursor = 32) ∧
    (∃ t, step (withTurn (.sequencer quietDraw)
      (running rResetLog .idle none { logAt .fill 11 with fillAddr := 32 })) = .next t ∧ t.log.cursor = 8) ∧
    ∃ t, step (withTurn (.reset false quietDraw) (logged 11)) = .next t ∧ t.log.cursor = 0 :=
  ⟨⟨_, rfl, by decide⟩, ⟨_, rfl, by decide⟩, ⟨_, rfl, by decide⟩⟩

theorem witness_ResponseFreesPort :
    ∃ t, step (withTurn (.sequencer quietDraw) (running rAppend .xfer (some (.ok [])) (logAt .append 31))) = .next t ∧
      t.rsp.valid = true := ⟨_, rfl, by decide⟩

theorem witness_DecideWatering : reqReady base = true ∧ 50 ≤ (50#8).toNat ∧ (49#8).toNat < 50 ∧ 41 ≤ (41#8).toNat ∧
    (31 ≤ (40#8).toNat ∧ (40#8).toNat ≤ 40) ∧ (21 ≤ (30#8).toNat ∧ (30#8).toNat ≤ 30) ∧
    (11 ≤ (11#8).toNat ∧ (11#8).toNat ≤ 20) ∧ (1 ≤ (10#8).toNat ∧ (10#8).toNat ≤ 10) ∧ (0#8).toNat = 0 := by decide

theorem witness_Wakes : (arbAt .idle 0).arb.state = .idle ∧
    ({ base with arb := { base.arb with wakePending := true } } : State).arb.wakePending = true ∧
    base.arb.wakePending = false ∧ base.cfg.idleTimeoutFinite = true ∧
    ({ base with cfg := { cfg1 with idleTimeoutFinite := false } } : State).cfg.idleTimeoutFinite = false := by decide

theorem witness_SampleDispatch : (arbAt .dSample 0x3C).arb.state = .dSample ∧
    ((arbAt .dSample 0x3C).arb.mask.getLsbD 0 = false ∧ (arbAt .dSample 0x3C).arb.mask.getLsbD 1 = false) ∧
    (arbAt .dSample 0x01).arb.mask.getLsbD 0 = true ∧ (arbAt .dSample 0x02).arb.mask.getLsbD 1 = true ∧
    (arbAt .dSample 0x02).arb.liveSensor = false ∧
    ({ base with arb := { base.arb with state := .dSample, mask := 3, liveSensor := true } } : State).arb.liveSensor =
      true := by decide

theorem witness_AutoEnableDispatch : (arbAt .dAutoen 0x10).arb.state = .dAutoen ∧
    (arbAt .dAutoen 0x10).arb.mask.getLsbD 4 = true ∧ (arbAt .dAutoen 0x2F).arb.mask.getLsbD 4 = false := by decide

theorem witness_AutoWaterDispatch :
    let s : State := { base with arb := { base.arb with state := .dAutowater, mask := 4, autoWaterEnabled := true } }
    (s.arb.state = .dAutowater ∧ s.arb.mask.getLsbD 2 = true ∧ s.arb.autoWaterEnabled = true ∧
      s.arb.livePump = false) ∧
    ((arbAt .dAutowater 4).arb.mask.getLsbD 2 = true ∧ (arbAt .dAutowater 4).arb.autoWaterEnabled = false) ∧
    (arbAt .dAutowater 0x3B).arb.mask.getLsbD 2 = false := by decide

/-- A pump worker of a kind is live when a manual watering is dispatched. -/
def pumpLive (k : Kind) : State :=
  { base with arb := { base.arb with state := .dManwater, mask := 8, livePump := true, pumpKind := k } }

theorem witness_ManualWaterDispatch :
    ((pumpLive .auto).arb.state = .dManwater ∧ (pumpLive .auto).arb.mask.getLsbD 3 = true ∧
      (pumpLive .auto).arb.livePump = true ∧ (pumpLive .auto).arb.pumpKind = .auto) ∧
    ((pumpLive .manual).arb.livePump = true ∧ (pumpLive .manual).arb.pumpKind = .manual) ∧
    ((arbAt .dManwater 8).arb.mask.getLsbD 3 = true ∧ (arbAt .dManwater 8).arb.livePump = false) ∧
    (arbAt .dManwater 0x37).arb.mask.getLsbD 3 = false := by decide

theorem witness_HistoryDispatchAndWait :
    ((arbAt .dHistory 0x20).arb.state = .dHistory ∧ (arbAt .dHistory 0x20).arb.mask.getLsbD 5 = true ∧
      (arbAt .dHistory 0x20).arb.liveHistory = false) ∧
    (let s : State := { base with arb := { base.arb with state := .dHistory, mask := 0x20, liveHistory := true } }
     s.arb.state = .dHistory ∧ s.arb.mask.getLsbD 5 = true ∧ s.arb.liveHistory = true) ∧
    (arbAt .dHistory 0x1F).arb.mask.getLsbD 5 = false ∧
    ((arbAt .wHistory 0).arb.state = .wHistory ∧ (arbAt .wHistory 0).arb.liveHistory = false) ∧
    historyWait.arb.state = .wHistory ∧ historyWait.arb.liveHistory = true := by decide

theorem witness_MaskBitsClearedByArbiterOnly :
    ∃ t, step (withTurn .arbiter (arbAt .dManwater 0x08)) = .next t ∧
      (arbAt .dManwater 0x08).arb.mask.getLsbD 3 = true ∧ t.arb.mask.getLsbD 3 = false := ⟨_, rfl, by decide⟩

theorem witness_ArbAndRequestSideAreSeparate :
    (∃ t, step (withTurn .arbiter (arbAt .dSample 1)) = .next t) ∧
    (∃ t, step (withTurn (.done { quietDone with pump := true }) base) = .next t) ∧
    (∃ t, step (withTurn (.events { quietEvents with timer := true }) base) = .next t) ∧
    (∃ t, step (withTurn (.request rAppend) base) = .next t) ∧
    (∃ t, step (withTurn (.sequencer faultDraw) writeDue) = .next t) ∧
    ∃ t, step (withTurn .chip pollingBusy) = .next t :=
  ⟨⟨_, rfl⟩, ⟨_, rfl⟩, ⟨_, rfl⟩, ⟨_, rfl⟩, ⟨_, rfl⟩, ⟨_, rfl⟩⟩

theorem witness_StartsFindFreeHandle :
    (∃ t, step (withTurn .arbiter (arbAt .dSample 1)) = .next t ∧ .startSensor .auto ∈ t.out) ∧
    (∃ t, step (withTurn .arbiter (arbAt .dManwater 8)) = .next t ∧ .startPump .manual 0 ∈ t.out) ∧
    ∃ t, step (withTurn .arbiter (arbAt .dHistory 0x20)) = .next t ∧ .startHistory ∈ t.out :=
  ⟨⟨_, rfl, by decide⟩, ⟨_, rfl, by decide⟩, ⟨_, rfl, by decide⟩⟩

theorem witness_HistoryWaitBlocks : historyWait.arb.state = .wHistory ∧ historyWait.arb.liveHistory = true ∧
    (∃ t, step (withTurn (.done { quietDone with pump := true }) historyWait) = .next t) ∧
    nextTurn (withTurn (.done { quietDone with pump := true }) historyWait) = .done { quietDone with pump := true } ∧
    (∃ t, step (withTurn .arbiter historyWait) = .next t) ∧ nextTurn (withTurn .arbiter historyWait) = .arbiter :=
  ⟨rfl, rfl, ⟨_, rfl⟩, rfl, ⟨_, rfl⟩, rfl⟩

theorem witness_MemorySurvivesReset : dueFrame base = none ∧ base.chip.pending = [] ∧
    (dueFrame writeDue = some (.write 0x01F#9 [0x64#8]) ∧
      ∀ p ∈ addressedPairs (.write 0x01F#9 [0x64#8]), p.1 ≠ 0x01E#9) ∧
    ∀ p ∈ pollingBusy.chip.pending, p.1 ≠ 0x1FE#9 :=
  ⟨by decide, by decide, ⟨by decide, by simp [addressedPairs, writePairs, burstAddress]⟩, by simp [pollingBusy]⟩

theorem witness_WakeDrainsMask :
    let s : State := { base with
      arb := { base.arb with mask := 0x3F, wakePending := true }, agenda := List.replicate 6 .arbiter }
    s.arb.state = .idle ∧ s.arb.wakePending = true ∧ s.illegalDue = false ∧
      s.agenda = List.replicate 6 .arbiter ++ [] := by decide

theorem witness_WakeDrainsMask_run : ∃ run, FairRun run ∧ (run 0).arb.state = .idle ∧ (run 0).arb.wakePending = true :=
  ⟨_, feed_arbiter_fair { base with arb := { base.arb with mask := 0x3F, wakePending := true } } rfl rfl rfl, rfl, rfl⟩

/-- An agenda that gives the request and then the sequencer `n` turns. -/
def runAgenda (r : Request) (n : Nat) : List Turn :=
  .request r :: ((List.replicate n quietDraw).map .sequencer ++ [.chip])

/-- The draws of three page writes without a fault: the header and two fill bursts, `SPH = 1`. -/
def quietWrites : List (List BusDraw) := List.replicate 3 (List.replicate 8 quietDraw)

theorem witness_TimestampRoundTrip :
    (let s := { base with agenda := .request rResetLog ::
        ((quietWrites.map fun w => w.map Turn.sequencer ++ [.chip]).flatten ++ .sequencer quietDraw :: []) }
     MachineInv s ∧ reqReady s = true ∧ s.illegalDue = false ∧ s.chip.wip = false ∧ rResetLog.op = 8 ∧
      quietWrites.length = 1 + (8 + 24 * s.cfg.sph.toNat + 15) / 16 ∧
      ∀ w ∈ quietWrites, w.length = 8 ∧ ∀ d ∈ w, d.fault = false) ∧
    (∀ d ∈ List.replicate 41 quietDraw, d.fault = false) ∧
    let cells : Memory := [(0, 0xC3#8), (1, 0xB2#8), (2, 0xA1#8), (3, 0x65#8), (4, 0), (5, 0), (6, 0), (7, 0)]
    let s := { logged 8 with
      chip := { newChip with mem := cells }
      agenda := .request rReadHeader :: ((List.replicate 41 quietDraw).map .sequencer ++ []) }
    MachineInv s ∧ reqReady s = true ∧ s.illegalDue = false ∧ s.chip.wip = false ∧ rReadHeader.op = 12 ∧
      8 ≤ s.log.cursor.toNat ∧
      ∀ k : Fin 8, s.chip.byteAt (BitVec.ofNat 9 k) = (0x65A1B2C3#64).extractLsb' (8 * k) 8 :=
  ⟨⟨machineInv_of_check (by decide), by decide⟩, fun d hd => by rw [List.eq_of_mem_replicate hd]; rfl,
   machineInv_of_check (by decide), by decide⟩

theorem witness_AppendRun :
    let s := { logged 31 with agenda := runAgenda rAppend 8 }
    MachineInv s ∧ reqReady s = true ∧ s.illegalDue = false ∧ s.chip.wip = false ∧ rAppend.op = 9 ∧ initialised s.log.cursor = true ∧
      s.log.cursor.toNat < ceiling s.cfg ∧ (∀ d ∈ List.replicate 8 quietDraw, d.fault = false) ∧
      s.agenda = .request rAppend :: ((List.replicate 8 quietDraw).map .sequencer ++ .chip :: []) :=
  ⟨machineInv_of_check (by decide), by decide⟩

theorem witness_ReadLastRun :
    let s := { logged 32 with agenda := runAgenda rReadLast 5 }
    MachineInv s ∧ reqReady s = true ∧ s.illegalDue = false ∧ s.chip.wip = false ∧ rReadLast.op = 11 ∧ 8 < s.log.cursor.toNat ∧
      (∀ d ∈ List.replicate 5 quietDraw, d.fault = false) ∧
      s.agenda = .request rReadLast :: ((List.replicate 5 quietDraw).map .sequencer ++ [.chip]) :=
  ⟨machineInv_of_check (by decide), by decide⟩

theorem witness_WritePageRun :
    let s := { base with agenda := runAgenda rWritePage 7 }
    MachineInv s ∧ reqReady s = true ∧ s.illegalDue = false ∧ s.chip.wip = false ∧ rWritePage.op = 5 ∧ rWritePage.len ≠ 0 ∧
      rWritePage.len.toNat ≤ 16 - rWritePage.addr.toNat % 16 ∧
      (∀ d ∈ List.replicate 7 quietDraw, d.fault = false) ∧
      s.agenda = .request rWritePage :: ((List.replicate 7 quietDraw).map .sequencer ++ .chip :: []) :=
  ⟨machineInv_of_check (by decide), by decide⟩

end Sys2Proof.Tests
end

section
/-! The request port's encoding: the operand fields a code reads (R118, R119) and the bytes a page write sends. -/

namespace Sys2Proof.Machine

/-- A request may be decoded with its code written out, which then selects the row by computation. -/
theorem decodeRequest_eq_of_op {r : Request} {code : OpCode} (h : r.op = code) :
    decodeRequest r = decodeRequest { r with op := code } := by
  rw [← h]

@[simp] theorem finalFrame_writePage (a : Addr) (len : BitVec 5) (buf : PageBuf) :
    finalFrame (.writePage a len buf) = some (.write a (buf.toList.take len.toNat)) := rfl

theorem getElem?_take_pageBuf (buf : PageBuf) {n i : Nat} (hi : i < 16) (hin : i < n) :
    (buf.toList.take n)[i]? = some buf[i] := by
  rw [List.getElem?_take_of_lt hin, List.getElem?_eq_getElem (by simpa using hi), Vector.getElem_toList]

/-- The prefix a page write sends depends only on the buffer elements below its length. -/
theorem take_pageBuf_congr {buf buf' : PageBuf} {n : Nat}
    (h : ∀ i (hi : i < 16), i < n → buf[i] = buf'[i]) : buf.toList.take n = buf'.toList.take n := by
  apply List.ext_getElem
  · simp
  · intro i hi _
    have hlt : i < n ∧ i < 16 := by simpa using hi
    simpa using h i hlt.2 hlt.1

/-- Settles O9: the code selects the row by computation, and a page write's frame carries the buffer's prefix of its
length. -/
theorem requestFieldsRead : Obligations.RequestFieldsRead := by
  unfold Obligations.RequestFieldsRead
  refine ⟨fun r => ?codes, fun a len buf hlen => ?bytes, fun a len buf buf' hagree => ?ignored⟩
  case codes => and_intros <;> exact decodeRequest_eq_of_op
  case bytes =>
    refine ⟨_, finalFrame_writePage a len buf, ?_, fun i hi hin => getElem?_take_pageBuf buf hi hin⟩
    simpa using hlen
  case ignored => simp only [finalFrame_writePage, take_pageBuf_congr hagree]

end Sys2Proof.Machine
end

section
/-! The request port accepting a page write: the check of its length against the page (R147, R150, R152). -/

namespace Sys2Proof.Machine

theorem PortIdle.reqReady {s : State} (h : PortIdle s) : reqReady s = true :=
  (reqReady_iff s).mpr ⟨h.1, h.2.1⟩

theorem PortIdle.withLat {s : State} (h : PortIdle s) (l : Request) : PortIdle (s.withLat l) := h

/-- With `req_ready` a request's step is the operation's first step on the latched operands. -/
theorem requestStep_ready (op : OpCode) (latch : Request → Request) (first : State → State) {s : State}
    (h : reqReady s = true) :
    requestStep op latch first s = first (s.withLat { latch s.lat with op := op }) :=
  if_pos h

/-- On an idle port, where EEC has no state to leave and no reply to take, the end of an operation is its response
alone. -/
theorem endDriver_portIdle (st : Status) (d : BitVec 64) {s : State} (h : PortIdle s) :
    endDriver st d s = respond st d s := by
  obtain ⟨heec, hlog, hreply⟩ := h
  have heec' : { s.eec with state := .idle } = s.eec := by rw [← heec]
  have hbus' : { s.bus with reply := none } = s.bus := by rw [← hreply]
  rw [endDriver_alone st d s hlog, heec', hbus']
  rfl

theorem startDriver_writePage_tooLong {a : Addr} {len : BitVec 5} (buf : PageBuf) (s : State)
    (h : maxSize a < len.toNat) : startDriver (.writePage a len buf) s = endDriver .sizeExceedsPage 0 s :=
  if_pos h

theorem startDriver_writePage_empty (a : Addr) (buf : PageBuf) (s : State) :
    startDriver (.writePage a 0 buf) s = endDriver .ok 0 s := by
  simp [startDriver]

theorem startDriver_writePage_fits {a : Addr} {len : BitVec 5} (buf : PageBuf) (s : State)
    (h : len.toNat ≤ maxSize a) (hne : len ≠ 0) : startDriver (.writePage a len buf) s = enterPoll s :=
  (if_neg h.not_gt).trans (if_neg hne)

/-- A page write on an idle port is accepted: its operands are latched and its first step runs. -/
theorem exec_writePage_portIdle {s : State} (h : PortIdle s) (a : Addr) (len : BitVec 5) (buf : PageBuf) :
    exec (.writePage a len buf) s = .next (startDriver (.writePage a len buf)
      (s.withLat { s.lat with op := 5, addr := a, len := len, buf := buf })) :=
  congrArg Host.Outcome.next (requestStep_ready _ _ _ h.reqReady)

/-- Settles O20: the accepting step is `startDriver` on the latched operands, which ends a page write longer than
`maxSize` or empty with its response alone and enters the poll with any other. -/
theorem writePageSizeCheck : Obligations.WritePageSizeCheck := by
  unfold Obligations.WritePageSizeCheck
  intro s a len buf hidle
  refine ⟨maxSize_bounds a, fun hlong => ?tooLong, fun hzero => ?empty, fun hfits hne => ?fits⟩
  case tooLong =>
    rw [exec_writePage_portIdle hidle, startDriver_writePage_tooLong buf _ hlong,
      endDriver_portIdle _ _ (hidle.withLat _)]
    exact ⟨_, rfl⟩
  case empty =>
    subst hzero
    rw [exec_writePage_portIdle hidle, startDriver_writePage_empty, endDriver_portIdle _ _ (hidle.withLat _)]
    rfl
  case fits =>
    rw [exec_writePage_portIdle hidle, startDriver_writePage_fits buf _ hfits hne]
    rfl

end Sys2Proof.Machine
end

section
/-! The zero fill of `reset_log`: each burst ends at the next page boundary or at the ceiling, so the bursts from the
first slot cut the data region at its page boundaries (R182). -/

namespace Sys2Proof.Machine

theorem ceiling_eq (c : Params) : ceiling c = 8 + 24 * c.sph.toNat := rfl

theorem fillBurst_eq (c : Params) (x : BitVec 10) :
    fillBurst c x = min (16 - x.toNat % 16) (ceiling c - x.toNat) := rfl

theorem firstSlot_toNat : (8 : BitVec 10).toNat = 8 := rfl

theorem fillBurst_wholePage {c : Params} {x : BitVec 10} (hpage : x.toNat % 16 = 0) (hroom : x.toNat + 16 ≤ ceiling c) :
    fillBurst c x = 16 := by
  rw [fillBurst_eq]; omega

/-- From a page start within a page of the ceiling the burst is all that is left; `CEILING = 8 + 24 * SPH` is 8 modulo
16 for even `SPH` and 0 for odd. -/
theorem fillBurst_lastPage {c : Params} {x : BitVec 10} (hpage : x.toNat % 16 = 0) (hx : x.toNat < ceiling c)
    (hlast : ceiling c ≤ x.toNat + 16) : fillBurst c x = if c.sph.toNat % 2 = 0 then 8 else 16 := by
  have hrest : fillBurst c x = ceiling c - x.toNat := by rw [fillBurst_eq]; omega
  have hceil := ceiling_eq c
  rw [hrest]
  split <;> omega

/-- The fill address after the burst at `x`, as `logReceive` advances it. -/
def fillNext (c : Params) (x : BitVec 10) : BitVec 10 := x + BitVec.ofNat 10 (fillBurst c x)

/-- `fillNext` is the model's own advance at the acknowledged end of a fill burst. -/
theorem logReceive_fill_fillAddr (d : BitVec 64) {s : State} (h : s.log.state = .fill) :
    (logReceive .ok d s).log.fillAddr = fillNext s.cfg s.log.fillAddr := by
  simp [logReceive, h, fillNext]

/-- A burst advances to the next page boundary, or to the ceiling where that comes first. -/
theorem fillNext_toNat {c : Params} {x : BitVec 10} (h : x.toNat ≤ ceiling c) :
    (fillNext c x).toNat = min (16 * (x.toNat / 16 + 1)) (ceiling c) := by
  have hb := ceiling_bounds c
  rw [fillNext, BitVec.toNat_add, BitVec.toNat_ofNat, fillBurst_eq]
  omega

theorem repeat_fillNext_toNat (c : Params) (n : Nat) :
    (Nat.repeat (fillNext c) (n + 1) 8).toNat = min (16 * (n + 1)) (ceiling c) := by
  have hb := ceiling_bounds c
  induction n with
  | zero =>
    have hfirst : (8 : BitVec 10).toNat ≤ ceiling c := by rw [firstSlot_toNat]; omega
    exact fillNext_toNat hfirst
  | succ n ih =>
    have hle : (Nat.repeat (fillNext c) (n + 1) 8).toNat ≤ ceiling c := ih ▸ Nat.min_le_right _ _
    calc (Nat.repeat (fillNext c) (n + 2) 8).toNat
        = min (16 * ((Nat.repeat (fillNext c) (n + 1) 8).toNat / 16 + 1)) (ceiling c) := fillNext_toNat hle
      _ = min (16 * (n + 2)) (ceiling c) := by rw [ih]; omega

/-- `ceil(CEILING / 16)` bursts from the first slot reach the ceiling. -/
theorem repeat_fillNext_ceiling (c : Params) :
    (Nat.repeat (fillNext c) ((ceiling c + 15) / 16) 8).toNat = ceiling c := by
  have hb := ceiling_bounds c
  obtain ⟨n, hn⟩ : ∃ n, (ceiling c + 15) / 16 = n + 1 := ⟨(ceiling c - 1) / 16, by omega⟩
  rw [hn, repeat_fillNext_toNat]
  omega

/-- Settles O33: a burst is the rest of its page or of the region, and the fill address after `n + 1` bursts is
`16 * (n + 1)` until the ceiling cuts it. -/
theorem fillPartition : Obligations.FillPartition := by
  unfold Obligations.FillPartition
  simp only [← ceiling_eq]
  refine ⟨fun c x hx => ?burst, fun c => ?first, fun c x => fillBurst_wholePage,
    fun c x => fillBurst_lastPage, repeat_fillNext_ceiling⟩
  case burst =>
    obtain ⟨hpos, -, hpage, hregion⟩ := fillBurst_facts hx
    exact ⟨fillBurst_eq c x, hpos, hpage, hregion⟩
  case first =>
    have hb := ceiling_bounds c
    rw [fillBurst_eq, firstSlot_toNat]
    omega

end Sys2Proof.Machine
end

section
/-! `reading_timestamp`: the product of the index and the sample period fits its 32 bits (R187, R188). -/

namespace Sys2Proof.Machine

/-- With `req_ready` an operation that ends at once is its response on the latched operands. -/
theorem requestAtOnce_ready (op : OpCode) (latch : Request → Request) (st : Status) (d : BitVec 64) {s : State}
    (h : reqReady s = true) :
    requestAtOnce op latch st d s = respond st d (s.withLat { latch s.lat with op := op }) :=
  if_pos h

theorem exec_readingTimestamp_ready (i : BitVec 16) {s : State} (h : reqReady s = true) :
    exec (.readingTimestamp i) s = .next (respond .ok ((elapsedSeconds s.cfg i).setWidth 64)
      (s.withLat { s.lat with op := 13, index := i })) :=
  congrArg Host.Outcome.next (requestAtOnce_ready _ _ _ _ h)

theorem samplePeriod_le (c : Params) : samplePeriod c ≤ 3600 := Nat.div_le_self _ _

/-- A 16-bit index times at most 3600 seconds does not wrap in 32 bits. -/
theorem elapsedSeconds_toNat (c : Params) (i : BitVec 16) : (elapsedSeconds c i).toNat = i.toNat * samplePeriod c := by
  have hperiod := samplePeriod_le c
  have hprod : i.toNat * samplePeriod c ≤ i.toNat * 3600 := Nat.mul_le_mul_left _ hperiod
  have hi := i.isLt
  rw [elapsedSeconds, BitVec.toNat_mul, BitVec.toNat_setWidth, BitVec.toNat_ofNat,
    Nat.mod_eq_of_lt (by omega : i.toNat < 2 ^ 32), Nat.mod_eq_of_lt (by omega : samplePeriod c < 2 ^ 32),
    Nat.mod_eq_of_lt (by omega)]

/-- Settles O39: the accepting step is the response alone, and its 32-bit product is exact. -/
theorem readingTimestamp : Obligations.ReadingTimestamp := by
  unfold Obligations.ReadingTimestamp
  intro s i hready
  have hdata : ((elapsedSeconds s.cfg i).setWidth 64).toNat = (elapsedSeconds s.cfg i).toNat :=
    BitVec.toNat_setWidth_of_le (by decide)
  refine ⟨(elapsedSeconds s.cfg i).setWidth 64, ?exact, ?bound, exec_readingTimestamp_ready i hready⟩
  case exact => exact hdata.trans (elapsedSeconds_toNat s.cfg i)
  case bound => exact hdata ▸ (elapsedSeconds s.cfg i).isLt

end Sys2Proof.Machine
end

section
/-! The event ports and the done lines: what each strobe sets and clears (R211 to R215, R240 to R242), and that the
event side and the request side do not reach each other (R218, R248, R280). -/

namespace Sys2Proof.Machine

theorem exec_evTimer (s : State) : exec .evTimer s = .next (raiseEvent 0x05#6 s) := rfl

theorem exec_evManualSample (s : State) : exec .evManualSample s = .next (raiseEvent 0x02#6 s) := rfl

theorem exec_evManualWater (d : Byte) (s : State) :
    exec (.evManualWater d) s = .next (raiseEvent 0x08#6 (s.withArb { s.arb with manDuration := d })) := rfl

theorem exec_evSetAuto (v : Bool) (s : State) :
    exec (.evSetAuto v) s = .next (raiseEvent 0x10#6 (s.withArb { s.arb with autoReq := v })) := rfl

theorem exec_evDumpHistory (s : State) : exec .evDumpHistory s = .next (raiseEvent 0x20#6 s) := rfl

/-- Settles O43: each event is `raiseEvent` of its bits, after its argument register is set. -/
theorem eventsSetTheirBits : Obligations.EventsSetTheirBits := by
  unfold Obligations.EventsSetTheirBits
  exact fun s => ⟨exec_evTimer s, exec_evManualSample s, fun d => exec_evManualWater d s,
    fun v => exec_evSetAuto v s, exec_evDumpHistory s⟩

theorem exec_doneSensor (s : State) :
    exec .doneSensor s = .next (s.withArb { s.arb with liveSensor := false }) := rfl

theorem exec_donePump (s : State) :
    exec .donePump s = .next (s.withArb { s.arb with livePump := false }) := rfl

theorem exec_doneHistory (s : State) :
    exec .doneHistory s = .next (s.withArb { s.arb with liveHistory := false }) := rfl

/-- Settles O51: a done line is one update of its own handle. -/
theorem doneLinesClearHandles : Obligations.DoneLinesClearHandles := by
  unfold Obligations.DoneLinesClearHandles
  exact fun s => ⟨exec_doneSensor s, exec_donePump s, exec_doneHistory s⟩

/-- `t` has the outputs of `s` and differs in ARB at most in the mask, the wake signal and the two argument registers:
the reach of a producer (R218). -/
structure ProducerFrame (s t : State) : Prop where
  out              : t.out = s.out
  state            : t.arb.state = s.arb.state
  liveSensor       : t.arb.liveSensor = s.arb.liveSensor
  livePump         : t.arb.livePump = s.arb.livePump
  liveHistory      : t.arb.liveHistory = s.arb.liveHistory
  pumpKind         : t.arb.pumpKind = s.arb.pumpKind
  autoWaterEnabled : t.arb.autoWaterEnabled = s.arb.autoWaterEnabled

theorem ProducerFrame.refl (s : State) : ProducerFrame s s := ⟨rfl, rfl, rfl, rfl, rfl, rfl, rfl⟩

theorem ProducerFrame.trans {s t u : State} (h : ProducerFrame s t) (k : ProducerFrame t u) : ProducerFrame s u :=
  ⟨k.out.trans h.out, k.state.trans h.state, k.liveSensor.trans h.liveSensor, k.livePump.trans h.livePump,
   k.liveHistory.trans h.liveHistory, k.pumpKind.trans h.pumpKind, k.autoWaterEnabled.trans h.autoWaterEnabled⟩

theorem ProducerFrame.arb_eq {s t : State} (h : ProducerFrame s t) :
    t.arb = { s.arb with mask := t.arb.mask, wakePending := t.arb.wakePending,
                         manDuration := t.arb.manDuration, autoReq := t.arb.autoReq } := by
  dsimp only
  rw [← h.state, ← h.liveSensor, ← h.livePump, ← h.liveHistory, ← h.pumpKind, ← h.autoWaterEnabled]

/-- Each event is `raiseEvent`, after at most one argument register. -/
theorem exec_event_producerFrame {i : Instr} {e : EventSignals} {s t : State} (hi : i ∈ decodeEvents e)
    (h : exec i s = .next t) : ProducerFrame s t := by
  simp only [decodeEvents, List.mem_append, List.mem_ite_nil_right, List.mem_singleton] at hi
  rcases hi with (((⟨-, rfl⟩ | ⟨-, rfl⟩) | ⟨-, rfl⟩) | ⟨-, rfl⟩) | ⟨-, rfl⟩ <;> cases h <;>
    exact ⟨rfl, rfl, rfl, rfl, rfl, rfl, rfl⟩

/-- Instructions run together reach what each of them reaches. -/
theorem execAll_producerFrame {is : List Instr} {s t : State}
    (hi : ∀ i ∈ is, ∀ u v, exec i u = .next v → ProducerFrame u v) (h : execAll is s = .next t) :
    ProducerFrame s t := by
  induction is generalizing s with
  | nil => cases h; exact .refl _
  | cons i is ih =>
    obtain ⟨hhead, htail⟩ := List.forall_mem_cons.mp hi
    obtain ⟨u, hu⟩ := exec_next i s
    rw [execAll_cons i is s u hu] at h
    exact (hhead s u hu).trans (ih htail h)

theorem eventsTurn_producerFrame {e : EventSignals} {s t : State} (h : runTurn (.events e) s = .next t) :
    ProducerFrame s t :=
  execAll_producerFrame (fun _ hi _ _ => exec_event_producerFrame hi) h

/-- Settles O53: a step is its turn from the start of the step, where nothing is driven and no response is valid, and
the turns of each side have their frame. -/
theorem arbAndRequestSideAreSeparate : Obligations.ArbAndRequestSideAreSeparate := by
  unfold Obligations.ArbAndRequestSideAreSeparate
  intro s t hstep
  rw [step_eq_turn] at hstep
  refine ⟨fun hside => ?arbSide, fun e he => ?producer, fun hside => ?requestSide⟩
  case arbSide =>
    have hframe := arbSide_frame _ _ _ hstep hside
    have hrsp : t.rsp.valid = false := congrArg RspPort.valid hframe.rsp
    exact ⟨hframe.lat, hframe.eec, hframe.log, hframe.chip, hframe.bus, hrsp⟩
  case producer =>
    rw [he] at hstep
    have hframe := eventsTurn_producerFrame hstep
    exact ⟨hframe.out, hframe.arb_eq⟩
  case requestSide =>
    obtain ⟨harb, hout, -⟩ := requestSide_frame _ _ _ hstep hside
    exact ⟨harb, hout⟩

end Sys2Proof.Machine
end

section
/-! The arbiter's dispatch steps (R222 to R227): what each does with its bits pending, by the rules of the shared
operations it is made of. -/

namespace Sys2Proof.Machine

/-! ## The shared operations by the handle they find -/

theorem startSensor_free (k : Kind) {s : State} (h : s.arb.liveSensor = false) :
    startSensor k s = { s with arb := { s.arb with liveSensor := true }, out := s.out ++ [.startSensor k] } :=
  if_neg (Bool.eq_false_iff.mp h)

theorem startSensor_live (k : Kind) {s : State} (h : s.arb.liveSensor = true) : startSensor k s = s :=
  if_pos h

theorem startPump_free (k : Kind) (d : Byte) {s : State} (h : s.arb.livePump = false) :
    startPump k d s = { s with arb := { s.arb with livePump := true, pumpKind := k }
                               out := s.out ++ [.startPump k d] } :=
  if_neg (Bool.eq_false_iff.mp h)

theorem startPump_live (k : Kind) (d : Byte) {s : State} (h : s.arb.livePump = true) : startPump k d s = s :=
  if_pos h

/-- The cancelling path on a live auto pump worker: the cancel, then the duty off, and the handle is free. -/
theorem cancelAutoPump_auto {s : State} (hlive : s.arb.livePump = true) (hkind : s.arb.pumpKind = .auto) :
    cancelAutoPump s = { s with arb := { s.arb with livePump := false }
                                out := s.out ++ [.cancelPump] ++ [.dutyOff] } :=
  if_pos ⟨hlive, hkind⟩

theorem cancelAutoPump_manual {s : State} (hkind : s.arb.pumpKind = .manual) : cancelAutoPump s = s :=
  if_neg fun h => by simp [hkind] at h

theorem cancelAutoPump_free {s : State} (hfree : s.arb.livePump = false) : cancelAutoPump s = s :=
  if_neg fun h => by simp [hfree] at h

/-- The handle that the cancelling path frees is taken again by the start behind it. -/
theorem startPump_cancelAutoPump_auto (k : Kind) (d : Byte) {s : State} (hlive : s.arb.livePump = true)
    (hkind : s.arb.pumpKind = .auto) :
    startPump k d (cancelAutoPump s) =
      { s with arb := { s.arb with livePump := true, pumpKind := k }
               out := s.out ++ [.cancelPump, .dutyOff, .startPump k d] } := by
  rw [cancelAutoPump_auto hlive hkind, startPump_free k d rfl]
  simp only [List.append_assoc, List.cons_append, List.nil_append]

/-! ## The sample step -/

theorem sampleKind_eq (m : Mask) : sampleKind m = if m.getLsbD 0 then .auto else .manual := by
  rw [sampleKind, maskHas_autoSample]

theorem maskClear_sampleClear_clearBoth (m : Mask) :
    maskClear m (sampleClear .clearBoth m) = m &&& 0b111100#6 :=
  congrArg (m &&& ·) (by decide : ~~~(autoSampleBit ||| manualSampleBit) = 0b111100#6)

theorem maskClear_sampleClear_keepManual (m : Mask) :
    maskClear m (sampleClear .keepManual m) =
      if m.getLsbD 0 then m &&& 0b111110#6 else m &&& 0b111101#6 := by
  rw [sampleClear, maskHas_autoSample]
  split <;> rfl

theorem exec_dSample_quiet {s : State} (hs : s.arb.state = .dSample) (h0 : s.arb.mask.getLsbD 0 = false)
    (h1 : s.arb.mask.getLsbD 1 = false) : exec .dSample s = .next (gotoArb .dAutoen s) := by
  simp only [exec, execDSample, arbiterStep_here _ _ _ hs, maskHas_sample, h0, h1, Bool.or_self,
    Bool.false_eq_true, if_false]

theorem exec_dSample_pending {s : State} (hs : s.arb.state = .dSample)
    (h : s.arb.mask.getLsbD 0 = true ∨ s.arb.mask.getLsbD 1 = true) :
    exec .dSample s = .next (gotoArb .dAutoen
      (startSensor (sampleKind s.arb.mask) (clearBits (sampleClear s.cfg.sampleCollapse s.arb.mask) s))) := by
  have hpending : maskHas s.arb.mask (autoSampleBit ||| manualSampleBit) = true := by
    simpa [maskHas_sample] using h
  simp only [exec, execDSample, arbiterStep_here _ _ _ hs, if_pos hpending]

/-- Settles O46: with a sample bit pending the step clears by `SAMPLE_COLLAPSE` and dispatches through the guard of the
sensor worker's handle. -/
theorem sampleDispatch : Obligations.SampleDispatch := by
  unfold Obligations.SampleDispatch
  intro s hs
  refine ⟨exec_dSample_quiet hs, fun m hpending hm => ?pending⟩
  have hmask : m = maskClear s.arb.mask (sampleClear s.cfg.sampleCollapse s.arb.mask) := by
    rw [hm]
    cases s.cfg.sampleCollapse with
    | clearBoth => exact (maskClear_sampleClear_clearBoth _).symm
    | keepManual => exact (maskClear_sampleClear_keepManual _).symm
  rw [exec_dSample_pending hs hpending, hmask, ← sampleKind_eq]
  refine ⟨fun hfree => ?free, fun hlive => ?live⟩
  case free => rw [startSensor_free _ (s := clearBits _ s) hfree]; rfl
  case live => rw [startSensor_live _ (s := clearBits _ s) hlive]; rfl

/-! ## The enable change -/

theorem exec_dAutoen_quiet {s : State} (hs : s.arb.state = .dAutoen) (h : s.arb.mask.getLsbD 4 = false) :
    exec .dAutoen s = .next (gotoArb .dAutowater s) := by
  simp only [exec, execDAutoen, arbiterStep_here _ _ _ hs, maskHas_setAutoEn, h, Bool.false_eq_true, if_false]

theorem exec_dAutoen_pending {s : State} (hs : s.arb.state = .dAutoen) (h : s.arb.mask.getLsbD 4 = true) :
    exec .dAutoen s = .next (gotoArb .dAutowater
      (clearBits setAutoEnBit (s.withArb { s.arb with autoWaterEnabled := s.arb.autoReq }))) := by
  simp only [exec, execDAutoen, arbiterStep_here _ _ _ hs, maskHas_setAutoEn, h, if_true]

/-- Settles O47: the copy of `auto_req` and the clearing of the bit are one update, and without the bit only the state
moves. -/
theorem autoEnableDispatch : Obligations.AutoEnableDispatch := by
  unfold Obligations.AutoEnableDispatch
  exact fun s hs => ⟨exec_dAutoen_pending hs, exec_dAutoen_quiet hs⟩

/-! ## Auto-water -/

theorem exec_dAutowater_quiet {s : State} (hs : s.arb.state = .dAutowater) (h : s.arb.mask.getLsbD 2 = false) :
    exec .dAutowater s = .next (gotoArb .dManwater s) := by
  simp only [exec, execDAutowater, arbiterStep_here _ _ _ hs, maskHas_autoWater, h, Bool.false_eq_true, if_false]

theorem exec_dAutowater_enabled {s : State} (hs : s.arb.state = .dAutowater) (h : s.arb.mask.getLsbD 2 = true)
    (hen : s.arb.autoWaterEnabled = true) :
    exec .dAutowater s = .next (gotoArb .dManwater (startPump .auto 0 (clearBits autoWaterBit s))) := by
  simp only [exec, execDAutowater, arbiterStep_here _ _ _ hs, maskHas_autoWater, h, hen, if_true]

theorem exec_dAutowater_disabled {s : State} (hs : s.arb.state = .dAutowater) (h : s.arb.mask.getLsbD 2 = true)
    (hdis : s.arb.autoWaterEnabled = false) :
    exec .dAutowater s = .next (gotoArb .dManwater (clearBits autoWaterBit s)) := by
  simp only [exec, execDAutowater, arbiterStep_here _ _ _ hs, maskHas_autoWater, h, hdis, Bool.false_eq_true,
    if_true, if_false]

/-- Settles O48: the bit goes in every case, and the dispatch needs the enable and a free pump handle. -/
theorem autoWaterDispatch : Obligations.AutoWaterDispatch := by
  unfold Obligations.AutoWaterDispatch
  intro s hs
  refine ⟨fun hbit hen hfree => ?start, fun hbit hdrop => ?drop, exec_dAutowater_quiet hs⟩
  case start =>
    rw [exec_dAutowater_enabled hs hbit hen, startPump_free _ _ (s := clearBits _ s) hfree]
    rfl
  case drop =>
    cases hen : s.arb.autoWaterEnabled with
    | false => exact exec_dAutowater_disabled hs hbit hen
    | true =>
      have hlive : s.arb.livePump = true := hdrop.resolve_left (by simp [hen])
      rw [exec_dAutowater_enabled hs hbit hen, startPump_live _ _ (s := clearBits _ s) hlive]
      rfl

/-! ## Manual water -/

theorem exec_dManwater_quiet {s : State} (hs : s.arb.state = .dManwater) (h : s.arb.mask.getLsbD 3 = false) :
    exec .dManwater s = .next (gotoArb .dHistory s) := by
  simp only [exec, execDManwater, arbiterStep_here _ _ _ hs, maskHas_manualWater, h, Bool.false_eq_true, if_false]

theorem exec_dManwater_pending {s : State} (hs : s.arb.state = .dManwater) (h : s.arb.mask.getLsbD 3 = true) :
    exec .dManwater s = .next (gotoArb .dHistory
      (startPump .manual s.arb.manDuration (cancelAutoPump (clearBits manualWaterBit s)))) := by
  simp only [exec, execDManwater, arbiterStep_here _ _ _ hs, maskHas_manualWater, h, if_true]

/-- Settles O49: the cancelling path frees the handle of an AUTO pump worker, so its start goes through the guard; it
leaves a MANUAL one live, so the guard drops the start. -/
theorem manualWaterDispatch : Obligations.ManualWaterDispatch := by
  unfold Obligations.ManualWaterDispatch
  intro s hs
  refine ⟨fun hbit hlive hkind => ?autoLive, fun hbit hlive hkind => ?manualLive, fun hbit hfree => ?free,
    exec_dManwater_quiet hs⟩
  case autoLive =>
    rw [exec_dManwater_pending hs hbit, startPump_cancelAutoPump_auto _ _ (s := clearBits _ s) hlive hkind]
    rfl
  case manualLive =>
    rw [exec_dManwater_pending hs hbit, cancelAutoPump_manual (s := clearBits _ s) hkind,
      startPump_live _ _ (s := clearBits _ s) hlive]
    rfl
  case free =>
    rw [exec_dManwater_pending hs hbit, cancelAutoPump_free (s := clearBits _ s) hfree,
      startPump_free _ _ (s := clearBits _ s) hfree]
    rfl

end Sys2Proof.Machine
end

section
/-! `decide_watering`: none at or above the threshold, below it the formula of R260. -/

namespace Sys2Proof.Machine

theorem wateringSeconds_wet {p : Byte} (h : 50 ≤ p.toNat) : wateringSeconds p = none :=
  if_pos h

theorem wateringSeconds_dry {p : Byte} (h : p.toNat < 50) :
    wateringSeconds p = some (((50 - p.toNat) / 10 + 1) * 10) :=
  if_neg (Nat.not_le.mpr h)

theorem wateringStatus_wet {p : Byte} (h : 50 ≤ p.toNat) : wateringStatus p = .none := by
  rw [wateringStatus, wateringSeconds_wet h]

theorem wateringStatus_dry {p : Byte} (h : p.toNat < 50) : wateringStatus p = .ok := by
  rw [wateringStatus, wateringSeconds_dry h]

/-- Below the threshold the data are any number `n` that the formula comes to. -/
theorem wateringData_dry {p : Byte} {n : Nat} (h : p.toNat < 50) (hn : ((50 - p.toNat) / 10 + 1) * 10 = n) :
    wateringData p = BitVec.ofNat 64 n := by
  rw [wateringData, wateringSeconds_dry h, hn]

theorem exec_decideWatering_ready (p : Byte) {s : State} (h : reqReady s = true) :
    exec (.decideWatering p) s = .next (respond (wateringStatus p) (wateringData p)
      (s.withLat { s.lat with op := 14, data := p })) :=
  congrArg Host.Outcome.next (requestAtOnce_ready _ _ _ _ h)

/-- Settles O42: the accepting step is the response alone, and each row of the map is the formula on that range. -/
theorem decideWatering : Obligations.DecideWatering := by
  unfold Obligations.DecideWatering
  intro s p hready
  rw [exec_decideWatering_ready p hready]
  refine ⟨fun hwet => ?wet, fun hdry => ?dry⟩
  case wet =>
    rw [wateringStatus_wet hwet]
    exact ⟨_, rfl⟩
  case dry =>
    rw [wateringStatus_dry hdry]
    refine ⟨wateringData p, ?formula, fun _ => ?ten, fun _ _ => ?twenty, fun _ _ => ?thirty, fun _ _ => ?forty,
      fun _ _ => ?fifty, fun _ => ?sixty, rfl⟩
    case formula =>
      rw [wateringData_dry hdry rfl, BitVec.toNat_ofNat]
      omega
    case ten => exact wateringData_dry (n := 10) hdry (by omega)
    case twenty => exact wateringData_dry (n := 20) hdry (by omega)
    case thirty => exact wateringData_dry (n := 30) hdry (by omega)
    case forty => exact wateringData_dry (n := 40) hdry (by omega)
    case fifty => exact wateringData_dry (n := 50) hdry (by omega)
    case sixty => exact wateringData_dry (n := 60) hdry (by omega)

end Sys2Proof.Machine
end

section
/-! The machine invariant along the machine's own steps, and the absence of a fault from it: one lemma per kind of
turn. -/

namespace Sys2Proof.Machine

/-! ## Operations of the request port -/

/-- The first step of an EEC operation that has just been latched keeps the invariant. -/
theorem startDriver_latched_inv {s : State} (h : MachineInv s) (hi : s.illegalDue = false) (he : s.eec.state = .idle)
    (hl : s.log.state = .idle) (hdrv : isDriverOp (decodeRequest s.lat) = true) :
    MachineInv (startDriver (decodeRequest s.lat) s) :=
  startDriver_inv h hi he (by rw [dueOp_latched hl, if_pos hdrv]) hdrv

theorem startAppend_inv {s : State} (h : MachineInv s) (hi : s.illegalDue = false) (he : s.eec.state = .idle)
    (hop : s.lat.op = 9#4) : MachineInv (startAppend s) := by
  unfold startAppend
  split
  · exact respond_inv h _ _
  next hinit =>
    split
    · exact respond_inv h _ _
    next hroom =>
      rw [Bool.not_eq_false, initialised_iff] at hinit
      exact logFirst_inv h hi he _ rfl ⟨hop, hinit, Nat.not_le.mp hroom⟩

theorem startReadReading_inv {s : State} (h : MachineInv s) (hi : s.illegalDue = false) (he : s.eec.state = .idle)
    (hop : s.lat.op = 10#4) : MachineInv (startReadReading s.lat.index s) := by
  unfold startReadReading
  split
  · exact respond_inv h _ _
  next hinit =>
    split
    · exact respond_inv h _ _
    next hslot =>
      rw [Bool.not_eq_false, initialised_iff] at hinit
      have hindex : headerSize + s.lat.index.toNat < s.log.cursor.toNat := by
        unfold readingCount at hslot; omega
      exact logFirst_inv h hi he _ rfl (.inl ⟨hop, hindex⟩)

theorem startReadLast_inv {s : State} (h : MachineInv s) (hi : s.illegalDue = false) (he : s.eec.state = .idle)
    (hop : s.lat.op = 11#4) : MachineInv (startReadLast s) := by
  unfold startReadLast
  split
  · exact respond_inv h _ _
  next hcount => exact logFirst_inv h hi he _ rfl (.inr ⟨hop, Nat.not_le.mp hcount⟩)

theorem startReadHeader_inv {s : State} (h : MachineInv s) (hi : s.illegalDue = false) (he : s.eec.state = .idle)
    (hop : s.lat.op = 12#4) : MachineInv (startReadHeader s) := by
  unfold startReadHeader
  split
  · exact respond_inv h _ _
  next hinit =>
    rw [Bool.not_eq_false, initialised_iff] at hinit
    exact logFirst_inv h hi he _ rfl ⟨hop, hinit, Nat.zero_le 8⟩

/-- A request for an EEC operation keeps the invariant, when the latched request decodes to that operation. -/
theorem requestStep_driver_inv {s : State} (h : MachineInv s) (hi : reqReady s = true → s.illegalDue = false)
    (op : OpCode) (latch : Request → Request) (i : Instr) (hdrv : isDriverOp i = true)
    (hd : decodeRequest { latch s.lat with op := op } = i) :
    MachineInv (requestStep op latch (startDriver i) s) := by
  refine requestStep_inv h hi op latch _ fun l _ hl u hu hinv hdue he hlog => ?_
  have hdec : decodeRequest u.lat = i := by rw [hu, ← hd, ← hl]; rfl
  exact hdec ▸ startDriver_latched_inv hinv hdue he hlog (hdec ▸ hdrv)

/-- An instruction of the request port keeps the invariant, where no answer to a reserved code is due on a ready
port. -/
theorem exec_request_inv (r : Request) {s t : State} (h : MachineInv s) (hi : reqReady s = true → s.illegalDue = false)
    (ht : exec (decodeRequest r) s = .next t) : MachineInv t := by
  unfold decodeRequest at ht
  split at ht <;> cases ht
  case h_1 | h_2 | h_3 | h_4 | h_5 | h_6 => exact requestStep_driver_inv h hi _ _ _ rfl rfl
  case h_7 | h_8 | h_16 => exact illegal_inv h _ (by decide)
  case h_9 =>
    refine requestStep_inv h hi _ _ _ fun l hop _ u hu hinv hdue he _ => ?_
    exact logFirst_inv hinv hdue he _ rfl (by rw [hu]; exact hop)
  case h_10 =>
    refine requestStep_inv h hi _ _ _ fun l hop _ u hu hinv hdue he _ => ?_
    exact startAppend_inv hinv hdue he (by rw [hu]; exact hop)
  case h_11 =>
    refine requestStep_inv h hi _ _ _ fun l hop hl u hu hinv hdue he _ => ?_
    have hindex : u.lat.index = r.index := by rw [hu, hl]; rfl
    exact hindex ▸ startReadReading_inv hinv hdue he (by rw [hu]; exact hop)
  case h_12 =>
    refine requestStep_inv h hi _ _ _ fun l hop _ u hu hinv hdue he _ => ?_
    exact startReadLast_inv hinv hdue he (by rw [hu]; exact hop)
  case h_13 =>
    refine requestStep_inv h hi _ _ _ fun l hop _ u hu hinv hdue he _ => ?_
    exact startReadHeader_inv hinv hdue he (by rw [hu]; exact hop)
  case h_14 | h_15 => exact atOnce_inv h hi _ _ _ _

/-- The answer to a reserved code keeps the invariant. -/
theorem exec_answer_inv {s t : State} (h : MachineInv s) (hi : s.illegalDue = true)
    (ht : exec (decodeRequest s.lat) s = .next t) : MachineInv t := by
  obtain ⟨-, hop⟩ := h.illegal hi
  rcases hop with hop | hop | hop <;> rw [decodeRequest_eq_of_op hop] at ht <;> cases ht <;>
    exact illegal_inv h _ (by decide)

/-! ## Turns -/

theorem MachineInv.withBusIn {s : State} (h : MachineInv s) (d : BusDraw) : MachineInv (s.withBusIn d) :=
  h.congr rfl rfl rfl rfl rfl rfl rfl h.history

theorem MachineInv.stepStart {s : State} (h : MachineInv s) (rest : List Turn) : MachineInv (stepStart s rest) :=
  h.congr rfl rfl rfl rfl rfl rfl rfl h.history

theorem requestTurn_inv {r : Request} {s t : State} (h : MachineInv s) (hi : s.illegalDue = false)
    (ht : runTurn (.request r) s = .next t) : MachineInv t := by
  rcases requestTurn_cases r s t ht with ⟨hready, hexec⟩ | ⟨-, rfl⟩
  · exact exec_request_inv r (latch_inv h hi hready r) (fun _ => hi) hexec
  · exact h

theorem sequencerTurn_inv {d : BusDraw} {s t : State} (h : MachineInv s) (ht : runTurn (.sequencer d) s = .next t) :
    MachineInv t := by
  have hd := h.withBusIn d
  rcases sequencerTurn_cases d s t ht with ⟨f, i, hf, hdec, hexec⟩ | ⟨-, -, -, rfl⟩ | ⟨-, hwhy, hexec⟩
  case inl =>
    obtain rfl : f = i := Except.ok.inj ((dueFrame_decodes h hf).1.symm.trans hdec)
    exact exchange_inv hd hf hexec
  case inr.inl => exact hd
  case inr.inr =>
    cases hdue : s.illegalDue with
    | true => exact exec_answer_inv hd hdue hexec
    | false => exact exec_request_inv _ hd (fun _ => hdue) hexec

theorem historyOk_of_not_live {s : State} (h : s.arb.liveHistory = false) : HistoryOk s :=
  fun hlive => by rw [h] at hlive; contradiction

/-- Outside `W_HISTORY` no history worker is live. -/
theorem HistoryOk.not_live {s : State} (h : HistoryOk s) {p : ArbState} (hs : s.arb.state = p) (hp : p ≠ .wHistory) :
    s.arb.liveHistory = false :=
  Bool.eq_false_iff.mpr fun hlive => hp (hs.symm.trans (h hlive))

/-- An arbiter step keeps the demand if it does so in the state that selects it. -/
theorem arbiterStep_historyOk {p : ArbState} {body : State → State} {s : State} (h : HistoryOk s)
    (hbody : s.arb.state = p → HistoryOk (body s)) : HistoryOk (arbiterStep p body s) := by
  by_cases hs : s.arb.state = p
  · rw [arbiterStep_here _ _ _ hs]; exact hbody hs
  · rw [arbiterStep_elsewhere _ _ _ hs]; exact h

/-- Of the instructions of ARB's ports only `D_HISTORY` makes the history handle live, on its way to `W_HISTORY`, and
`W_HISTORY` is left only with the handle clear (rules R228, R229, R250). -/
theorem exec_arb_historyOk {i : Instr} {s t : State} (hi : isArbInstr i = true) (h : HistoryOk s)
    (ht : exec i s = .next t) : HistoryOk t := by
  cases i <;> try contradiction
  all_goals cases ht
  case evTimer | evManualSample | evManualWater | evSetAuto | evDumpHistory | doneSensor | donePump => exact h
  case doneHistory => exact historyOk_of_not_live rfl
  all_goals refine arbiterStep_historyOk h fun hs => ?_
  case wake | idleTimeoutWake | dSample | dAutoen | dAutowater | dManwater =>
    have hfree := h.not_live hs (by decide)
    apply historyOk_of_not_live
    repeat' split
    all_goals simpa using hfree
  case dHistory =>
    split
    · exact fun _ => rfl
    · exact historyOk_of_not_live (h.not_live hs (by decide))
  case historyWaitEnd =>
    split
    next => exact h
    next hfree => exact historyOk_of_not_live (Bool.eq_false_iff.mpr hfree)

theorem execAll_arb_historyOk {is : List Instr} {s t : State} (hi : ∀ i ∈ is, isArbInstr i = true) (h : HistoryOk s)
    (ht : execAll is s = .next t) : HistoryOk t := by
  induction is generalizing s with
  | nil => cases ht; exact h
  | cons i is ih =>
    obtain ⟨hhead, htail⟩ := List.forall_mem_cons.mp hi
    obtain ⟨u, hu⟩ := exec_next i s
    rw [execAll_cons i is s u hu] at ht
    exact ih htail (exec_arb_historyOk hhead h hu) ht

theorem arbSide_historyOk {turn : Turn} {s t : State} (h : HistoryOk s) (ht : runTurn turn s = .next t)
    (hs : turn = .arbiter ∨ (∃ d, turn = .done d) ∨ ∃ e, turn = .events e) : HistoryOk t := by
  rcases hs with rfl | ⟨d, rfl⟩ | ⟨e, rfl⟩
  · exact exec_arb_historyOk (decodeArbiter_arb _ _) h ht
  · exact execAll_arb_historyOk (decodeDone_arb d) h ht
  · exact execAll_arb_historyOk (decodeEvents_arb e) h ht

theorem arbSide_inv {turn : Turn} {s t : State} (h : MachineInv s) (ht : runTurn turn s = .next t)
    (hs : turn = .arbiter ∨ (∃ d, turn = .done d) ∨ ∃ e, turn = .events e) : MachineInv t := by
  have hframe := arbSide_frame turn s t ht hs
  exact h.congr hframe.cfg hframe.lat hframe.eec hframe.log hframe.chip hframe.bus hframe.illegalDue
    (arbSide_historyOk h.history ht hs)

/-- A reset leaves the invariant on any chip that keeps its own part. -/
theorem resetCore_inv {s : State} (hc : s.cfg.wf = true) (hm : Memory.wf s.chip.mem) (hp : PendingOk s) :
    MachineInv (resetCore s) := by
  refine MachineInv.ofIdle hc hm hp (.inl rfl) trivial rfl rfl ?_ (historyOk_of_not_live rfl) (.of_not rfl)
  unfold PollCountOk
  split
  · rfl
  · exact ⟨Nat.zero_le _, fun hpoll => nomatch hpoll⟩

/-- The chip a reset cuts is the chip, or the chip after the fault of the frame that was due (rule R317). -/
theorem cutExchange_cases (cut : Bool) (d : BusDraw) (s : State) :
    cutExchange cut d s = s.chip ∨
      cut = true ∧ ∃ f, dueFrame s = some f ∧ cutExchange cut d s = s.chip.faulted d (addressedPairs f) := by
  unfold cutExchange
  split
  next f hf => exact .inr ⟨rfl, f, hf, rfl⟩
  next => exact .inl rfl

theorem cutExchange_memory {s : State} (h : MachineInv s) (cut : Bool) (d : BusDraw) :
    Memory.wf (cutExchange cut d s).mem := by
  rcases cutExchange_cases cut d s with e | ⟨-, f, -, e⟩ <;> rw [e]
  · exact h.memory
  · exact Chip.faulted_wf _ _ _ h.memory

theorem cutExchange_pending {s : State} (h : MachineInv s) (cut : Bool) (d : BusDraw) :
    PendingOk (s.withChip (cutExchange cut d s)) := by
  rcases cutExchange_cases cut d s with e | ⟨-, f, hf, e⟩ <;> rw [e]
  · exact h.pending
  · exact faulted_pending h d hf

/-- Every turn keeps the invariant; a request, which does not stand with an answer due, needs none to be. -/
theorem runTurn_inv {turn : Turn} {s t : State} (h : MachineInv s)
    (hi : s.illegalDue = false ∨ mayFollowReserved turn = true) (ht : runTurn turn s = .next t) : MachineInv t := by
  cases turn with
  | request r => exact requestTurn_inv h (hi.resolve_right Bool.false_ne_true) ht
  | events e => exact arbSide_inv h ht (.inr (.inr ⟨e, rfl⟩))
  | done d => exact arbSide_inv h ht (.inr (.inl ⟨d, rfl⟩))
  | arbiter => exact arbSide_inv h ht (.inl rfl)
  | sequencer d => exact sequencerTurn_inv h ht
  | chip => cases ht; exact complete_inv h
  | reset cut d =>
    cases ht
    exact resetCore_inv (s := s.withChip _) h.params (cutExchange_memory h cut d) (cutExchange_pending h cut d)
  | powerCycle cut d lost =>
    cases ht
    exact resetCore_inv (s := s.withChip _) h.params (Chip.powerCycled_wf _ lost (cutExchange_memory h cut d))
      ⟨fun _ => rfl, Nat.zero_le _⟩

theorem runTurn_cfg {turn : Turn} {s t : State} (ht : runTurn turn s = .next t) : t.cfg = s.cfg := by
  cases turn with
  | request r => exact (requestSide_frame _ s t ht (.inl ⟨r, rfl⟩)).2.2
  | sequencer d => exact (requestSide_frame _ s t ht (.inr (.inl ⟨d, rfl⟩))).2.2
  | chip => exact (requestSide_frame _ s t ht (.inr (.inr rfl))).2.2
  | events e => exact (arbSide_frame _ s t ht (.inr (.inr ⟨e, rfl⟩))).cfg
  | done d => exact (arbSide_frame _ s t ht (.inr (.inl ⟨d, rfl⟩))).cfg
  | arbiter => exact (arbSide_frame _ s t ht (.inl rfl)).cfg
  | reset cut d => cases ht; rfl
  | powerCycle cut d lost => cases ht; rfl

/-- In a step that finds an answer to a reserved code due, the turn is one that may stand with it. -/
theorem nextTurn_mayRun (s : State) : s.illegalDue = false ∨ mayFollowReserved (nextTurn s) = true := by
  cases hdue : s.illegalDue with
  | false => exact .inl rfl
  | true => exact .inr (nextTurn_answer s hdue)

theorem step_inv {s t : State} (h : MachineInv s) (ht : step s = .next t) : MachineInv t :=
  runTurn_inv (h.stepStart (restAgenda s)) (nextTurn_mayRun s) ht

/-- Settles O3: a step is its turn run from the start of the step, and every kind of turn keeps the parameters and the
invariant. -/
theorem everyStepKeepsInvariant : Obligations.EveryStepKeepsInvariant := by
  unfold Obligations.EveryStepKeepsInvariant
  exact fun s t ht => ⟨runTurn_cfg (s := stepStart s (restAgenda s)) ht, fun h => step_inv h ht⟩

/-! ## Safety -/

/-- The sequencer's turn stops the machine only by a frame that is none of the five (rule R126), and the invariant
rules that frame out. -/
theorem sequencerTurn_next {s : State} (h : MachineInv s) (d : BusDraw) : ∃ t, runTurn (.sequencer d) s = .next t := by
  cases hf : dueFrame s with
  | some f =>
    rw [sequencerTurn_frame d s f f hf (dueFrame_decodes h hf).1]
    exact exec_next f _
  | none =>
    simp only [runTurn, sequencerTurn, dueFrame_withBusIn, hf]
    split
    · exact ⟨_, rfl⟩
    · exact exec_next (decodeRequest s.lat) _

theorem runTurn_next {s : State} (h : MachineInv s) (turn : Turn) : ∃ t, runTurn turn s = .next t := by
  cases turn with
  | request r =>
    simp only [runTurn, requestTurn]
    split
    · exact exec_next (decodeRequest r) _
    · exact ⟨_, rfl⟩
  | events e => exact execAll_next _ s
  | done d => exact execAll_next _ s
  | arbiter => exact exec_next (decodeArbiter s.arb.state s.arb.wakePending) s
  | sequencer d => exact sequencerTurn_next h d
  | chip | reset | powerCycle => exact ⟨_, rfl⟩

/-- Settles O4: every turn answers a next state, the sequencer's because its due frame decodes to itself. -/
theorem invariantStepsAreSafe : Obligations.InvariantStepsAreSafe := by
  unfold Obligations.InvariantStepsAreSafe StepSafe
  exact fun s h => runTurn_next (h.stepStart (restAgenda s)) (nextTurn s)

/-! ## Reset -/

theorem resetCore_reqReady (s : State) : reqReady (resetCore s) = true := rfl

/-- Settles O1: both turns end in `resetCore`, whose registers do not depend on the chip it keeps. -/
theorem resetInstallsResetValues : Obligations.ResetInstallsResetValues := by
  unfold Obligations.ResetInstallsResetValues
  refine ⟨fun s cut d lost turn hturn => ?turns, by decide⟩
  rcases hturn with rfl | rfl <;> refine ⟨_, rfl, ?_⟩ <;> and_intros <;> rfl

/-- Settles O2: the reset state passes the evaluated check of the invariant. -/
theorem resetMeetsInvariant : Obligations.ResetMeetsInvariant :=
  machineInv_of_check (by decide)

end Sys2Proof.Machine
end

section
/-! The encoder and the decoder undo each other, for every legal set of opcodes (30_encoding.md). -/

namespace Sys2Proof

/-! ## The address fold -/

/-- The decoder reads address bit 8 from bit 3 of the instruction byte. -/
theorem unfoldAddress_bit8 (b low : Byte) : (unfoldAddress b low).getLsbD 8 = b.getLsbD 3 := by
  have hmask : ∀ b : Byte, ((b &&& 0x08#8).setWidth 9 <<< 5).getLsbD 8 = b.getLsbD 3 := by decide
  rw [unfoldAddress, BitVec.getLsbD_or, hmask, BitVec.getLsbD_setWidth, BitVec.getLsbD_of_ge low 8 (Nat.le_refl 8)]
  simp

theorem lowAddress_unfoldAddress (b low : Byte) : lowAddress (unfoldAddress b low) = low := by
  have hmask : ∀ b : Byte, ((b &&& 0x08#8).setWidth 9 <<< 5).setWidth 8 = 0#8 := by decide
  rw [lowAddress, unfoldAddress, BitVec.setWidth_or, hmask, BitVec.zero_or, BitVec.setWidth_setWidth_of_le _ (by decide),
    BitVec.setWidth_eq]

/-- Folding the address a frame carries into its opcode gives the instruction byte back (rule R113). -/
theorem foldAddress_unfoldAddress (b low : Byte) : foldAddress (addressedOpcode b) (unfoldAddress b low) = b := by
  have hparts : ∀ b : Byte, b &&& 0xF7#8 ||| (if b.getLsbD 3 then 0x08#8 else 0#8) = b := by decide
  rw [foldAddress, foldedBit, unfoldAddress_bit8, addressedOpcode, hparts]

/-- Bit `k` of a folded instruction byte: bit 3 is added, the others are the opcode's. -/
theorem foldAddress_getLsbD (opc : Byte) (a : Addr) (k : Nat) :
    (foldAddress opc a).getLsbD k = (opc.getLsbD k || (decide (k = 3) && a.getLsbD 8)) := by
  have hbit : (0x08#8).getLsbD k = decide (k = 3) := by
    by_cases hk : k < 8
    · revert k; decide
    · rw [BitVec.getLsbD_of_ge _ _ (by omega)]; simp; omega
  rw [foldAddress, foldedBit, BitVec.getLsbD_or]
  cases a.getLsbD 8 <;> simp [hbit]

/-- Settles O8: the fold adds one bit at place 3, and the addressed frames are made with it. -/
theorem addressFold : Obligations.AddressFold := by
  unfold Obligations.AddressFold
  refine ⟨fun opc a => ⟨rfl, fun hclear => ?bit3, fun k _ hk => ?others⟩, by decide, fun c hc => ?frames⟩
  case bit3 => rw [foldAddress_getLsbD, hclear]; rfl
  case others => rw [foldAddress_getLsbD, decide_eq_false hk, Bool.false_and, Bool.or_false]
  case frames =>
    obtain ⟨⟨hread, hwrite, -⟩, -⟩ := c.wf_facts hc
    exact ⟨hread, hwrite, fun a data => ⟨rfl, rfl⟩⟩

/-! ## Decode after encode -/

/-- Settles O5: a frame by the lemma of its format; the words of the other ports decode by computation. -/
theorem decodeAfterEncode : Obligations.DecodeAfterEncode := by
  unfold Obligations.DecodeAfterEncode
  intro c i hc hi
  cases i with
  | read a => exact decodeFrame_read hc a
  | write a data => exact decodeFrame_write hc a data hi
  | wrdi => exact (decodeFrame_command hc).1
  | rdsr => exact (decodeFrame_command hc).2.1
  | wren => exact (decodeFrame_command hc).2.2
  | readStatus | writeEnable | writeDisable | readByte | writeByte | writePage | resetLog | appendReading
  | readReading | readLastReading | readHeaderTimestamp | readingTimestamp | decideWatering | reserved6
  | reserved7 | reserved15 => rfl
  | evTimer | evManualSample | evManualWater | evSetAuto | evDumpHistory => rfl
  | wake | idleTimeoutWake | dSample | dAutoen | dAutowater | dManwater | dHistory | historyWaitEnd => rfl
  | doneSensor | donePump | doneHistory => rfl

/-! ## Encode after decode -/

/-- What a frame can decode to, with the bytes it then has: one of the five formats (rules R111 to R116). -/
theorem decodeFrame_cases {c : Opcodes} {bytes : List Byte} {i : Instr} (h : decodeFrame c bytes = .ok i) :
    (i = .wrdi ∧ bytes = [c.wrdi]) ∨ (i = .rdsr ∧ bytes = [c.rdsr]) ∨ (i = .wren ∧ bytes = [c.wren]) ∨
    (∃ b low, i = .read (unfoldAddress b low) ∧ bytes = [b, low] ∧ addressedOpcode b = c.read) ∨
    (∃ b low data, i = .write (unfoldAddress b low) data ∧ bytes = b :: low :: data ∧ addressedOpcode b = c.write ∧
      writeFrameLengthOk data = true) := by
  unfold decodeFrame at h
  split at h
  · cases h
  · repeat' split at h
    all_goals cases h
    all_goals simp_all

/-- Settles O6: of the five formats the bare commands are their opcode, and folding gives an addressed frame's bytes
back. -/
theorem frameEncodeAfterDecode : Obligations.FrameEncodeAfterDecode := by
  unfold Obligations.FrameEncodeAfterDecode
  intro c bytes i _ h
  rcases decodeFrame_cases h with ⟨rfl, rfl⟩ | ⟨rfl, rfl⟩ | ⟨rfl, rfl⟩ | ⟨b, low, rfl, rfl, hread⟩ |
    ⟨b, low, data, rfl, rfl, hwrite, hlen⟩
  case inl | inr.inl | inr.inr.inl => exact ⟨rfl, rfl⟩
  case inr.inr.inr.inl =>
    refine ⟨rfl, ?_⟩
    rw [encode, ← hread, foldAddress_unfoldAddress, lowAddress_unfoldAddress]
  case inr.inr.inr.inr =>
    refine ⟨hlen, ?_⟩
    rw [encode, ← hwrite, foldAddress_unfoldAddress, lowAddress_unfoldAddress]

/-- Settles O7: fixed words, evaluated. -/
theorem specWordsDecode : Obligations.SpecWordsDecode := by
  unfold Obligations.SpecWordsDecode
  decide

end Sys2Proof
end

section
/-! A step runs the instruction decoded from the port its turn names (00_scope.md section 4), and the two steps of a
reserved code (30_encoding.md section 4). -/

namespace Sys2Proof.Machine

/-! ## The step of each kind of turn -/

theorem dueFrame_of_idle {s : State} (h : s.eec.state = .idle) : dueFrame s = none := by
  unfold dueFrame
  split
  · rfl
  · rw [h]

/-- With no frame due, an operation in progress or an answer to a reserved code runs from the latches. -/
theorem sequencerTurn_latched (d : BusDraw) {s : State} (hf : dueFrame s = none)
    (hwhy : reqReady s = false ∨ s.illegalDue = true) :
    runTurn (.sequencer d) s = exec (decodeRequest s.lat) (s.withBusIn d) := by
  have hbusy : (reqReady s && !s.illegalDue) = false := by rcases hwhy with h | h <;> simp [h]
  simp only [runTurn, sequencerTurn, dueFrame_withBusIn, hf, reqReady_withBusIn, State.withBusIn_illegalDue, hbusy]
  rfl

theorem sequencerTurn_nothing (d : BusDraw) {s : State} (hf : dueFrame s = none) (hready : reqReady s = true)
    (hdue : s.illegalDue = false) : runTurn (.sequencer d) s = .next (s.withBusIn d) := by
  simp only [runTurn, sequencerTurn, dueFrame_withBusIn, hf, reqReady_withBusIn, State.withBusIn_illegalDue, hready, hdue]
  rfl

theorem execAll_singleton (i : Instr) (s : State) : execAll [i] s = exec i s := by
  obtain ⟨t, ht⟩ := exec_next i s
  rw [execAll_cons i [] s t ht, execAll_nil, ht]

theorem decodeOne_ok {is : List Instr} {i : Instr} (h : decodeOne is = .ok i) : is = [i] := by
  unfold decodeOne at h
  split at h <;> cases h
  rfl

/-- The answer to a reserved code comes before a turn that may not stand with it, and the agenda keeps the turn. -/
theorem answer_step {s : State} {turn : Turn} {rest : List Turn} (ha : s.agenda = turn :: rest)
    (hdue : s.illegalDue = true) (hf : dueFrame s = none) (ht : mayFollowReserved turn = false) :
    step s = exec (decodeRequest s.lat) ((stepStart s (turn :: rest)).withBusIn quietDraw) := by
  have hs : scheduledTurn s = turn := by rw [scheduledTurn, ha]
  rw [step_answer s hdue (hs ▸ ht), ha]
  exact sequencerTurn_latched _ hf (.inr hdue)

/-- Settles O10: `step_agenda` runs the head of the agenda, `answer_step` the answer before it, and each kind of turn
runs what its port decodes to. -/
theorem stepRunsDecodedInstruction : Obligations.StepRunsDecodedInstruction := by
  unfold Obligations.StepRunsDecodedInstruction
  refine ⟨step_agenda, fun s turn rest ha hdue hf hturn => ?answer, fun s r rest => request_step s r rest,
    fun s r rest ha hdue hbusy => ?busy, fun s e rest i ha hdue hdec => ?events, fun s d rest i ha hdue hdec => ?done,
    fun s rest ha hdue => ?arbiter, fun s d rest f i => frame_step s d rest f i,
    fun s d rest ha hf hwhy => ?latched, fun s d rest ha hf hready hdue => ?nothing, chip_step⟩
  case answer =>
    refine answer_step ha hdue hf ?_
    rcases hturn with rfl | rfl | ⟨r, rfl⟩ | ⟨e, rfl⟩ | ⟨d, rfl⟩ <;> rfl
  case busy =>
    rw [step_agenda _ _ _ ha (.inl hdue)]
    exact if_neg (Bool.eq_false_iff.mp hbusy)
  case events =>
    rw [step_agenda _ _ _ ha (.inl hdue)]
    simp only [runTurn, decodeOne_ok hdec, execAll_singleton]
  case done =>
    rw [step_agenda _ _ _ ha (.inl hdue)]
    simp only [runTurn, decodeOne_ok hdec, execAll_singleton]
  case arbiter =>
    rw [step_agenda _ _ _ ha (.inl hdue)]
    rfl
  case latched =>
    rw [step_agenda _ _ _ ha (.inr rfl)]
    exact sequencerTurn_latched d hf hwhy
  case nothing =>
    rw [step_agenda _ _ _ ha (.inr rfl)]
    exact sequencerTurn_nothing d hf hready hdue

/-! ## The frame that is due -/

theorem dueFrame_of_xfer {s : State} (hs : s.eec.state = .xfer) (hr : s.bus.reply = none) {op : Instr}
    (hd : dueOp s = some op) : dueFrame s = finalFrame op := by
  simp [dueFrame, hs, hr, hd]

/-- Under the invariant a page write in progress is 1 to 16 bytes inside its page. -/
theorem MachineInv.writePage_fits {s : State} (h : MachineInv s) (hs : s.eec.state ≠ .idle) {a : Addr} {len : BitVec 5}
    {buf : PageBuf} (hd : dueOp s = some (.writePage a len buf)) : len ≠ 0 ∧ len.toNat ≤ maxSize a := by
  obtain ⟨op, hop, -, -, -, hfits⟩ := h.driver hs
  exact hfits a len buf (Option.some.inj (hop.symm.trans hd))

/-- Settles O11: `dueFrame` by phase, and in `XFER` the last frame of the operation due. -/
theorem dueFrameOfPhase : Obligations.DueFrameOfPhase := by
  unfold Obligations.DueFrameOfPhase
  intro s h hr
  refine ⟨fun hs => ?quiet, fun hs => by simp [dueFrame, hs, hr], fun hs => by simp [dueFrame, hs, hr],
    fun hs => ⟨dueFrame_of_xfer hs hr, dueFrame_of_xfer hs hr, dueFrame_of_xfer hs hr,
      fun a => dueFrame_of_xfer hs hr, fun a b => dueFrame_of_xfer hs hr, fun a len buf hd => ?page⟩⟩
  case quiet => rcases hs with hs | hs <;> simp [dueFrame, hs, hr]
  case page =>
    have hlen : len.toNat ≤ 16 := (h.writePage_fits (by simp [hs]) hd).2.trans (maxSize_bounds a).2
    refine ⟨_, (dueFrame_of_xfer hs hr hd).trans (finalFrame_writePage a len buf), ?_,
      fun i hi hin => getElem?_take_pageBuf buf hi hin⟩
    simpa using hlen

/-! ## Reserved codes -/

theorem requestIllegal_accept {op : OpCode} {s : State} (hr : reqReady s = true)
    (hnew : s.illegalDue = false ∨ s.lat.op ≠ op) :
    requestIllegal op s = (s.withLat { s.lat with op := op }).withIllegalDue true := by
  have hnot : ¬(s.illegalDue = true ∧ s.lat.op = op) := fun ⟨hdue, hop⟩ =>
    hnew.elim (fun h => by rw [h] at hdue; contradiction) fun h => h hop
  rw [requestIllegal, if_pos hr, if_neg hnot]

theorem requestIllegal_answer {op : OpCode} {s : State} (hr : reqReady s = true) (hdue : s.illegalDue = true)
    (hop : s.lat.op = op) : requestIllegal op s = respond .illegalOp 0 (s.withIllegalDue false) := by
  rw [requestIllegal, if_pos hr, if_pos ⟨hdue, hop⟩]

/-- A latched reserved code runs `requestIllegal` of that code. -/
theorem exec_reserved {r : Request} (h : ReservedCode r.op) (s : State) :
    exec (decodeRequest r) s = .next (requestIllegal r.op s) := by
  rcases h with h | h | h <;> rw [decodeRequest_eq_of_op h, h] <;> rfl

/-- The step that answers an accepted reserved code, whatever turn the agenda gives short of a reset. -/
theorem reserved_answer_step {s : State} {turn : Turn} {rest : List Turn} (ha : s.agenda = turn :: rest)
    (hready : reqReady s = true) (hdue : s.illegalDue = true) (hop : ReservedCode s.lat.op)
    (hreset : ∀ c d, turn ≠ .reset c d) (hpower : ∀ c d l, turn ≠ .powerCycle c d l) :
    ∃ d, step s = .next (respond .illegalOp 0 (((stepStart s (if mayFollowReserved turn then rest else turn :: rest)).withBusIn
      d).withIllegalDue false)) := by
  have hf := dueFrame_of_idle ((reqReady_iff s).mp hready).1
  have hanswer : ∀ rest' d, exec (decodeRequest s.lat) ((stepStart s rest').withBusIn d) =
      .next (respond .illegalOp 0 (((stepStart s rest').withBusIn d).withIllegalDue false)) := fun rest' d => by
    rw [exec_reserved hop, requestIllegal_answer (op := s.lat.op) (s := (stepStart s rest').withBusIn d) hready hdue rfl]
  cases turn with
  | sequencer d =>
    refine ⟨d, ?_⟩
    rw [step_agenda _ _ _ ha (.inr rfl), sequencerTurn_latched d (s := stepStart s rest) hf (.inr hdue)]
    exact hanswer rest d
  | reset c d => exact absurd rfl (hreset c d)
  | powerCycle c d l => exact absurd rfl (hpower c d l)
  | request | events | done | arbiter | chip =>
    exact ⟨quietDraw, (answer_step ha hdue hf rfl).trans (hanswer _ _)⟩

/-- Settles O28: `requestIllegal` accepts or answers; in the machine the acceptance leaves the answer due on a ready
port, so the next step is that answer. -/
theorem reservedCodesAnswerIllegal : Obligations.ReservedCodesAnswerIllegal := by
  unfold Obligations.ReservedCodesAnswerIllegal
  refine ⟨fun s op i hready hi => ?single, fun s r turn rest _ hready hdue hop ha hreset hpower => ?machine⟩
  case single =>
    have hexec : exec i s = .next (requestIllegal op s) := by
      rcases hi with ⟨rfl, rfl⟩ | ⟨rfl, rfl⟩ | ⟨rfl, rfl⟩ <;> rfl
    rw [hexec]
    refine ⟨fun hnew => ?_, fun hdue hop => ⟨Config.failData s.tick, ?_⟩⟩
    · rw [requestIllegal_accept hready hnew]; rfl
    · rw [requestIllegal_answer hready hdue hop]; rfl
  case machine =>
    have hstep : step s = .next (((stepStart s (turn :: rest)).withLat r).withIllegalDue true) := by
      rw [request_step s r _ ha hdue hready, exec_reserved hop,
        requestIllegal_accept (s := (stepStart s (turn :: rest)).withLat r) hready (.inl hdue)]
      rfl
    obtain ⟨d, hanswer⟩ := reserved_answer_step (s := ((stepStart s (turn :: rest)).withLat r).withIllegalDue true)
      rfl hready rfl hop hreset hpower
    exact ⟨_, _, hstep, hanswer, rfl, rfl, rfl, rfl, rfl, rfl, rfl, rfl, rfl, rfl, rfl, rfl, rfl, rfl, rfl, rfl, rfl, rfl⟩

end Sys2Proof.Machine
end

section
/-! The arbiter: its wakes, the history dump and wait, several strobes in one step, and what a step can take from the
mask or drive (42_scheduler.md). -/

namespace Sys2Proof.Machine

/-! ## The wakes and the history worker -/

/-- Settles O45: in `IDLE` each wake is its own condition. -/
theorem wakes : Obligations.Wakes := by
  unfold Obligations.Wakes
  intro s hs
  refine ⟨fun hwake => ?signalled, fun hwake hfin => ?timeout, fun _ hinf => ?never⟩
  case signalled => simp only [exec, execWake, arbiterStep_here _ _ _ hs, hwake, if_true]; rfl
  case timeout =>
    have henabled : (!s.arb.wakePending && s.cfg.idleTimeoutFinite) = true := by simp [hwake, hfin]
    simp only [exec, execIdleTimeoutWake, arbiterStep_here _ _ _ hs, if_pos henabled]
    rfl
  case never =>
    have hdisabled : ¬(!s.arb.wakePending && s.cfg.idleTimeoutFinite) = true := by simp [hinf]
    simp only [exec, execIdleTimeoutWake, arbiterStep_here _ _ _ hs, if_neg hdisabled]

theorem startHistory_free {s : State} (h : s.arb.liveHistory = false) :
    startHistory s = { s with arb := { s.arb with liveHistory := true }, out := s.out ++ [.startHistory] } :=
  if_neg (Bool.eq_false_iff.mp h)

theorem startHistory_live {s : State} (h : s.arb.liveHistory = true) : startHistory s = s :=
  if_pos h

theorem exec_dHistory_quiet {s : State} (hs : s.arb.state = .dHistory) (h : s.arb.mask.getLsbD 5 = false) :
    exec .dHistory s = .next (gotoArb .idle s) := by
  simp only [exec, execDHistory, arbiterStep_here _ _ _ hs, maskHas_dumpHistory, h, Bool.false_eq_true, if_false]

theorem exec_dHistory_pending {s : State} (hs : s.arb.state = .dHistory) (h : s.arb.mask.getLsbD 5 = true) :
    exec .dHistory s = .next (gotoArb .wHistory (startHistory (clearBits dumpHistoryBit s))) := by
  simp only [exec, execDHistory, arbiterStep_here _ _ _ hs, maskHas_dumpHistory, h, if_true]

theorem exec_historyWaitEnd_live {s : State} (hs : s.arb.state = .wHistory) (h : s.arb.liveHistory = true) :
    exec .historyWaitEnd s = .next s := by
  simp only [exec, execHistoryWaitEnd, arbiterStep_here _ _ _ hs, h, if_true]

theorem exec_historyWaitEnd_free {s : State} (hs : s.arb.state = .wHistory) (h : s.arb.liveHistory = false) :
    exec .historyWaitEnd s = .next (gotoArb .idle s) := by
  simp only [exec, execHistoryWaitEnd, arbiterStep_here _ _ _ hs, h, Bool.false_eq_true, if_false]

/-- Settles O50: the dump goes through the guard of its handle, and the wait ends with the handle clear. -/
theorem historyDispatchAndWait : Obligations.HistoryDispatchAndWait := by
  unfold Obligations.HistoryDispatchAndWait
  intro s
  refine ⟨fun hs hbit hfree => ?start, fun hs hbit hlive => ?drop, exec_dHistory_quiet, exec_historyWaitEnd_free,
    exec_historyWaitEnd_live⟩
  case start =>
    rw [exec_dHistory_pending hs hbit, startHistory_free (s := clearBits _ s) hfree]
    rfl
  case drop =>
    rw [exec_dHistory_pending hs hbit, startHistory_live (s := clearBits _ s) hlive]
    rfl

/-! ## Several strobes in one step -/

theorem execAll_append {is js : List Instr} {s t : State} (h : execAll is s = .next t) :
    execAll (is ++ js) s = execAll js t := by
  induction is generalizing s with
  | nil => cases h; rfl
  | cons i is ih =>
    obtain ⟨u, hu⟩ := exec_next i s
    rw [execAll_cons i is s u hu] at h
    rw [List.cons_append, execAll_cons i _ s u hu, ih h]

/-- A line of a port: its instruction if it is high. -/
theorem execAll_line (high : Bool) {i : Instr} {s t : State} (h : exec i s = .next t) :
    execAll (if high then [i] else []) s = .next (if high then t else s) := by
  cases high with
  | true => exact (execAll_singleton i s).trans h
  | false => rfl

theorem doneSensor_line (high : Bool) (s : State) : execAll (if high then [.doneSensor] else []) s =
    .next (s.withArb { s.arb with liveSensor := s.arb.liveSensor && !high }) := by
  rw [execAll_line high (exec_doneSensor s)]
  cases high <;> simp [State.withArb]

theorem donePump_line (high : Bool) (s : State) : execAll (if high then [.donePump] else []) s =
    .next (s.withArb { s.arb with livePump := s.arb.livePump && !high }) := by
  rw [execAll_line high (exec_donePump s)]
  cases high <;> simp [State.withArb]

theorem doneHistory_line (high : Bool) (s : State) : execAll (if high then [.doneHistory] else []) s =
    .next (s.withArb { s.arb with liveHistory := s.arb.liveHistory && !high }) := by
  rw [execAll_line high (exec_doneHistory s)]
  cases high <;> simp [State.withArb]

theorem doneTurn_eq (d : DoneSignals) (s : State) :
    runTurn (.done d) s = .next (s.withArb { s.arb with
      liveSensor := s.arb.liveSensor && !d.sensor
      livePump := s.arb.livePump && !d.pump
      liveHistory := s.arb.liveHistory && !d.history }) := by
  rw [runTurn, decodeDone, List.append_assoc, execAll_append (doneSensor_line d.sensor s),
    execAll_append (donePump_line d.pump _), doneHistory_line d.history]
  rfl

/-- A strobe that carries no argument: its bits and the wake signal if it is high. -/
theorem event_line (high : Bool) (bits : Mask) {i : Instr} {s : State} (h : exec i s = .next (raiseEvent bits s)) :
    execAll (if high then [i] else []) s = .next (s.withArb { s.arb with
      mask := s.arb.mask ||| (if high then bits else 0)
      wakePending := s.arb.wakePending || high }) := by
  rw [execAll_line high h]
  cases high <;> simp [raiseEvent, maskSet, State.withArb]

theorem evManualWater_line (high : Bool) (d : Byte) (s : State) :
    execAll (if high then [.evManualWater d] else []) s = .next (s.withArb { s.arb with
      mask := s.arb.mask ||| (if high then 0x08#6 else 0)
      wakePending := s.arb.wakePending || high
      manDuration := if high then d else s.arb.manDuration }) := by
  rw [execAll_line high (exec_evManualWater d s)]
  cases high <;> simp [raiseEvent, maskSet, State.withArb]

theorem evSetAuto_line (high v : Bool) (s : State) :
    execAll (if high then [.evSetAuto v] else []) s = .next (s.withArb { s.arb with
      mask := s.arb.mask ||| (if high then 0x10#6 else 0)
      wakePending := s.arb.wakePending || high
      autoReq := if high then v else s.arb.autoReq }) := by
  rw [execAll_line high (exec_evSetAuto v s)]
  cases high <;> simp [raiseEvent, maskSet, State.withArb]

/-- Settles O44: the lines of a port run one after another, each on its own registers but for the union of the bits. -/
theorem strobesUnite : Obligations.StrobesUnite := by
  unfold Obligations.StrobesUnite
  refine ⟨fun s d => doneTurn_eq d s, fun s e => ?events⟩
  rw [runTurn, decodeEvents, List.append_assoc, List.append_assoc, List.append_assoc,
    execAll_append (event_line e.timer _ (exec_evTimer s)),
    execAll_append (event_line e.manualSample _ (exec_evManualSample _)),
    execAll_append (evManualWater_line e.manualWater e.duration _),
    execAll_append (evSetAuto_line e.setAuto e.autoValue _), event_line e.dumpHistory _ (exec_evDumpHistory _)]
  simp only [State.withArb, BitVec.or_assoc]

/-! ## What the arbiter's turn can do -/

/-- The moves of the arbiter's turn, one per state and outcome of its test (rules R220 to R229). -/
inductive ArbiterMove (s : State) : State → Prop
  | stay (hs : s.arb.state = .idle ∨ s.arb.state = .wHistory) : ArbiterMove s s
  | wake (hs : s.arb.state = .idle) (hwake : s.arb.wakePending = true) :
      ArbiterMove s (s.withArb { s.arb with wakePending := false, state := .dSample })
  | timeout (hs : s.arb.state = .idle) : ArbiterMove s (gotoArb .dSample s)
  | sampleQuiet (hs : s.arb.state = .dSample) : ArbiterMove s (gotoArb .dAutoen s)
  | sample (hs : s.arb.state = .dSample) : ArbiterMove s (gotoArb .dAutoen
      (startSensor (sampleKind s.arb.mask) (clearBits (sampleClear s.cfg.sampleCollapse s.arb.mask) s)))
  | autoenQuiet (hs : s.arb.state = .dAutoen) : ArbiterMove s (gotoArb .dAutowater s)
  | autoen (hs : s.arb.state = .dAutoen) : ArbiterMove s (gotoArb .dAutowater
      (clearBits setAutoEnBit (s.withArb { s.arb with autoWaterEnabled := s.arb.autoReq })))
  | autowaterQuiet (hs : s.arb.state = .dAutowater) : ArbiterMove s (gotoArb .dManwater s)
  | autowaterOff (hs : s.arb.state = .dAutowater) : ArbiterMove s (gotoArb .dManwater (clearBits autoWaterBit s))
  | autowater (hs : s.arb.state = .dAutowater) :
      ArbiterMove s (gotoArb .dManwater (startPump .auto 0 (clearBits autoWaterBit s)))
  | manwaterQuiet (hs : s.arb.state = .dManwater) : ArbiterMove s (gotoArb .dHistory s)
  | manwater (hs : s.arb.state = .dManwater) : ArbiterMove s (gotoArb .dHistory
      (startPump .manual s.arb.manDuration (cancelAutoPump (clearBits manualWaterBit s))))
  | historyQuiet (hs : s.arb.state = .dHistory) : ArbiterMove s (gotoArb .idle s)
  | history (hs : s.arb.state = .dHistory) :
      ArbiterMove s (gotoArb .wHistory (startHistory (clearBits dumpHistoryBit s)))
  | waitEnd (hs : s.arb.state = .wHistory) (hfree : s.arb.liveHistory = false) : ArbiterMove s (gotoArb .idle s)

/-- The step the state selects, by its test, is one of the moves. -/
theorem arbiterTurn_move {s t : State} (ht : runTurn .arbiter s = .next t) : ArbiterMove s t := by
  change exec (decodeArbiter s.arb.state s.arb.wakePending) s = .next t at ht
  cases hs : s.arb.state with
  | idle =>
    rw [hs] at ht
    cases hwake : s.arb.wakePending <;> rw [hwake] at ht <;> cases ht <;> rw [arbiterStep_here _ _ _ hs]
    · split
      · exact .timeout hs
      · exact .stay (.inl hs)
    · rw [if_pos hwake]; exact .wake hs hwake
  | dSample =>
    rw [hs] at ht
    cases ht
    rw [arbiterStep_here _ _ _ hs]
    split
    · exact .sample hs
    · exact .sampleQuiet hs
  | dAutoen =>
    rw [hs] at ht
    cases ht
    rw [arbiterStep_here _ _ _ hs]
    split
    · exact .autoen hs
    · exact .autoenQuiet hs
  | dAutowater =>
    rw [hs] at ht
    cases ht
    rw [arbiterStep_here _ _ _ hs]
    split
    · split
      · exact .autowater hs
      · exact .autowaterOff hs
    · exact .autowaterQuiet hs
  | dManwater =>
    rw [hs] at ht
    cases ht
    rw [arbiterStep_here _ _ _ hs]
    split
    · exact .manwater hs
    · exact .manwaterQuiet hs
  | dHistory =>
    rw [hs] at ht
    cases ht
    rw [arbiterStep_here _ _ _ hs]
    split
    · exact .history hs
    · exact .historyQuiet hs
  | wHistory =>
    rw [hs] at ht
    cases ht
    rw [arbiterStep_here _ _ _ hs]
    split
    next => exact .stay (.inr hs)
    next hfree => exact .waitEnd hs (Bool.eq_false_iff.mpr hfree)

/-! ## What a step takes from the mask -/

/-- The mask bits the dispatch step of an arbiter state tests (rules R223 to R228). -/
def DispatchTests (p : ArbState) (k : Nat) : Prop :=
  (p = .dSample ∧ k ≤ 1) ∨ (p = .dAutoen ∧ k = 4) ∨ (p = .dAutowater ∧ k = 2) ∨ (p = .dManwater ∧ k = 3) ∨
    (p = .dHistory ∧ k = 5)

theorem maskClear_getLsbD (m bits : Mask) (k : Nat) :
    (maskClear m bits).getLsbD k = (m.getLsbD k && !bits.getLsbD k) := by
  by_cases hk : k < 6
  · simp [maskClear, hk]
  · simp [BitVec.getLsbD_of_ge _ _ (Nat.not_lt.mp hk)]

theorem maskClear_none (m : Mask) : maskClear m 0 = m := by revert m; decide

/-- The bits that `D_SAMPLE` clears are among the two sample bits, under both switches. -/
theorem sampleClear_getLsbD (c : SampleCollapse) (m : Mask) :
    ∀ k, k < 6 → (sampleClear c m).getLsbD k = true → k ≤ 1 := by
  unfold sampleClear
  split
  · decide
  · split <;> decide

/-- A move clears only bits that the dispatch step of its state tests (rule R231). -/
theorem ArbiterMove.mask {s t : State} (h : ArbiterMove s t) :
    ∃ bits, t.arb.mask = maskClear s.arb.mask bits ∧
      ∀ k, k < 6 → bits.getLsbD k = true → DispatchTests s.arb.state k := by
  have hnothing : t.arb.mask = s.arb.mask → ∃ bits, t.arb.mask = maskClear s.arb.mask bits ∧
      ∀ k, k < 6 → bits.getLsbD k = true → DispatchTests s.arb.state k :=
    fun hm => ⟨0, hm.trans (maskClear_none _).symm, fun k _ hk => by simp at hk⟩
  cases h with
  | stay | wake | timeout | sampleQuiet | autoenQuiet | autowaterQuiet | manwaterQuiet | historyQuiet | waitEnd =>
    exact hnothing rfl
  | sample hs =>
    exact ⟨sampleClear s.cfg.sampleCollapse s.arb.mask, by simp, fun k hk hbit => .inl ⟨hs, sampleClear_getLsbD _ _ k hk hbit⟩⟩
  | autoen hs => exact ⟨setAutoEnBit, by simp, fun k hk hbit => .inr (.inl ⟨hs, by revert k; decide⟩)⟩
  | autowaterOff hs | autowater hs =>
    exact ⟨autoWaterBit, by simp, fun k hk hbit => .inr (.inr (.inl ⟨hs, by revert k; decide⟩))⟩
  | manwater hs =>
    exact ⟨manualWaterBit, by simp, fun k hk hbit => .inr (.inr (.inr (.inl ⟨hs, by revert k; decide⟩)))⟩
  | history hs =>
    exact ⟨dumpHistoryBit, by simp, fun k hk hbit => .inr (.inr (.inr (.inr ⟨hs, by revert k; decide⟩)))⟩

/-- A turn that is neither the arbiter's nor a reset keeps every pending bit. -/
theorem otherTurn_mask {turn : Turn} {s t : State} (hn : turn ≠ .arbiter) (hreset : ∀ c d, turn ≠ .reset c d)
    (hpower : ∀ c d l, turn ≠ .powerCycle c d l) (ht : runTurn turn s = .next t) {k : Nat}
    (hk : s.arb.mask.getLsbD k = true) : t.arb.mask.getLsbD k = true := by
  have hside : t.arb = s.arb → t.arb.mask.getLsbD k = true := fun h => h ▸ hk
  cases turn with
  | request r => exact hside (requestSide_frame _ s t ht (.inl ⟨r, rfl⟩)).1
  | sequencer d => exact hside (requestSide_frame _ s t ht (.inr (.inl ⟨d, rfl⟩))).1
  | chip => exact hside (requestSide_frame _ s t ht (.inr (.inr rfl))).1
  | arbiter => exact absurd rfl hn
  | reset c d => exact absurd rfl (hreset c d)
  | powerCycle c d l => exact absurd rfl (hpower c d l)
  | events e =>
    cases (strobesUnite.2 s e).symm.trans ht
    simp only [BitVec.getLsbD_or, hk, Bool.true_or]
  | done d =>
    cases (doneTurn_eq d s).symm.trans ht
    exact hk

/-- Settles O52: a step is its turn; the arbiter's clears only what it tests, and no other but a reset clears a bit. -/
theorem maskBitsClearedByArbiterOnly : Obligations.MaskBitsClearedByArbiterOnly := by
  unfold Obligations.MaskBitsClearedByArbiterOnly
  intro s t k ht hset hclear
  rw [step_eq_turn] at ht
  by_contra hno
  simp only [not_or, not_exists] at hno
  obtain ⟨harbiter, hreset, hpower⟩ := hno
  have hturn : nextTurn s = .arbiter := by
    by_contra hn
    rw [otherTurn_mask hn hreset hpower ht hset] at hclear
    contradiction
  rw [hturn] at ht
  obtain ⟨bits, hmask, htests⟩ := (arbiterTurn_move ht).mask
  rw [hmask, maskClear_getLsbD] at hclear
  have hbit : bits.getLsbD k = true := by simpa [hset] using hclear
  exact harbiter ⟨hturn, htests k (BitVec.lt_of_getLsbD hset) hbit⟩

/-! ## What a step drives -/

/-- The start outputs of a step that drives `out`, as rule R250 wants them. -/
def StartsOk (s t : State) : Prop :=
  (∀ k, .startSensor k ∈ t.out → s.arb.liveSensor = false ∧ t.arb.liveSensor = true) ∧
  (∀ k d, .startPump k d ∈ t.out → t.arb.livePump = true ∧ t.arb.pumpKind = k ∧
    (s.arb.livePump = false ∨
      (s.arb.pumpKind = .auto ∧ k = .manual ∧ t.out = [.cancelPump, .dutyOff, .startPump .manual d]))) ∧
  (.startHistory ∈ t.out → s.arb.liveHistory = false ∧ t.arb.liveHistory = true ∧ t.arb.state = .wHistory)

theorem StartsOk.of_quiet {s t : State} (h : t.out = []) : StartsOk s t := by
  simp [StartsOk, h]

/-- A dispatch drives its start only through the guard of its handle. -/
theorem ArbiterMove.starts {s t : State} (h : ArbiterMove s t) (hout : s.out = []) : StartsOk s t := by
  cases h with
  | stay | wake | timeout | sampleQuiet | autoenQuiet | autoen | autowaterQuiet | autowaterOff | manwaterQuiet
  | historyQuiet | waitEnd => exact .of_quiet hout
  | sample hs =>
    cases hlive : s.arb.liveSensor with
    | true => rw [startSensor_live _ (s := clearBits _ s) hlive]; exact .of_quiet hout
    | false => rw [startSensor_free _ (s := clearBits _ s) hlive]; simp [StartsOk, hout, hlive]
  | autowater hs =>
    cases hlive : s.arb.livePump with
    | true => rw [startPump_live _ _ (s := clearBits _ s) hlive]; exact .of_quiet hout
    | false => rw [startPump_free _ _ (s := clearBits _ s) hlive]; simp [StartsOk, hout, hlive]
  | manwater hs =>
    cases hlive : s.arb.livePump with
    | false =>
      rw [cancelAutoPump_free (s := clearBits _ s) hlive, startPump_free _ _ (s := clearBits _ s) hlive]
      simp [StartsOk, hout, hlive]
    | true =>
      cases hkind : s.arb.pumpKind with
      | manual =>
        rw [cancelAutoPump_manual (s := clearBits _ s) hkind, startPump_live _ _ (s := clearBits _ s) hlive]
        exact .of_quiet hout
      | auto =>
        rw [startPump_cancelAutoPump_auto _ _ (s := clearBits _ s) hlive hkind]
        simp [StartsOk, hout, hlive, hkind]
  | history hs =>
    cases hlive : s.arb.liveHistory with
    | true => rw [startHistory_live (s := clearBits _ s) hlive]; exact .of_quiet hout
    | false => rw [startHistory_free (s := clearBits _ s) hlive]; simp [StartsOk, hout, hlive]

/-- No turn but the arbiter's drives anything. -/
theorem otherTurn_out {turn : Turn} {s t : State} (hn : turn ≠ .arbiter) (hout : s.out = [])
    (ht : runTurn turn s = .next t) : t.out = [] := by
  cases turn with
  | request r => exact (requestSide_frame _ s t ht (.inl ⟨r, rfl⟩)).2.1.trans hout
  | sequencer d => exact (requestSide_frame _ s t ht (.inr (.inl ⟨d, rfl⟩))).2.1.trans hout
  | chip => exact (requestSide_frame _ s t ht (.inr (.inr rfl))).2.1.trans hout
  | arbiter => exact absurd rfl hn
  | events e => exact (eventsTurn_producerFrame ht).out.trans hout
  | done d => cases (doneTurn_eq d s).symm.trans ht; exact hout
  | reset c d => cases ht; rfl
  | powerCycle c d l => cases ht; rfl

/-- Settles O54: only the arbiter's turn drives an output, each start through the guard of its handle. -/
theorem startsFindFreeHandle : Obligations.StartsFindFreeHandle := by
  unfold Obligations.StartsFindFreeHandle
  intro s t ht
  rw [step_eq_turn] at ht
  change StartsOk (stepStart s (restAgenda s)) t
  by_cases hturn : nextTurn s = .arbiter
  · rw [hturn] at ht
    exact (arbiterTurn_move ht).starts rfl
  · exact .of_quiet (otherTurn_out hturn rfl ht)

/-- While the history worker is live the arbiter's own turn changes nothing. -/
theorem arbiterTurn_wait {s t : State} (hs : s.arb.state = .wHistory) (hlive : s.arb.liveHistory = true)
    (ht : runTurn .arbiter s = .next t) : t = s := by
  cases arbiterTurn_move ht with
  | stay => rfl
  | waitEnd _ hfree => rw [hlive] at hfree; contradiction
  | _ hs' => rw [hs] at hs'; contradiction

/-- Settles O55: the arbiter has no enabled step, and of the other turns only the worker's done line and a reset reach
its state or the handle. -/
theorem historyWaitBlocks : Obligations.HistoryWaitBlocks := by
  unfold Obligations.HistoryWaitBlocks
  intro s t hs hlive ht hdone hreset hpower
  rw [step_eq_turn] at ht
  have hkept : t.arb.state = .wHistory ∧ t.arb.liveHistory = true := by
    have hside : t.arb = s.arb → t.arb.state = .wHistory ∧ t.arb.liveHistory = true := fun h => by
      rw [h]; exact ⟨hs, hlive⟩
    cases hturn : nextTurn s with
    | request r => exact hside (requestSide_frame _ _ _ ht (.inl ⟨r, hturn⟩)).1
    | sequencer d => exact hside (requestSide_frame _ _ _ ht (.inr (.inl ⟨d, hturn⟩))).1
    | chip => exact hside (requestSide_frame _ _ _ ht (.inr (.inr hturn))).1
    | arbiter => rw [hturn] at ht; rw [arbiterTurn_wait (s := stepStart s (restAgenda s)) hs hlive ht]; exact ⟨hs, hlive⟩
    | events e =>
      rw [hturn] at ht
      have hframe := eventsTurn_producerFrame ht
      exact ⟨hframe.state.trans hs, hframe.liveHistory.trans hlive⟩
    | done d =>
      rw [hturn] at ht
      cases (doneTurn_eq d _).symm.trans ht
      refine ⟨hs, ?_⟩
      simp [hlive, hdone d hturn]
    | reset c d => exact absurd hturn (hreset c d)
    | powerCycle c d l => exact absurd hturn (hpower c d l)
  refine ⟨hkept.1, hkept.2, ?_⟩
  by_cases hturn : nextTurn s = .arbiter
  · rw [hturn] at ht
    rw [arbiterTurn_wait (s := stepStart s (restAgenda s)) hs hlive ht]; rfl
  · exact otherTurn_out hturn rfl ht

end Sys2Proof.Machine
end

section
/-! The chip: one exchange with each frame, faulted exchanges, the completion of a write, and what a reset or a loss of
power leaves (20_memory.md, 70_reset_and_hazards.md). -/

namespace Sys2Proof.Machine

/-! ## The five frames without a fault -/

theorem exchange_ok {s : State} (h : s.busIn.fault = false) (f : Instr) (reaction : Chip × List Byte) :
    exchange f reaction s = (s.withChip reaction.1).withBus
      { frame := frameBytes s.cfg.opcodes f, reply := some (.ok reaction.2) } :=
  if_neg (Bool.eq_false_iff.mp h)

theorem exchange_fault {s : State} (h : s.busIn.fault = true) (f : Instr) (reaction : Chip × List Byte) :
    exchange f reaction s = (s.withChip (s.chip.faulted s.busIn (addressedPairs f))).withBus
      { frame := frameBytes s.cfg.opcodes f, reply := some .fault } :=
  if_pos h

theorem Params.wf_bits {c : Params} (h : c.wf = true) : c.wipBit ≠ c.welBit := by
  simp only [Params.wf, Bool.and_eq_true, bne_iff_ne] at h
  exact h.2

/-- Settles O12: the reply is the status byte, whose bits are WIP, WEL and the draw. -/
theorem statusFrameReportsWipAndWel : Obligations.StatusFrameReportsWipAndWel := by
  unfold Obligations.StatusFrameReportsWipAndWel
  intro s hwf hf
  have hbits := statusByte_getLsbD s.cfg s.chip.wip s.chip.wel s.busIn.status
  refine ⟨statusByte s.cfg s.chip.wip s.chip.wel s.busIn.status, ?wip, ?wel, fun k hwip hwel => ?others, ?next⟩
  case wip => rw [hbits, if_pos rfl]
  case wel => rw [hbits, if_neg (Params.wf_bits hwf).symm, if_pos rfl]
  case others => rw [hbits, if_neg hwip, if_neg hwel]
  case next => exact congrArg Host.Outcome.next (exchange_ok hf _ _)

/-- Settles O13: the reply is the byte of an idle chip or the draw of a busy one. -/
theorem readFrameReturnsByte : Obligations.ReadFrameReturnsByte := by
  unfold Obligations.ReadFrameReturnsByte
  exact fun s a hf => ⟨if s.chip.wip then s.busIn.busyByte else s.chip.byteAt a,
    fun hidle => if_neg (Bool.eq_false_iff.mp hidle), fun hbusy => if_pos hbusy,
    congrArg Host.Outcome.next (exchange_ok hf _ _)⟩

theorem reactWren_idle (cfg : Params) {c : Chip} (h : c.wip = false) : reactWren cfg c = ({ c with wel := true }, []) := by
  rw [reactWren, if_neg (Bool.eq_false_iff.mp h)]

theorem reactWren_busy (cfg : Params) {c : Chip} (h : c.wip = true) : reactWren cfg c = (c.endExchange cfg, []) := by
  rw [reactWren, if_pos h]

/-- Settles O14: the chip's reactions to the two commands. -/
theorem enableAndDisableFrames : Obligations.EnableAndDisableFrames := by
  unfold Obligations.EnableAndDisableFrames
  intro s hf
  refine ⟨fun hidle => ?idle, fun hbusy => ?busy, congrArg Host.Outcome.next (exchange_ok hf _ _)⟩
  case idle => rw [exec, execWren, exchange_ok hf, reactWren_idle _ hidle]; rfl
  case busy => rw [exec, execWren, exchange_ok hf, reactWren_busy _ hbusy]; rfl

theorem writePairs_getElem? (a : Addr) (data : List Byte) (i : Nat) :
    (writePairs a data)[i]? = data[i]?.map fun b => (burstAddress a i, b) := by
  simp [writePairs, List.getElem?_zipIdx, Function.comp_def]

theorem reactWrite_taken (cfg : Params) (pairs : List (Addr × Byte)) {c : Chip} (hl : c.wel = true)
    (hw : c.wip = false) :
    reactWrite cfg pairs c = ({ c with wip := true, pending := pairs, wel := !cfg.welAnyExchange }, []) := by
  simp [reactWrite, Chip.endExchange, hl, hw]

theorem reactWrite_ignored (cfg : Params) (pairs : List (Addr × Byte)) {c : Chip}
    (h : c.wel = false ∨ c.wip = true) : reactWrite cfg pairs c = (c.endExchange cfg, []) := by
  rcases h with h | h <;> simp [reactWrite, h]

/-- Settles O15: the chip takes the write exactly with its latch set and idle, and pair `i` is byte `i` at the wrapped
address. -/
theorem writeFrameStartsWrite : Obligations.WriteFrameStartsWrite := by
  unfold Obligations.WriteFrameStartsWrite
  intro s a data _ hf
  refine ⟨fun hl hw => ⟨writePairs a data, writePairs_length a data, fun i p hp => ?pair, ?taken⟩, fun h => ?ignored⟩
  case pair =>
    rw [writePairs_getElem?, Option.map_eq_some_iff] at hp
    obtain ⟨b, hb, rfl⟩ := hp
    exact ⟨burstAddress_toNat a i, hb⟩
  case taken => rw [exec, execWrite, exchange_ok hf, reactWrite_taken _ _ hl hw]; rfl
  case ignored => rw [exec, execWrite, exchange_ok hf, reactWrite_ignored _ _ h]; rfl

/-! ## Faulted exchanges -/

/-- A pair lands exactly if the draw has its bit. -/
theorem mem_landedPairs {d : BusDraw} {ps : List (Addr × Byte)} {p : Addr × Byte} :
    p ∈ landedPairs d ps ↔ ∃ i, ps[i]? = some p ∧ d.landed.getLsbD i = true := by
  simp only [landedPairs, List.mem_map, List.mem_filter, List.mem_zipIdx_iff_getElem?]
  exact ⟨fun ⟨q, ⟨hq, hbit⟩, hp⟩ => ⟨q.2, hp ▸ hq, hbit⟩, fun ⟨i, hp, hbit⟩ => ⟨(p, i), ⟨hp, hbit⟩, rfl⟩⟩

theorem landedPairs_sublist (d : BusDraw) (ps : List (Addr × Byte)) : (landedPairs d ps).Sublist ps := by
  have h := (List.filter_sublist (p := fun p => d.landed.getLsbD p.2) (l := ps.zipIdx)).map Prod.fst
  rwa [List.zipIdx_map_fst] at h

theorem byteAt_of_stored {c c' : Chip} {ps : List (Addr × Byte)} (hm : c'.mem = storePairs c.mem ps)
    (hd : ps.Pairwise fun p q => p.1 ≠ q.1) {x : Addr} {b : Byte} (hp : (x, b) ∈ ps) : c'.byteAt x = b := by
  rw [Chip.byteAt, hm, storePairs_get _ _ hd _ hp, Option.getD_some]

theorem byteAt_of_not_stored {c c' : Chip} {ps : List (Addr × Byte)} (hm : c'.mem = storePairs c.mem ps) {x : Addr}
    (hx : ∀ p ∈ ps, p.1 ≠ x) : c'.byteAt x = c.byteAt x := by
  rw [Chip.byteAt, hm, storePairs_read_other _ _ _ fun p hp h => hx p hp (BitVec.eq_of_toNat_eq h), Chip.byteAt]

/-- A draw of a faulted write that lands the bytes of `new` at once and leaves the latch at `latch`. -/
def landingDraw (new : BitVec 16) (latch : Bool) : BusDraw :=
  { quietDraw with fault := true, latch := latch, landed := new }

theorem faulted_landingDraw (c : Chip) (new : BitVec 16) (latch : Bool) (ps : List (Addr × Byte)) :
    c.faulted (landingDraw new latch) ps =
      { c with wel := latch, mem := storePairs c.mem (landedPairs (landingDraw new latch) ps) } := rfl

/-- Under such a draw each addressed byte takes its new value exactly if its bit is set. -/
theorem faulted_landingDraw_byteAt (c : Chip) (a : Addr) {data : List Byte} (hlen : data.length ≤ 16) (new : BitVec 16)
    (latch : Bool) {i : Nat} {b : Byte} (hb : data[i]? = some b) :
    (c.faulted (landingDraw new latch) (writePairs a data)).byteAt (burstAddress a i) =
      if new.getLsbD i then b else c.byteAt (burstAddress a i) := by
  have hpair : (writePairs a data)[i]? = some (burstAddress a i, b) := by rw [writePairs_getElem?, hb]; rfl
  have hi : i < 16 := (List.getElem?_eq_some_iff.mp hb).1.trans_le hlen
  have hdistinct := (writePairs_distinct a data hlen).sublist (landedPairs_sublist (landingDraw new latch) _)
  split
  next hbit => exact byteAt_of_stored (c := c) rfl hdistinct (mem_landedPairs.mpr ⟨i, hpair, hbit⟩)
  next hbit =>
    refine byteAt_of_not_stored (c := c) rfl fun p hp heq => ?_
    obtain ⟨j, hj, hland⟩ := mem_landedPairs.mp hp
    rw [writePairs_getElem?, Option.map_eq_some_iff] at hj
    obtain ⟨b', hb', rfl⟩ := hj
    have hj16 : j < 16 := (List.getElem?_eq_some_iff.mp hb').1.trans_le hlen
    rw [burstAddress_injective a j i hj16 hi heq] at hland
    exact hbit hland

theorem writeFrameLengthOk_iff (data : List Byte) :
    writeFrameLengthOk data = true ↔ 1 ≤ data.length ∧ data.length ≤ 16 := by
  simp [writeFrameLengthOk]

/-- Settles O16: the chip after the fault keeps each byte old or new, and `landingDraw` gives any choice of them. -/
theorem faultedExchangeLeavesOldOrNew : Obligations.FaultedExchangeLeavesOldOrNew := by
  unfold Obligations.FaultedExchangeLeavesOldOrNew
  refine ⟨fun s f hf hframe => ?oldOrNew, fun s a data new latch hdata => ?anyChoice⟩
  case oldOrNew =>
    have hi : isFrameInstr f = true := by
      rcases hframe with rfl | rfl | rfl | ⟨a, rfl⟩ | ⟨a, data, rfl, -⟩ <;> rfl
    obtain ⟨reaction, hexec, -⟩ := exec_frame_cases f s hi
    exact ⟨_, hexec.trans (congrArg Host.Outcome.next (exchange_fault hf f reaction)),
      faulted_byteAt_cases s.chip s.busIn (addressedPairs f)⟩
  case anyChoice =>
    exact ⟨landingDraw new latch, _, congrArg Host.Outcome.next (exchange_fault rfl _ _), rfl,
      fun i b => faulted_landingDraw_byteAt s.chip a ((writeFrameLengthOk_iff data).mp hdata).2 new latch⟩

/-! ## The completion -/

theorem complete_busy {c : Chip} (h : c.wip = true) :
    c.complete = { mem := storePairs c.mem c.pending, wel := false, wip := false, pending := [] } :=
  if_pos h

theorem complete_idle {c : Chip} (h : c.wip = false) : c.complete = c :=
  if_neg (Bool.eq_false_iff.mp h)

theorem complete_wip (c : Chip) : c.complete.wip = false := by
  unfold Chip.complete
  split
  next => rfl
  next h => exact Bool.eq_false_iff.mpr h

/-- A run's next state is its step's, up to the turns the environment adds. -/
theorem IsRun.step_next {run : Nat → State} (h : IsRun run) (n : Nat) :
    ∃ t turns, runTurn (nextTurn (run n)) (stepStart (run n) (restAgenda (run n))) = .next t ∧
      run (n + 1) = t.withAgenda (t.agenda ++ turns) :=
  h n

theorem agentTurn_chip (turn : Turn) : agentTurn .chip turn = true ↔ turn = .chip := by
  cases turn <;> simp [agentTurn]

/-- The chip's completion, once taken, leaves the chip idle. -/
theorem chip_taken {run : Nat → State} (h : IsRun run) {n : Nat} (ht : stepTaken .chip (run n) = true) :
    (run (n + 1)).chip.wip = false := by
  obtain ⟨-, hagent⟩ := (stepTaken_iff _ _).mp ht
  obtain ⟨t, turns, hstep, hnext⟩ := h.step_next n
  rw [(agentTurn_chip _).mp hagent] at hstep
  cases hstep
  rw [hnext]
  exact complete_wip _

/-- Settles O17: the completion stores the pending pairs; the fairness of the chip's turn makes it, or an idle chip,
come. -/
theorem chipCompletesWrite : Obligations.ChipCompletesWrite := by
  unfold Obligations.ChipCompletesWrite
  refine ⟨fun s => ⟨fun hw => ⟨storePairs s.chip.mem s.chip.pending, ?store, fun x hx => ?others,
    fun pre p post hpend hpost => ?last⟩, fun hw => ?idle⟩, fun run hrun n => ?fair⟩
  case store => rw [runTurn, complete_busy hw]; rfl
  case others => exact storePairs_read_other _ _ _ fun p hp h => hx p hp (BitVec.eq_of_toNat_eq h)
  case last => rw [hpend]; exact storePairs_last pre p post _ hpost
  case idle => rw [runTurn, complete_idle hw]; rfl
  case fair =>
    obtain ⟨m, hm, hidle | htaken⟩ := hrun.chip n
    · exact ⟨m, hm, hidle⟩
    · exact ⟨m + 1, by omega, chip_taken hrun.isRun htaken⟩

/-- Settles O18: the completion stores the pairs of the burst, which does not wrap inside its page. -/
theorem writtenBytesAreReadBack : Obligations.WrittenBytesAreReadBack := by
  unfold Obligations.WrittenBytesAreReadBack
  intro s a data hdata hpage hf hl hw
  have hexec : exec (.write a data) s = .next ((s.withChip
      { s.chip with wip := true, pending := writePairs a data, wel := !s.cfg.welAnyExchange }).withBus
      { frame := frameBytes s.cfg.opcodes (.write a data), reply := some (.ok []) }) := by
    rw [exec, execWrite, exchange_ok hf, reactWrite_taken _ _ hl hw]
  obtain ⟨hsent, hothers⟩ := bytes_after_write s.chip a data ((writeFrameLengthOk_iff data).mp hdata).2 hpage
    { mem := storePairs s.chip.mem (writePairs a data), wel := false, wip := false, pending := [] } rfl
  exact ⟨_, _, hexec, rfl, rfl, hsent, hothers⟩

/-! ## Reset and loss of power -/

theorem cutExchange_uncut {cut : Bool} {d : BusDraw} {s : State} (h : cut = false ∨ dueFrame s = none) :
    cutExchange cut d s = s.chip := by
  rcases cutExchange_cases cut d s with e | ⟨hcut, f, hf, -⟩
  · exact e
  · rcases h with h | h
    · rw [hcut] at h; contradiction
    · rw [hf] at h; contradiction

/-- A cut exchange leaves a byte, now and after the completion, as it was or at a value of the frame that was due. -/
theorem cutExchange_byteAt_cases (cut : Bool) (d : BusDraw) (s : State) (x : Addr) :
    ((cutExchange cut d s).byteAt x = s.chip.byteAt x ∨
      cut = true ∧ ∃ f, dueFrame s = some f ∧
        ∃ p ∈ addressedPairs f, p.1 = x ∧ (cutExchange cut d s).byteAt x = p.2) ∧
    ((cutExchange cut d s).complete.byteAt x = s.chip.complete.byteAt x ∨
      cut = true ∧ ∃ f, dueFrame s = some f ∧
        ∃ p ∈ addressedPairs f, p.1 = x ∧ (cutExchange cut d s).complete.byteAt x = p.2) := by
  rcases cutExchange_cases cut d s with e | ⟨hcut, f, hf, e⟩ <;> rw [e]
  · exact ⟨.inl rfl, .inl rfl⟩
  · obtain ⟨hnow, hlater⟩ := faulted_byteAt_cases s.chip d (addressedPairs f) x
    exact ⟨hnow.imp_right fun h => ⟨hcut, f, hf, h⟩, hlater.imp_right fun h => ⟨hcut, f, hf, h⟩⟩

theorem faulted_byteAt_other (c : Chip) (d : BusDraw) {ps : List (Addr × Byte)} {x : Addr} (hx : ∀ p ∈ ps, p.1 ≠ x) :
    (c.faulted d ps).byteAt x = c.byteAt x := by
  refine (faulted_byteAt_cases c d ps x).1.resolve_right ?_
  rintro ⟨p, hp, hpx, -⟩
  exact hx p hp hpx

/-- A fault adds no pending pair but those the frame addresses. -/
theorem mem_faulted_pending {c : Chip} {d : BusDraw} {ps : List (Addr × Byte)} {p : Addr × Byte}
    (h : p ∈ (c.faulted d ps).pending) : p ∈ c.pending ∨ p ∈ ps := by
  unfold Chip.faulted at h
  split at h
  · exact .inr (mem_of_mem_landedPairs d ps p h)
  · exact .inl h

/-- A loss of power touches only the bytes of the write in progress. -/
theorem powerCycled_byteAt_other (c : Chip) (lost : BitVec 128) {x : Addr} (hx : ∀ p ∈ c.pending, p.1 ≠ x) :
    (c.powerCycled lost).byteAt x = c.byteAt x := by
  refine byteAt_of_not_stored rfl fun p hp => ?_
  simp only [List.mem_map, List.mem_zipIdx_iff_getElem?] at hp
  obtain ⟨q, hq, rfl⟩ := hp
  exact hx q.1 (List.mem_of_getElem? hq)

/-- Settles O56: the chip that a reset leaves is the one of `cutExchange`, uncut or faulted, and a loss of power then
touches only its pending bytes. -/
theorem memorySurvivesReset : Obligations.MemorySurvivesReset := by
  unfold Obligations.MemorySurvivesReset
  intro s cut d lost
  refine ⟨⟨_, rfl, cutExchange_uncut, cutExchange_byteAt_cases cut d s⟩,
    ⟨_, rfl, rfl, rfl, rfl, fun huncut hpend => ?memory, fun x hpend haddr => ?byte⟩⟩
  case memory =>
    change storePairs (cutExchange cut d s).mem ((cutExchange cut d s).pending.zipIdx.map _) = _
    rw [cutExchange_uncut huncut, hpend]
    rfl
  case byte =>
    change ((cutExchange cut d s).powerCycled lost).byteAt x = _
    rcases cutExchange_cases cut d s with e | ⟨hcut, f, hf, e⟩ <;> rw [e]
    · exact powerCycled_byteAt_other _ lost hpend
    · rw [powerCycled_byteAt_other _ lost fun p hp => (mem_faulted_pending hp).elim (hpend p) (haddr hcut f hf p),
        faulted_byteAt_other _ _ (haddr hcut f hf)]

end Sys2Proof.Machine
end

section
/-! The operations of EEC: how they start, what each phase does with its reply, and what holds when a frame is due
(40_chip_driver.md). -/

namespace Sys2Proof.Machine

/-! ## An operation in progress -/

/-- Settles O19: with `req_ready` the accepting step is `startDriver` on the latched operands. -/
theorem driverOperationsStart : Obligations.DriverOperationsStart := by
  unfold Obligations.DriverOperationsStart
  exact fun s hready => ⟨congrArg Host.Outcome.next (requestStep_ready _ _ _ hready),
    congrArg Host.Outcome.next (requestStep_ready _ _ _ hready),
    congrArg Host.Outcome.next (requestStep_ready _ _ _ hready),
    fun a => congrArg Host.Outcome.next (requestStep_ready _ _ _ hready),
    fun a b => congrArg Host.Outcome.next (requestStep_ready _ _ _ hready)⟩

theorem not_reqReady_of_eec {s : State} (h : s.eec.state ≠ .idle) : reqReady s = false := by
  simp [reqReady, h]

theorem not_reqReady_of_log {s : State} (h : s.log.state ≠ .idle) : reqReady s = false := by
  simp [reqReady, h]

theorem continueOp_driver {s : State} (h : s.eec.state ≠ .idle) : continueOp s = driverStep s :=
  if_pos h

theorem continueOp_log {s : State} (he : s.eec.state = .idle) (hl : s.log.state ≠ .idle) : continueOp s = logStep s :=
  (if_neg (not_not_intro he)).trans (if_pos hl)

theorem driverStep_xfer_ok {s : State} {rx : List Byte} (hs : s.eec.state = .xfer) (hr : s.bus.reply = some (.ok rx)) :
    driverStep s = endDriver .ok (receivedData rx) s := by
  simp only [driverStep, hs, hr]

/-- A busy port runs the next step of the operation whose code is latched. -/
theorem requestStep_continues {op : OpCode} (latch : Request → Request) (first : State → State) {s : State}
    (hop : s.lat.op = op) (hb : reqReady s = false) : requestStep op latch first s = continueOp s :=
  hop ▸ requestStep_busy latch first s hb

/-- The step that takes the reply of the last frame ends the operation with the byte received. -/
theorem requestStep_take {op : OpCode} (latch : Request → Request) (first : State → State) {s : State} {rx : List Byte}
    (hop : s.lat.op = op) (hs : s.eec.state = .xfer) (hr : s.bus.reply = some (.ok rx)) :
    requestStep op latch first s = endDriver .ok (receivedData rx) s := by
  have he : s.eec.state ≠ .idle := by simp [hs]
  rw [requestStep_continues latch first hop (not_reqReady_of_eec he), continueOp_driver he, driverStep_xfer_ok hs hr]

/-- The end of an operation that no LOG operation called, with its reply waiting. -/
theorem requestStep_end {op : OpCode} (latch : Request → Request) (first : State → State) {s : State} {rx : List Byte}
    (hop : s.lat.op = op) (hlog : s.log.state = .idle) (hs : s.eec.state = .xfer) (hr : s.bus.reply = some (.ok rx)) :
    requestStep op latch first s = { s with
      eec := { s.eec with state := .idle }, bus := { s.bus with reply := none }
      rsp := { valid := true, status := 0, data := receivedData rx } } :=
  (requestStep_take latch first hop hs hr).trans (endDriver_alone _ _ _ hlog)

/-- Settles O25: the end with one byte received. -/
theorem driverReadsEnd : Obligations.DriverReadsEnd := by
  unfold Obligations.DriverReadsEnd
  exact fun s b hlog hs hr => ⟨fun hop => congrArg Host.Outcome.next (requestStep_end _ _ hop hlog hs hr),
    fun hop => congrArg Host.Outcome.next (requestStep_end _ _ hop hlog hs hr)⟩

/-- Settles O26: the end with nothing received. -/
theorem driverCommandsEnd : Obligations.DriverCommandsEnd := by
  unfold Obligations.DriverCommandsEnd
  rintro s hlog hs hr i (⟨hop, rfl⟩ | ⟨hop, rfl⟩ | ⟨hop, rfl⟩ | ⟨hop, rfl⟩) <;>
    exact congrArg Host.Outcome.next (requestStep_end _ _ hop hlog hs hr)

/-! ## Replies under the invariant -/

/-- While EEC is busy the latched instruction is EEC's next step. -/
theorem MachineInv.exec_driver {s : State} (h : MachineInv s) (hs : s.eec.state ≠ .idle) :
    exec (decodeRequest s.lat) s = .next (driverStep s) := by
  have hb := not_reqReady_of_eec hs
  rw [exec_latched_continues s hb (h.running hb), continueOp_driver hs]

theorem respond_fail {st : Status} (hst : st ≠ .ok) (d : BitVec 64) (s : State) :
    respond st d s = s.withRsp { valid := true, status := statusCode st, data := Config.failData s.tick } := by
  rw [respond, if_neg hst]

/-- A failed operation ends EEC's operation and LOG's alike, and the cursor stays (rules R151, R190). -/
theorem endDriver_fail {st : Status} (hst : st ≠ .ok) (d : BitVec 64) (s : State) :
    endDriver st d s = { s with
      eec := { s.eec with state := .idle }
      log := { s.log with state := .idle }
      bus := { s.bus with reply := none }
      rsp := { valid := true, status := statusCode st, data := Config.failData s.tick } } := by
  by_cases hl : s.log.state = .idle
  · have hlog : { s.log with state := .idle } = s.log := by rw [← hl]
    rw [endDriver_alone _ _ _ hl, respond_fail hst, hlog]
    rfl
  · rw [endDriver_called _ _ _ hl, logReceive, if_neg hst, endLog, respond_fail hst]
    rfl

theorem driverStep_fault {s : State} (h : MachineInv s) (hr : s.bus.reply = some .fault) :
    s.eec.state ≠ .idle ∧ driverStep s = endDriver .busFault 0 s := by
  rcases h.reply _ hr with ⟨hs, -⟩ | ⟨hs, -⟩ | ⟨hs, -⟩ <;> simp [driverStep, hs, hr]

/-- Settles O27: the step that takes the fault is `endDriver_fail`. -/
theorem faultEndsOperation : Obligations.FaultEndsOperation := by
  unfold Obligations.FaultEndsOperation
  intro s h hr
  obtain ⟨hs, hstep⟩ := driverStep_fault h hr
  refine ⟨Config.failData s.tick, ?_⟩
  rw [h.exec_driver hs, hstep, endDriver_fail (by decide)]
  rfl

theorem driverStep_poll_busy {s : State} {b : Byte} (hs : s.eec.state = .poll) (hr : s.bus.reply = some (.ok [b]))
    (hb : busyBit s.cfg b = true) : driverStep s = pollBusy s := by
  simp only [driverStep, hs, hr, receivedStatus, hb, if_true]

theorem driverStep_poll_clear {s : State} {b : Byte} (hs : s.eec.state = .poll) (hr : s.bus.reply = some (.ok [b]))
    (hb : busyBit s.cfg b = false) : driverStep s = pollDone s := by
  simp only [driverStep, hs, hr, receivedStatus, hb, Bool.false_eq_true, if_false]

theorem pollDone_eq {s : State} {op : Instr} (hd : dueOp s = some op) :
    pollDone s = gotoPhase (if writes op then .wren else .xfer) s := by
  simp only [pollDone, hd]

/-- A busy answer with no `POLL_LIMIT` only takes the reply. -/
theorem pollBusy_unlimited {s : State} (hs : s.eec.state = .poll) (hl : s.cfg.pollLimit = none) :
    pollBusy s = { s with bus := { s.bus with reply := none } } := by
  have heec : { s.eec with state := .poll } = s.eec := by rw [← hs]
  simp only [pollBusy, hl, gotoPhase, heec]
  rfl

theorem pollBusy_again {s : State} {limit : Nat} (hs : s.eec.state = .poll) (hl : s.cfg.pollLimit = some limit)
    (hc : s.eec.pollCount + 1 < limit) :
    pollBusy s = { s with
      eec := { s.eec with pollCount := s.eec.pollCount + 1 }, bus := { s.bus with reply := none } } := by
  have heec : { s.eec with pollCount := s.eec.pollCount + 1 } = EecUnit.mk .poll (s.eec.pollCount + 1) := by rw [← hs]
  simp only [pollBusy, hl, if_neg (Nat.not_le.mpr hc), heec]
  rfl

theorem pollBusy_last {s : State} {limit : Nat} (hl : s.cfg.pollLimit = some limit)
    (hc : limit ≤ s.eec.pollCount + 1) :
    pollBusy s = endDriver .deviceUnresponsive 0 (s.withEec { s.eec with pollCount := s.eec.pollCount + 1 }) := by
  simp only [pollBusy, hl, if_pos hc]

/-- Settles O21: a poll's answer is `pollDone` or `pollBusy`, and that again, or the failed end, by the limit. -/
theorem pollAnswers : Obligations.PollAnswers := by
  unfold Obligations.PollAnswers
  intro s b h hs hr
  have he : s.eec.state ≠ .idle := by simp [hs]
  rw [h.exec_driver he]
  refine ⟨fun hb => ?clear, fun hb hl => ?unlimited, fun limit hb hl hc => ?again, fun limit hb hl hc => ?last⟩
  case clear =>
    obtain ⟨op, hd, -⟩ := h.driver he
    refine ⟨op, hd, ?_⟩
    rw [driverStep_poll_clear hs hr hb, pollDone_eq hd]
    rfl
  case unlimited => rw [driverStep_poll_busy hs hr hb, pollBusy_unlimited hs hl]
  case again => rw [driverStep_poll_busy hs hr hb, pollBusy_again hs hl hc]
  case last =>
    refine ⟨Config.failData s.tick, ?_⟩
    rw [driverStep_poll_busy hs hr hb, pollBusy_last hl hc, endDriver_fail (by decide)]
    rfl

theorem driverStep_wren_ok {s : State} {rx : List Byte} (hs : s.eec.state = .wren) (hr : s.bus.reply = some (.ok rx)) :
    driverStep s = gotoPhase .settle s := by
  simp only [driverStep, hs, hr]

theorem driverStep_settle {s : State} (hs : s.eec.state = .settle) : driverStep s = gotoPhase .xfer s := by
  simp only [driverStep, hs]

/-- No exchange belongs to the settle wait, so no reply waits in it. -/
theorem MachineInv.no_reply_of_settle {s : State} (h : MachineInv s) (hs : s.eec.state = .settle) :
    s.bus.reply = none := by
  cases hr : s.bus.reply with
  | none => rfl
  | some r => rcases h.reply r hr with ⟨hs', -⟩ | ⟨hs', -⟩ | ⟨hs', -⟩ <;> rw [hs] at hs' <;> contradiction

/-- Settles O22: both steps are a change of phase. -/
theorem enableThenSettleThenWrite : Obligations.EnableThenSettleThenWrite := by
  unfold Obligations.EnableThenSettleThenWrite
  intro s h
  refine ⟨fun rx hs hr => ?enable, fun hs => ?settle⟩
  case enable =>
    rw [h.exec_driver (by simp [hs]), driverStep_wren_ok hs hr]
    rfl
  case settle =>
    have hbus : { s.bus with reply := none } = s.bus := by rw [← h.no_reply_of_settle hs]
    rw [h.exec_driver (by simp [hs]), driverStep_settle hs, gotoPhase, hbus]
    rfl

/-! ## When an addressed frame is due -/

/-- The operation whose last frame is a read is a byte read. -/
theorem finalFrame_eq_read {op : Instr} {a : Addr} (h : finalFrame op = some (.read a)) : op = .readByte a := by
  cases op <;> simp_all [finalFrame]

/-- The operation whose last frame is a write is a byte write, or a page write of the buffer's prefix. -/
theorem finalFrame_eq_write {op : Instr} {a : Addr} {data : List Byte} (h : finalFrame op = some (.write a data)) :
    (∃ b, op = .writeByte a b ∧ data = [b]) ∨
    ∃ len buf, op = .writePage a len buf ∧ data = buf.toList.take len.toNat := by
  cases op <;> simp_all [finalFrame]

/-- When a write frame is due the latch window is open and the frame is 1 to 16 bytes inside one page. -/
theorem MachineInv.write_due {s : State} (h : MachineInv s) {a : Addr} {data : List Byte}
    (hf : dueFrame s = some (.write a data)) : LatchWindow s ∧ 1 ≤ data.length ∧ data.length ≤ maxSize a := by
  obtain ⟨hr, ⟨-, hframe⟩ | ⟨-, hframe⟩ | ⟨hs, op, hd, hop⟩⟩ := dueFrame_of_phase hf
  · contradiction
  · contradiction
  obtain ⟨-, -, -, -, -, hwrite⟩ := h.window
  have hwindow : writes op = true → LatchWindow s := hwrite op hs hr hd
  have hpage := maxSize_bounds a
  rcases finalFrame_eq_write hop with ⟨b, rfl, rfl⟩ | ⟨len, buf, rfl, rfl⟩
  · exact ⟨hwindow rfl, Nat.le_refl 1, hpage.1⟩
  · obtain ⟨hne, hfits⟩ := h.writePage_fits (by simp [hs]) hd
    have hpos : len.toNat ≠ 0 := fun h0 => hne (BitVec.eq_of_toNat_eq h0)
    have hlen : (buf.toList.take len.toNat).length = len.toNat := by simp; omega
    exact ⟨hwindow rfl, by omega, by omega⟩

/-- The turn of a write frame that does not fault, with the latch window open: the chip takes the write. -/
theorem writeTurn_taken {s : State} (h : MachineInv s) {a : Addr} {data : List Byte}
    (hf : dueFrame s = some (.write a data)) {d : BusDraw} (hd : d.fault = false) :
    ∃ t, runTurn (.sequencer d) s = .next t ∧ t.chip.wip = true ∧ t.chip.pending = writePairs a data := by
  obtain ⟨⟨hwip, hwel, -⟩, -⟩ := h.write_due hf
  refine ⟨_, sequencerTurn_frame d s _ _ hf (dueFrame_decodes h hf).1, ?_⟩
  rw [exchange_ok (s := s.withBusIn d) hd, reactWrite_taken _ _ (c := (s.withBusIn d).chip) hwel hwip]
  exact ⟨rfl, rfl⟩

/-- Inside its page a burst is the addresses that follow one another. -/
theorem writePairs_eq_add {a : Addr} {data : List Byte} (h : data.length ≤ maxSize a) :
    writePairs a data = data.zipIdx.map fun p => (a + BitVec.ofNat 9 p.2, p.1) := by
  refine List.map_congr_left fun p hp => ?_
  have hi : p.2 < data.length := by simpa using (List.mem_zipIdx hp).2.1
  rw [burstAddress_eq_add a p.2 (hi.trans_le h)]

/-- Settles O23: `write_due` for the state, `writeTurn_taken` for the turn. -/
theorem writeFrameFollowsEnable : Obligations.WriteFrameFollowsEnable := by
  unfold Obligations.WriteFrameFollowsEnable
  intro s a data h hf
  obtain ⟨⟨hwip, hwel, hframe⟩, hpos, hfits⟩ := h.write_due hf
  refine ⟨hframe, hwip, hwel, hpos, hfits, fun d hd => ?_⟩
  obtain ⟨t, ht, hbusy, hpending⟩ := writeTurn_taken h hf hd
  exact ⟨t, ht, hbusy, hpending.trans (writePairs_eq_add hfits)⟩

/-- When a read frame is due the chip is idle. -/
theorem MachineInv.read_due {s : State} (h : MachineInv s) {a : Addr} (hf : dueFrame s = some (.read a)) :
    s.chip.wip = false := by
  obtain ⟨hr, ⟨-, hframe⟩ | ⟨-, hframe⟩ | ⟨hs, op, hd, hop⟩⟩ := dueFrame_of_phase hf
  · contradiction
  · contradiction
  · obtain rfl := finalFrame_eq_read hop
    obtain ⟨-, -, -, -, hpolled, -⟩ := h.window
    exact hpolled _ hs hr hd rfl

/-- Settles O24: what EEC has learned by its poll, in the window of the invariant. -/
theorem addressedFramesMeetIdleChip : Obligations.AddressedFramesMeetIdleChip := by
  unfold Obligations.AddressedFramesMeetIdleChip
  intro s h
  refine ⟨fun a hf => ⟨h.read_due hf, fun d hd => ?read⟩, fun a data hf => (h.write_due hf).1.1, fun hs hf => ?enable⟩
  case read =>
    refine ⟨_, sequencerTurn_frame d s _ _ hf (dueFrame_decodes h hf).1, ?_⟩
    rw [exchange_ok (s := s.withBusIn d) hd]
    exact congrArg (fun b => some (BusReply.ok [b])) (if_neg (Bool.eq_false_iff.mp (h.read_due hf)))
  case enable => exact h.window.2.1 hs (dueFrame_of_phase hf).1

end Sys2Proof.Machine
end

section
/-! The operations of LOG: the sub-operation due in each phase, what LOG does with its end, and what a step can do to the
cursor and the response port (41_log_store.md). -/

namespace Sys2Proof.Machine

/-! ## The sub-operation due in each phase -/

theorem dueOp_hdr {s : State} (h : s.log.state = .hdr) : dueOp s = some (.writePage 0 8 (le64Buf s.lat.ts)) := by
  simp only [dueOp, h]

theorem dueOp_fill {s : State} (h : s.log.state = .fill) (hx : s.log.fillAddr.toNat < ceiling s.cfg) :
    dueOp s = some (.writePage (s.log.fillAddr.setWidth 9) (BitVec.ofNat 5 (fillBurst s.cfg s.log.fillAddr)) zeroBuf) := by
  simp only [dueOp, h, if_pos hx]

theorem dueOp_fill_end {s : State} (h : s.log.state = .fill) (hx : ceiling s.cfg ≤ s.log.fillAddr.toNat) :
    dueOp s = none := by
  simp only [dueOp, h, if_neg (Nat.not_lt.mpr hx)]

theorem dueOp_append {s : State} (h : s.log.state = .append) :
    dueOp s = some (.writeByte (s.log.cursor.setWidth 9) s.lat.data) := by
  simp only [dueOp, h]

theorem dueOp_read {s : State} (h : s.log.state = .read) : dueOp s = some (.readByte (slotAddress s)) := by
  simp only [dueOp, h]

theorem dueOp_tsread {s : State} (h : s.log.state = .tsread) (hk : s.log.tsK.toNat < 8) :
    dueOp s = some (.readByte (s.log.tsK.setWidth 9)) := by
  simp only [dueOp, h, if_pos hk]

theorem dueOp_tsread_end {s : State} (h : s.log.state = .tsread) (hk : 8 ≤ s.log.tsK.toNat) : dueOp s = none := by
  simp only [dueOp, h, if_neg (Nat.not_lt.mpr hk)]

theorem getElem_le64Buf (t : BitVec 64) {k : Nat} (h : k < 16) (hk : k < 8) :
    (le64Buf t)[k] = t.extractLsb' (8 * k) 8 := by
  simp only [le64Buf, Vector.getElem_ofFn, if_pos hk, timestampByte]

theorem getElem_zeroBuf {k : Nat} (h : k < 16) : zeroBuf[k] = 0 := Vector.getElem_replicate h

/-- Under the invariant the cursor never passes the ceiling. -/
theorem MachineInv.cursor_le {s : State} (h : MachineInv s) : s.log.cursor.toNat ≤ ceiling s.cfg := by
  rcases h.cursor with h0 | ⟨-, hle⟩
  · rw [h0]; exact Nat.zero_le _
  · exact hle

theorem slotAddress_toNat_index {s : State} (hop : s.lat.op = 10#4) (hx : 8 + s.lat.index.toNat < 512) :
    (slotAddress s).toNat = 8 + s.lat.index.toNat := by
  have hne : ¬s.lat.op = 11#4 := by rw [hop]; decide
  rw [slotAddress, if_neg hne, BitVec.toNat_setWidth, BitVec.toNat_add, BitVec.toNat_ofNat, headerSize]
  omega

theorem slotAddress_toNat_last {s : State} (hop : s.lat.op = 11#4) (hpos : 1 ≤ s.log.cursor.toNat)
    (hx : s.log.cursor.toNat ≤ 512) : (slotAddress s).toNat = s.log.cursor.toNat - 1 := by
  rw [slotAddress, if_pos hop, BitVec.toNat_setWidth, BitVec.toNat_sub_of_le (by bv_omega)]
  exact Nat.mod_eq_of_lt (by change s.log.cursor.toNat - 1 < 512; omega)

/-- Settles O30: `dueOp` by phase; the ceiling keeps every address inside its nine bits. -/
theorem logSubOperations : Obligations.LogSubOperations := by
  unfold Obligations.LogSubOperations
  simp only [← ceiling_eq]
  intro s h
  have hceil := ceiling_bounds s.cfg
  have hcursor := h.cursor_le
  have hlog := h.log
  unfold LogPhaseOk at hlog
  refine ⟨fun hl => ?hdr, fun hl hx => ?fill, fun hl => ?append, fun hl hop => ?read, fun hl hop => ?last,
    fun hl hk => ?tsread⟩ <;> rw [hl] at hlog
  case hdr => exact ⟨_, dueOp_hdr hl, fun k h hk => getElem_le64Buf _ h hk⟩
  case fill =>
    have haddr : (s.log.fillAddr.setWidth 9 : Addr).toNat = s.log.fillAddr.toNat := by
      rw [BitVec.toNat_setWidth]; omega
    refine ⟨_, _, _, dueOp_fill hl hx, haddr, ?_, fun k h => getElem_zeroBuf h⟩
    obtain ⟨-, hburst, -⟩ := fillBurst_facts hx
    rw [BitVec.toNat_ofNat, haddr, Nat.mod_eq_of_lt (by omega), fillBurst_eq]
  case append =>
    obtain ⟨-, -, hroom⟩ := hlog
    refine ⟨_, dueOp_append hl, ?_⟩
    rw [BitVec.toNat_setWidth]; omega
  case read =>
    rcases hlog with ⟨-, hslot⟩ | ⟨hop', -⟩
    · rw [headerSize] at hslot
      exact ⟨_, dueOp_read hl, slotAddress_toNat_index hop (by omega)⟩
    · rw [hop] at hop'; contradiction
  case last =>
    rcases hlog with ⟨hop', -⟩ | ⟨-, hcount⟩
    · rw [hop] at hop'; contradiction
    · rw [headerSize] at hcount
      exact ⟨_, dueOp_read hl, slotAddress_toNat_last hop (by omega) (by omega)⟩
  case tsread =>
    refine ⟨_, dueOp_tsread hl hk, ?_⟩
    rw [BitVec.toNat_setWidth]; omega

theorem logStep_due {s : State} {op : Instr} (hd : dueOp s = some op) : logStep s = startDriver op s := by
  simp only [logStep, hd]

/-- Settles O31: the next step of a busy LOG with an idle EEC starts the sub-operation due, which polls. -/
theorem logStartsSubOperation : Obligations.LogStartsSubOperation := by
  unfold Obligations.LogStartsSubOperation
  intro s op h he hl hd
  have hb := not_reqReady_of_log hl
  rw [exec_latched_continues s hb (h.running hb), continueOp_log he hl, logStep_due hd, h.sub_polls hl hd]
  rfl

/-! ## The end of a sub-operation, by phase -/

theorem endDriver_hdr (d : BitVec 64) {s : State} (h : s.log.state = .hdr) :
    endDriver .ok d s = { s with
      eec := { s.eec with state := .idle }, bus := { s.bus with reply := none }
      log := { s.log with state := .fill, fillAddr := 8 } } := by
  rw [endDriver_called _ _ _ (by simp [h])]
  simp only [logReceive, State.withBus_log, State.withEec_log, h]
  rfl

theorem endDriver_fill (d : BitVec 64) {s : State} (h : s.log.state = .fill) :
    endDriver .ok d s = { s with
      eec := { s.eec with state := .idle }, bus := { s.bus with reply := none }
      log := { s.log with fillAddr := fillNext s.cfg s.log.fillAddr } } := by
  rw [endDriver_called _ _ _ (by simp [h])]
  simp only [logReceive, State.withBus_log, State.withEec_log, h]
  rfl

theorem endDriver_append (d : BitVec 64) {s : State} (h : s.log.state = .append) :
    endDriver .ok d s = { s with
      eec := { s.eec with state := .idle }, bus := { s.bus with reply := none }
      log := { s.log with state := .idle, cursor := s.log.cursor + 1 }
      rsp := { valid := true, status := 0, data := 0 } } := by
  rw [endDriver_called _ _ _ (by simp [h])]
  simp only [logReceive, State.withBus_log, State.withEec_log, h]
  rfl

theorem endDriver_read (d : BitVec 64) {s : State} (h : s.log.state = .read) :
    endDriver .ok d s = { s with
      eec := { s.eec with state := .idle }, bus := { s.bus with reply := none }
      log := { s.log with state := .idle }
      rsp := { valid := true, status := 0, data := d } } := by
  rw [endDriver_called _ _ _ (by simp [h])]
  simp only [logReceive, State.withBus_log, State.withEec_log, h]
  rfl

theorem endDriver_tsread (d : BitVec 64) {s : State} (h : s.log.state = .tsread) :
    endDriver .ok d s = { s with
      eec := { s.eec with state := .idle }, bus := { s.bus with reply := none }
      log := { s.log with
        tsAcc := insertTimestampByte s.log.tsAcc s.log.tsK.toNat (d.setWidth 8), tsK := s.log.tsK + 1 } } := by
  rw [endDriver_called _ _ _ (by simp [h])]
  simp only [logReceive, State.withBus_log, State.withEec_log, h]
  rfl

theorem logStep_fill_end {s : State} (h : s.log.state = .fill) (hd : dueOp s = none) :
    logStep s = endLog .ok 0 (s.withLog { s.log with cursor := BitVec.ofNat 16 headerSize }) := by
  simp only [logStep, hd, h]

theorem logStep_tsread_end {s : State} (h : s.log.state = .tsread) (hd : dueOp s = none) :
    logStep s = endLog .ok s.log.tsAcc s := by
  simp only [logStep, hd, h]

/-- With EEC idle the step of the LOG operation in progress is LOG's own. -/
theorem requestStep_log {op : OpCode} (latch : Request → Request) (first : State → State) {s : State}
    (hop : s.lat.op = op) (he : s.eec.state = .idle) (hl : s.log.state ≠ .idle) :
    requestStep op latch first s = logStep s := by
  rw [requestStep_continues latch first hop (not_reqReady_of_log hl), continueOp_log he hl]

/-! ## The operations -/

/-- Settles O32: the acceptance, the end of the header write and of a fill burst, and the end of the loop. -/
theorem resetLogPhases : Obligations.ResetLogPhases := by
  unfold Obligations.ResetLogPhases
  simp only [← ceiling_eq]
  refine ⟨fun s ts hready => congrArg Host.Outcome.next (requestStep_ready _ _ _ hready),
    fun s hop hl hs hr => congrArg Host.Outcome.next ((requestStep_take _ _ hop hs hr).trans (endDriver_hdr _ hl)),
    fun s hop hl hs hr => congrArg Host.Outcome.next ((requestStep_take _ _ hop hs hr).trans (endDriver_fill _ hl)),
    fun s hop hl he hx => congrArg Host.Outcome.next
      ((requestStep_log _ _ hop he (by simp [hl])).trans (logStep_fill_end hl (dueOp_fill_end hl hx)))⟩

theorem startAppend_full {s : State} (h : s.log.cursor.toNat < headerSize ∨ ceiling s.cfg ≤ s.log.cursor.toNat) :
    startAppend s = respond .full 0 s := by
  unfold startAppend
  split
  · rfl
  next hinit =>
    rw [not_initialised_iff] at hinit
    exact if_pos (h.resolve_left hinit)

theorem startAppend_room {s : State} (hinit : headerSize ≤ s.log.cursor.toNat)
    (hroom : s.log.cursor.toNat < ceiling s.cfg) : startAppend s = gotoLog .append s := by
  rw [startAppend, if_neg (by simp [(initialised_iff _).mpr hinit]), if_neg (Nat.not_le.mpr hroom)]

/-- Settles O34: `FULL` or the acceptance by the cursor, and the end that advances it. -/
theorem appendReading : Obligations.AppendReading := by
  unfold Obligations.AppendReading
  simp only [← ceiling_eq]
  refine ⟨fun s v hready hfull => ⟨Config.failData s.tick, congrArg Host.Outcome.next ?full⟩,
    fun s v hready hinit hroom => congrArg Host.Outcome.next ?room,
    fun s hop hl hs hr => congrArg Host.Outcome.next ((requestStep_take _ _ hop hs hr).trans (endDriver_append _ hl))⟩
  case full => exact (requestStep_ready _ _ _ hready).trans (startAppend_full (s := s.withLat _) hfull)
  case room => exact (requestStep_ready _ _ _ hready).trans (startAppend_room (s := s.withLat _) hinit hroom)

theorem startReadReading_none {i : BitVec 16} {s : State}
    (h : s.log.cursor.toNat < headerSize ∨ readingCount s.log.cursor ≤ i.toNat) :
    startReadReading i s = respond .none 0 s := by
  unfold startReadReading
  split
  · rfl
  next hinit =>
    rw [not_initialised_iff] at hinit
    exact if_pos (h.resolve_left hinit)

theorem startReadReading_slot {i : BitVec 16} {s : State} (h : headerSize + i.toNat < s.log.cursor.toNat) :
    startReadReading i s = gotoLog .read s := by
  have hinit : initialised s.log.cursor = true := (initialised_iff _).mpr (by omega)
  have hslot : ¬readingCount s.log.cursor ≤ i.toNat := by unfold readingCount; omega
  rw [startReadReading, if_neg (by simp [hinit]), if_neg hslot]

/-- Settles O35: `NONE` or the acceptance by the full index, and the end with the byte. -/
theorem readReading : Obligations.ReadReading := by
  unfold Obligations.ReadReading
  refine ⟨fun s i hready hnone => ⟨Config.failData s.tick, congrArg Host.Outcome.next ?none⟩,
    fun s i hready hslot => congrArg Host.Outcome.next ?slot,
    fun s b hop hl hs hr => congrArg Host.Outcome.next ((requestStep_take _ _ hop hs hr).trans (endDriver_read _ hl))⟩
  case none => exact (requestStep_ready _ _ _ hready).trans (startReadReading_none (s := s.withLat _) hnone)
  case slot => exact (requestStep_ready _ _ _ hready).trans (startReadReading_slot (s := s.withLat _) hslot)

theorem startReadLast_none {s : State} (h : s.log.cursor.toNat ≤ headerSize) : startReadLast s = respond .none 0 s :=
  if_pos h

theorem startReadLast_slot {s : State} (h : headerSize < s.log.cursor.toNat) : startReadLast s = gotoLog .read s :=
  if_neg (Nat.not_le.mpr h)

/-- Settles O36: `NONE` or the acceptance by the cursor, and the end with the byte. -/
theorem readLastReading : Obligations.ReadLastReading := by
  unfold Obligations.ReadLastReading
  refine ⟨fun s hready hnone => ⟨Config.failData s.tick, congrArg Host.Outcome.next ?none⟩,
    fun s hready hslot => congrArg Host.Outcome.next ?slot,
    fun s b hop hl hs hr => congrArg Host.Outcome.next ((requestStep_take _ _ hop hs hr).trans (endDriver_read _ hl))⟩
  case none => exact (requestStep_ready _ _ _ hready).trans (startReadLast_none (s := s.withLat _) hnone)
  case slot => exact (requestStep_ready _ _ _ hready).trans (startReadLast_slot (s := s.withLat _) hslot)

theorem startReadHeader_none {s : State} (h : s.log.cursor.toNat < headerSize) :
    startReadHeader s = respond .none 0 s :=
  if_pos ((not_initialised_iff _).mpr h)

theorem startReadHeader_initialised {s : State} (h : headerSize ≤ s.log.cursor.toNat) :
    startReadHeader s = s.withLog { s.log with state := .tsread, tsK := 0, tsAcc := 0 } :=
  if_neg (by simp [(initialised_iff _).mpr h])

/-- The response value of a received byte is that byte, zero-extended. -/
theorem receivedData_setWidth (b : Byte) : (receivedData [b]).setWidth 8 = b := by
  rw [receivedData, BitVec.setWidth_setWidth_of_le _ (by decide), BitVec.setWidth_eq]

/-- Settles O37: `NONE` or the acceptance, the byte of each read put in its place, and the end of the loop. -/
theorem readHeaderTimestamp : Obligations.ReadHeaderTimestamp := by
  unfold Obligations.ReadHeaderTimestamp
  refine ⟨fun s hready hnone => ⟨Config.failData s.tick, congrArg Host.Outcome.next ?none⟩,
    fun s hready hinit => congrArg Host.Outcome.next ?start,
    fun s b hop hl hs hr hk => ⟨insertTimestampByte s.log.tsAcc s.log.tsK.toNat b,
      fun j hj => insertTimestampByte_byte _ _ j hk hj b, congrArg Host.Outcome.next ?byte⟩,
    fun s hop hl he hk => congrArg Host.Outcome.next
      ((requestStep_log _ _ hop he (by simp [hl])).trans (logStep_tsread_end hl (dueOp_tsread_end hl hk)))⟩
  case none => exact (requestStep_ready _ _ _ hready).trans (startReadHeader_none (s := s.withLat _) hnone)
  case start => exact (requestStep_ready _ _ _ hready).trans (startReadHeader_initialised (s := s.withLat _) hinit)
  case byte =>
    have hend := endDriver_tsread (receivedData [b]) hl
    rw [receivedData_setWidth] at hend
    exact (requestStep_take _ _ hop hs hr).trans hend

end Sys2Proof.Machine
end

section
/-! What a step can do to the cursor (10_state.md section 5) and to the response port (10_state.md section 1), over every
state: from what the next step of an operation can answer. -/

namespace Sys2Proof.Machine

/-! ## The next step of an operation -/

/-- EEC's step only moves its own registers and the reply, or takes the reply of the last frame, or ends the operation
with a failure. -/
theorem driverStep_cases (s : State) :
    (∃ eec bus, driverStep s = (s.withEec eec).withBus bus) ∨
    (s.eec.state = .xfer ∧ ∃ rx, s.bus.reply = some (.ok rx) ∧ driverStep s = endDriver .ok (receivedData rx) s) ∨
    ∃ st eec, st ≠ .ok ∧ driverStep s = endDriver st 0 (s.withEec eec) := by
  have hgoto : ∀ p, ∃ eec bus, gotoPhase p s = (s.withEec eec).withBus bus := fun p => ⟨_, _, rfl⟩
  have hstay : ∃ eec bus, s = (s.withEec eec).withBus bus := ⟨s.eec, s.bus, rfl⟩
  unfold driverStep
  split
  · exact .inl hstay
  · exact .inl (hgoto _)
  · split
    · unfold pollBusy
      split
      · exact .inl (hgoto _)
      · dsimp only
        split
        · exact .inr (.inr ⟨_, _, by decide, rfl⟩)
        · exact .inl ⟨_, _, rfl⟩
    · unfold pollDone
      split
      · exact .inl (hgoto _)
      · exact .inl hstay
  · exact .inl (hgoto _)
  next rx hs hr => exact .inr (.inl ⟨hs, rx, hr, rfl⟩)
  · exact .inr (.inr ⟨_, s.eec, by decide, rfl⟩)
  · exact .inl hstay

/-- LOG's step starts the sub-operation due, or ends a loop that has none. -/
theorem logStep_cases (s : State) :
    (∃ op, dueOp s = some op ∧ logStep s = startDriver op s) ∨
    (s.log.state = .fill ∧ ceiling s.cfg ≤ s.log.fillAddr.toNat ∧
      logStep s = endLog .ok 0 (s.withLog { s.log with cursor := BitVec.ofNat 16 headerSize })) ∨
    logStep s = endLog .ok s.log.tsAcc s ∨ logStep s = s := by
  cases hd : dueOp s with
  | some op => exact .inl ⟨op, rfl, logStep_due hd⟩
  | none =>
    right
    cases hl : s.log.state with
    | fill =>
      refine .inl ⟨rfl, ?_, logStep_fill_end hl hd⟩
      by_contra hx
      rw [dueOp_fill hl (Nat.not_le.mp hx)] at hd
      contradiction
    | tsread => exact .inr (.inl (logStep_tsread_end hl hd))
    | idle | hdr | append | read => simp only [logStep, hd, hl, or_true]

/-! ## The cursor -/

/-- The moves of the cursor that are no reset: none, one up at the acknowledged end of an append, or to the first slot at
the end of a `reset_log` (rule R46). -/
def CursorMove (s t : State) : Prop :=
  t.log.cursor = s.log.cursor ∨
  (t.log.cursor = s.log.cursor + 1 ∧ s.log.state = .append ∧ s.eec.state = .xfer ∧
    (∃ rx, s.bus.reply = some (.ok rx)) ∧ t.rsp.valid = true ∧ t.rsp.status = 0) ∨
  (t.log.cursor = 8 ∧ s.log.state = .fill ∧ ceiling s.cfg ≤ s.log.fillAddr.toNat ∧
    t.rsp.valid = true ∧ t.rsp.status = 0)

theorem endDriver_cursor_of_not_append {s : State} (h : s.log.state ≠ .append) (st : Status) (d : BitVec 64) :
    (endDriver st d s).log.cursor = s.log.cursor := by
  by_cases hst : st = .ok
  · subst hst
    cases hl : s.log.state with
    | idle => rw [endDriver_alone _ _ _ hl]; rfl
    | hdr => rw [endDriver_hdr _ hl]
    | fill => rw [endDriver_fill _ hl]
    | append => exact absurd hl h
    | read => rw [endDriver_read _ hl]
    | tsread => rw [endDriver_tsread _ hl]
  · rw [endDriver_fail hst]

/-- Starting the sub-operation due leaves the cursor: an append's is a byte write, which polls. -/
theorem startDriver_cursor {s : State} {op : Instr} (h : s.log.state = .append → dueOp s = some op) :
    (startDriver op s).log.cursor = s.log.cursor := by
  by_cases hl : s.log.state = .append
  · obtain rfl : _ = op := Option.some.inj ((dueOp_append hl).symm.trans (h hl))
    rfl
  · rcases startDriver_cases op s with e | e | e | e | e <;> rw [e]
    · exact endDriver_cursor_of_not_append hl _ _
    · exact endDriver_cursor_of_not_append hl _ _
    · rfl
    · rfl

theorem driverStep_cursor (s : State) : CursorMove s (driverStep s) := by
  rcases driverStep_cases s with ⟨eec, bus, e⟩ | ⟨hs, rx, hr, e⟩ | ⟨st, eec, hst, e⟩ <;> rw [e]
  · exact .inl rfl
  · by_cases hl : s.log.state = .append
    · rw [endDriver_append _ hl]
      exact .inr (.inl ⟨rfl, hl, hs, ⟨rx, hr⟩, rfl, rfl⟩)
    · exact .inl (endDriver_cursor_of_not_append hl _ _)
  · rw [endDriver_fail hst]
    exact .inl rfl

theorem logStep_cursor (s : State) : CursorMove s (logStep s) := by
  rcases logStep_cases s with ⟨op, hd, e⟩ | ⟨hl, hx, e⟩ | e | e <;> rw [e]
  · exact .inl (startDriver_cursor fun _ => hd)
  · exact .inr (.inr ⟨rfl, hl, hx, rfl, rfl⟩)
  · exact .inl rfl
  · exact .inl rfl

theorem continueOp_cursor (s : State) : CursorMove s (continueOp s) := by
  rcases continueOp_cases s with ⟨-, e⟩ | ⟨-, -, e⟩ | ⟨-, -, e⟩ <;> rw [e]
  · exact driverStep_cursor s
  · exact logStep_cursor s
  · exact .inl rfl

theorem exec_request_cursor {r : Request} {s t : State} (ht : exec (decodeRequest r) s = .next t) : CursorMove s t := by
  rcases exec_request_cases r s with
    ⟨hready, l, ⟨op, -, e⟩ | ⟨st, d, e⟩ | ⟨_, _, _, e⟩ | ⟨-, e⟩ | ⟨-, e⟩⟩ | ⟨-, e | e⟩ <;>
    rw [e] at ht <;> cases ht
  · have hl : s.log.state ≠ .append := by rw [((reqReady_iff s).mp hready).2]; decide
    exact .inl (startDriver_cursor (s := s.withLat l) fun hl' => absurd hl' hl)
  · exact .inl rfl
  · exact .inl rfl
  · exact .inl rfl
  · exact .inl rfl
  · exact continueOp_cursor s
  · exact .inl rfl

theorem runTurn_cursor {turn : Turn} {s t : State} (ht : runTurn turn s = .next t) :
    CursorMove s t ∨
      (t.log.cursor = 0 ∧ ((∃ c d, turn = .reset c d) ∨ ∃ c d l, turn = .powerCycle c d l)) := by
  cases turn with
  | request r =>
    rcases requestTurn_cases r s t ht with ⟨-, e⟩ | ⟨-, rfl⟩
    · exact .inl (exec_request_cursor (s := s.withLat r) e)
    · exact .inl (.inl rfl)
  | sequencer d =>
    rcases sequencerTurn_cases d s t ht with ⟨f, i, -, hdec, e⟩ | ⟨-, -, -, rfl⟩ | ⟨-, -, e⟩
    · obtain ⟨reaction, hexec, -⟩ := exec_frame_cases i (s.withBusIn d) (decodeFrame_isFrame _ _ _ hdec)
      cases hexec.symm.trans e
      exact .inl (.inl (congrArg LogUnit.cursor (exchange_frame i reaction (s.withBusIn d)).log))
    · exact .inl (.inl rfl)
    · exact .inl (exec_request_cursor (s := s.withBusIn d) e)
  | events e => exact .inl (.inl (congrArg LogUnit.cursor (arbSide_frame _ s t ht (.inr (.inr ⟨e, rfl⟩))).log))
  | done d => exact .inl (.inl (congrArg LogUnit.cursor (arbSide_frame _ s t ht (.inr (.inl ⟨d, rfl⟩))).log))
  | arbiter => exact .inl (.inl (congrArg LogUnit.cursor (arbSide_frame _ s t ht (.inl rfl)).log))
  | chip => cases ht; exact .inl (.inl rfl)
  | reset c d => cases ht; exact .inr ⟨rfl, .inl ⟨c, d, rfl⟩⟩
  | powerCycle c d l => cases ht; exact .inr ⟨rfl, .inr ⟨c, d, l, rfl⟩⟩

/-- Settles O40: only `endDriver` in an append, LOG's end of the fill, and a reset write the cursor. -/
theorem cursorMoves : Obligations.CursorMoves := by
  unfold Obligations.CursorMoves
  intro s t ht
  rcases runTurn_cursor (s := stepStart s (restAgenda s)) ht with (hkept | happend | hreset) | hzero
  · exact .inl hkept
  · exact .inr (.inl happend)
  · exact .inr (.inr (.inl hreset))
  · exact .inr (.inr (.inr hzero))

/-! ## The response port -/

/-- A response, if the step gives one, leaves the request port ready. -/
def RespondsReady (s t : State) : Prop := t.rsp = s.rsp ∨ reqReady t = true

theorem endDriver_responds (st : Status) (d : BitVec 64) (s : State) : RespondsReady s (endDriver st d s) := by
  by_cases hst : st = .ok
  · subst hst
    cases hl : s.log.state with
    | idle => rw [endDriver_alone _ _ _ hl]; exact .inr ((reqReady_iff _).mpr ⟨rfl, hl⟩)
    | hdr => rw [endDriver_hdr _ hl]; exact .inl rfl
    | fill => rw [endDriver_fill _ hl]; exact .inl rfl
    | append => rw [endDriver_append _ hl]; exact .inr rfl
    | read => rw [endDriver_read _ hl]; exact .inr rfl
    | tsread => rw [endDriver_tsread _ hl]; exact .inl rfl
  · rw [endDriver_fail hst]
    exact .inr rfl

theorem startDriver_responds (op : Instr) (s : State) : RespondsReady s (startDriver op s) := by
  rcases startDriver_cases op s with e | e | e | e | e <;> rw [e]
  · exact endDriver_responds _ _ _
  · exact endDriver_responds _ _ _
  all_goals exact .inl rfl

theorem continueOp_responds (s : State) : RespondsReady s (continueOp s) := by
  rcases continueOp_cases s with ⟨-, e⟩ | ⟨he, -, e⟩ | ⟨-, -, e⟩ <;> rw [e]
  · rcases driverStep_cases s with ⟨eec, bus, e⟩ | ⟨-, rx, -, e⟩ | ⟨st, eec, -, e⟩ <;> rw [e]
    · exact .inl rfl
    · exact endDriver_responds _ _ _
    · exact endDriver_responds st 0 (s.withEec eec)
  · rcases logStep_cases s with ⟨op, -, e⟩ | ⟨-, -, e⟩ | e | e <;> rw [e]
    · exact startDriver_responds op s
    · exact .inr ((reqReady_iff _).mpr ⟨he, rfl⟩)
    · exact .inr ((reqReady_iff _).mpr ⟨he, rfl⟩)
    · exact .inl rfl
  · exact .inl rfl

theorem exec_request_responds {r : Request} {s t : State} (ht : exec (decodeRequest r) s = .next t) :
    RespondsReady s t := by
  rcases exec_request_cases r s with
    ⟨hready, l, ⟨op, -, e⟩ | ⟨st, d, e⟩ | ⟨_, _, _, e⟩ | ⟨-, e⟩ | ⟨-, e⟩⟩ | ⟨-, e | e⟩ <;>
    rw [e] at ht <;> cases ht
  · exact startDriver_responds op (s.withLat l)
  · exact .inr hready
  · exact .inl rfl
  · exact .inl rfl
  · exact .inr hready
  · exact continueOp_responds s
  · exact .inl rfl

theorem runTurn_responds {turn : Turn} {s t : State} (ht : runTurn turn s = .next t) : RespondsReady s t := by
  cases turn with
  | request r =>
    rcases requestTurn_cases r s t ht with ⟨-, e⟩ | ⟨-, rfl⟩
    · exact exec_request_responds (s := s.withLat r) e
    · exact .inl rfl
  | sequencer d =>
    rcases sequencerTurn_cases d s t ht with ⟨f, i, -, hdec, e⟩ | ⟨-, -, -, rfl⟩ | ⟨-, -, e⟩
    · obtain ⟨reaction, hexec, -⟩ := exec_frame_cases i (s.withBusIn d) (decodeFrame_isFrame _ _ _ hdec)
      cases hexec.symm.trans e
      exact .inl (exchange_frame i reaction (s.withBusIn d)).rsp
    · exact .inl rfl
    · exact exec_request_responds (s := s.withBusIn d) e
  | events e => exact .inl (arbSide_frame _ s t ht (.inr (.inr ⟨e, rfl⟩))).rsp
  | done d => exact .inl (arbSide_frame _ s t ht (.inr (.inl ⟨d, rfl⟩))).rsp
  | arbiter => exact .inl (arbSide_frame _ s t ht (.inl rfl)).rsp
  | chip => cases ht; exact .inl rfl
  | reset c d | powerCycle c d l => cases ht; exact .inr rfl

/-- Settles O41: no response is valid at the start of a step, and the turns that give one end their operation. -/
theorem responseFreesPort : Obligations.ResponseFreesPort := by
  unfold Obligations.ResponseFreesPort
  intro s t ht hvalid
  refine (runTurn_responds (s := stepStart s (restAgenda s)) ht).resolve_left fun hrsp => ?_
  rw [hrsp] at hvalid
  contradiction

end Sys2Proof.Machine
end

section
/-! Operations run as a whole, on an idle chip and without faults: append, the last reading and a page write
(40_chip_driver.md section 2, 41_log_store.md section 2). -/

namespace Sys2Proof.Machine

/-! ## Acceptance, and the bytes after a burst -/

/-- The step of a request with the port ready: the operands are latched and the operation's first step runs. -/
theorem accept_step {s : State} {r : Request} {rest : List Turn} {op : OpCode} {latch : Request → Request}
    {first : State → State} (ha : s.agenda = .request r :: rest) (hdue : s.illegalDue = false)
    (hready : reqReady s = true)
    (hexec : ∀ u, exec (decodeRequest r) u = .next (requestStep op latch first u)) :
    step s = .next (first ((stepStart s rest).withLat { latch r with op := op })) := by
  rw [request_step s r rest ha hdue hready, hexec,
    requestStep_ready _ _ _ (s := (stepStart s rest).withLat r) hready]
  rfl

/-- `t` is `s` after a step that has accepted a request and latched it as `l`: only the units of the request port have
moved. -/
structure Accepted (s t : State) (l : Request) (rest : List Turn) : Prop where
  cfg        : t.cfg = s.cfg
  lat        : t.lat = l
  illegalDue : t.illegalDue = s.illegalDue
  arb        : t.arb = s.arb
  chip       : t.chip = s.chip
  bus        : t.bus = s.bus
  agenda     : t.agenda = rest

theorem withLog_accepted (s : State) (l : Request) (rest : List Turn) (g : LogUnit) :
    Accepted s (((stepStart s rest).withLat l).withLog g) l rest :=
  ⟨rfl, rfl, rfl, rfl, rfl, rfl, rfl⟩

/-- A burst inside one page, byte by byte: the sent byte at its address, every other byte as before (rule R92). -/
theorem byteAt_after_burst {c c' : Chip} {a : Addr} {data : List Byte} (hpage : data.length ≤ maxSize a)
    (hm : c'.mem = storePairs c.mem (writePairs a data)) (x : Addr) :
    c'.byteAt x = if a.toNat ≤ x.toNat ∧ x.toNat < a.toNat + data.length then data.getD (x.toNat - a.toNat) 0
      else c.byteAt x := by
  obtain ⟨hsent, hothers⟩ := bytes_after_write c a data (hpage.trans (maxSize_bounds a).2) hpage c' hm
  have hroom : a.toNat + data.length ≤ 512 := by
    have hlt := a.isLt
    simp only [maxSize, pageSize] at hpage
    omega
  have haddr : ∀ i, i < data.length → (a + BitVec.ofNat 9 i).toNat = a.toNat + i := fun i hi => by
    rw [BitVec.toNat_add, BitVec.toNat_ofNat]; omega
  split
  next hx =>
    have hi : x.toNat - a.toNat < data.length := by omega
    have hxa : a + BitVec.ofNat 9 (x.toNat - a.toNat) = x :=
      BitVec.eq_of_toNat_eq (by rw [haddr _ hi]; omega)
    have hbyte := hsent _ _ (List.getElem?_eq_getElem hi)
    rw [hxa] at hbyte
    rw [hbyte, List.getD_eq_getElem _ _ hi]
  next hx =>
    refine hothers x fun i hi hxa => hx ?_
    rw [hxa, haddr i hi]
    omega

/-! ## append_reading -/

theorem append_accept_step {s : State} {r : Request} {rest : List Turn} (ha : s.agenda = .request r :: rest)
    (hdue : s.illegalDue = false) (hready : reqReady s = true) (hop : r.op = 9)
    (hinit : headerSize ≤ s.log.cursor.toNat) (hroom : s.log.cursor.toNat < ceiling s.cfg) :
    ∃ t, step s = .next t ∧ Accepted s t { r with op := 9 } rest ∧ t.eec = s.eec ∧
      t.log = { s.log with state := .append } := by
  have hstep := accept_step (latch := fun l => { l with data := r.data }) ha hdue hready
    fun u => by rw [decodeRequest_eq_of_op hop]; rfl
  rw [startAppend_room (s := (stepStart s rest).withLat _) hinit hroom] at hstep
  exact ⟨_, hstep, withLog_accepted s _ rest _, rfl, rfl⟩

/-- Settles O58: the acceptance, then `sub_write_run` of a one-byte write at the cursor. -/
theorem appendRun : Obligations.AppendRun := by
  unfold Obligations.AppendRun
  intro s r rest ds h hready hdue hwip hop hinit hroom hlen hf ha
  obtain ⟨he, hlog⟩ := (reqReady_iff s).mp hready
  obtain ⟨t, hstart, hacc, hteec, htlog⟩ :=
    append_accept_step ha hdue hready hop ((initialised_iff _).mp hinit) hroom
  have hinv := step_inv h hstart
  have hphase : t.log.state = .append := by rw [htlog]
  have hte : t.eec.state = .idle := by rw [hteec, he]
  have htop : t.lat.op = 9 := by rw [hacc.lat]
  obtain ⟨v, u, w, h8, h9, hu, hvlog, -, -, -, -, hwlog, -, -, -, hwarb, -, hwagenda, hwwip, hwmem⟩ :=
    sub_write_run t ds rest _ _ [r.data] hinv.params_opcodes (hacc.illegalDue.trans hdue) hte
      (no_reply_of_idle hinv hte) (by simp [hphase]) (.inr htop) (dueOp_append hphase) (fun _ => rfl) rfl
      (by rw [hacc.lat]; rfl) rfl (by rw [hacc.chip, hwip]) hlen hf hacc.agenda
  have hcur : t.log.cursor = s.log.cursor := by rw [htlog]
  rw [endDriver_append 0 (by rw [hvlog, hphase]), hvlog, hcur] at hu
  rw [hcur, hacc.chip] at hwmem
  have hbytes := byteAt_after_burst (data := [r.data]) (maxSize_bounds (s.log.cursor.setWidth 9)).1 hwmem
  refine ⟨u, w, runSteps_append 1 8 (runSteps_one hstart) h8, runSteps_append 1 9 (runSteps_one hstart) h9,
    by rw [hu], by rw [hu], by rw [hu]; rfl, hwagenda, by rw [hwlog, hu], hwwip, hwarb.trans hacc.arb, ?slot,
    fun x hx => ?others⟩
  case slot =>
    rw [hbytes, if_pos ⟨Nat.le_refl _, Nat.lt_succ_self _⟩, Nat.sub_self]
    rfl
  case others =>
    refine (hbytes x).trans (if_neg fun ⟨hle, hlt⟩ => hx (BitVec.eq_of_toNat_eq ?_))
    exact Nat.le_antisymm (Nat.le_of_lt_succ hlt) hle

/-! ## read_last_reading -/

theorem readLast_accept_step {s : State} {r : Request} {rest : List Turn} (ha : s.agenda = .request r :: rest)
    (hdue : s.illegalDue = false) (hready : reqReady s = true) (hop : r.op = 11)
    (hcount : headerSize < s.log.cursor.toNat) :
    ∃ t, step s = .next t ∧ Accepted s t { r with op := 11 } rest ∧ t.eec = s.eec ∧
      t.log = { s.log with state := .read } := by
  have hstep := accept_step (latch := id) ha hdue hready fun u => by rw [decodeRequest_eq_of_op hop]; rfl
  rw [startReadLast_slot (s := (stepStart s rest).withLat _) hcount] at hstep
  exact ⟨_, hstep, withLog_accepted s _ rest _, rfl, rfl⟩

/-- Settles O59: the acceptance, then `sub_read_run` at the slot below the cursor. -/
theorem readLastRun : Obligations.ReadLastRun := by
  unfold Obligations.ReadLastRun
  intro s r rest ds h hready hdue hwip hop hcount hlen hf ha
  obtain ⟨he, hlog⟩ := (reqReady_iff s).mp hready
  obtain ⟨t, hstart, hacc, hteec, htlog⟩ := readLast_accept_step ha hdue hready hop hcount
  have hinv := step_inv h hstart
  have hphase : t.log.state = .read := by rw [htlog]
  have hte : t.eec.state = .idle := by rw [hteec, he]
  have htop : t.lat.op = 11 := by rw [hacc.lat]
  obtain ⟨v, w, h5, hw, hvlog, -, -, -, -, -, hwarb, -, hwagenda, -, hwmem⟩ :=
    sub_read_run t ds rest _ hinv.params_opcodes hte (no_reply_of_idle hinv hte) (by simp [hphase])
      (.inr (.inl htop)) (dueOp_read hphase) (by rw [hacc.chip, hwip]) hlen hf hacc.agenda
  have hcur : t.log.cursor = s.log.cursor := by rw [htlog]
  have hslot : slotAddress t = BitVec.ofNat 9 (s.log.cursor.toNat - 1) := by
    have hceil := ceiling_bounds s.cfg
    have hcursor := h.cursor_le
    apply BitVec.eq_of_toNat_eq
    rw [slotAddress_toNat_last htop (by rw [hcur]; omega) (by rw [hcur]; omega), hcur, BitVec.toNat_ofNat,
      Nat.mod_eq_of_lt (by omega)]
  rw [endDriver_read _ (by rw [hvlog, hphase]), hvlog, hacc.chip, hslot] at hw
  exact ⟨w, runSteps_append 1 5 (runSteps_one hstart) h5, hwagenda, by rw [hw]; rfl, hwarb.trans hacc.arb,
    by rw [hw]; exact hcur, hwmem.trans (by rw [hacc.chip]), by rw [hw]⟩

/-! ## write_page -/

theorem writePage_accept_step {s : State} {r : Request} {rest : List Turn} (ha : s.agenda = .request r :: rest)
    (hdue : s.illegalDue = false) (hready : reqReady s = true) (hop : r.op = 5) (hne : r.len ≠ 0)
    (hfits : r.len.toNat ≤ maxSize r.addr) :
    ∃ t, step s = .next t ∧ Accepted s t { r with op := 5 } rest ∧ t.eec.state = .poll ∧ t.log = s.log := by
  have hstep := accept_step (latch := fun l => { l with addr := r.addr, len := r.len, buf := r.buf }) ha hdue hready
    fun u => by rw [decodeRequest_eq_of_op hop]; rfl
  rw [startDriver_writePage_fits r.buf _ hfits hne] at hstep
  exact ⟨_, hstep, ⟨rfl, rfl, rfl, rfl, rfl, rfl, rfl⟩, rfl, rfl⟩

theorem length_take_pageBuf (buf : PageBuf) {n : Nat} (h : n ≤ 16) : (buf.toList.take n).length = n := by
  simpa using h

/-- Settles O60: the acceptance, the poll, the enable and the write, and the step that takes the write's reply. -/
theorem writePageRun : Obligations.WritePageRun := by
  unfold Obligations.WritePageRun
  intro s r rest ds h hready hdue hwip hop hne hfits hlen hf ha
  obtain ⟨he, hlog⟩ := (reqReady_iff s).mp hready
  have hpos : r.len.toNat ≠ 0 := fun h0 => hne (BitVec.eq_of_toNat_eq h0)
  have hlen16 : r.len.toNat ≤ 16 := hfits.trans (maxSize_bounds r.addr).2
  have hdata := length_take_pageBuf r.buf hlen16
  match ds, hlen with
  | [d0, d1, d2, d3, d4, d5, d6], _ =>
  obtain ⟨t, hstart, hacc, hteec, htlog⟩ := writePage_accept_step ha hdue hready hop hne hfits
  have hinv := step_inv h hstart
  have htop : RunningCode t.lat.op := by rw [hacc.lat]; simp [RunningCode]
  have htdue : dueOp t = some (.writePage r.addr r.len r.buf) := by
    rw [dueOp_latched (by rw [htlog, hlog]), hacc.lat]; rfl
  obtain ⟨p, hp, hpeec, hpreply, hplat, hplog, hparb, hpcfg, hpdue, hpagenda, hpwip, hpmem, -⟩ :=
    poll_run t hinv.params_opcodes d0 d1 _ _ hteec (by rw [hacc.bus, no_reply_of_idle h he]) htdue htop (hf d0 (by simp))
      (by rw [hacc.chip, hwip]) hacc.agenda
  obtain ⟨q, hq, hqeec, hqreply, hqlat, hqlog, hqarb, hqcfg, hqdue, hqagenda, hqwip, hqmem, hqpend⟩ :=
    write_run p (by rw [hpcfg]; exact hinv.params_opcodes) d2 d3 d4 d5 _ _ r.addr _ hpeec hpreply
      ((dueOp_congr hpcfg hplat hplog).trans htdue) (finalFrame_writePage _ _ _)
      ((writeFrameLengthOk_iff _).mpr (by rw [hdata]; omega)) (by rw [hplat]; exact htop)
      (hf d2 (by simp)) (hf d5 (by simp)) hpwip hpagenda
  have hqlog' : q.log = s.log := (hqlog.trans hplog).trans htlog
  have hqillegal : q.illegalDue = false := by rw [hqdue, hpdue, hacc.illegalDue, hdue]
  have htake := take_step q d6 _ [] hqagenda hqeec hqreply (by rw [hqlat, hplat]; exact htop)
  rw [endDriver_alone (s := (stepStart q _).withBusIn d6) _ _ (hqlog' ▸ hlog)] at htake
  have hrun := runSteps_append 1 7 (runSteps_one hstart)
    (runSteps_append 2 5 hp (runSteps_append 4 1 hq (runSteps_one htake)))
  refine ⟨_, _, hrun, runSteps_append 8 1 hrun (runSteps_one (chip_step _ rest rfl hqillegal)), rfl,
    (reqReady_iff _).mpr ⟨rfl, show q.log.state = .idle by rw [hqlog', hlog]⟩, rfl,
    congrArg LogUnit.cursor hqlog', complete_wip _, (hqarb.trans hparb).trans hacc.arb, ?_⟩
  obtain ⟨hsent, hothers⟩ := bytes_after_write s.chip r.addr (r.buf.toList.take r.len.toNat) (by rw [hdata]; exact hlen16)
    (by rw [hdata]; exact hfits) q.chip.complete
    (by rw [complete_busy hqwip, hqpend, hqmem, hpmem, hacc.chip])
  refine ⟨fun i hi hin => hsent i _ (getElem?_take_pageBuf r.buf hi hin), fun x hx => hothers x ?_⟩
  rwa [hdata]

end Sys2Proof.Machine
end

section
/-! The timestamp written and read back: `reset_log` and `read_header_timestamp` run as a whole
(41_log_store.md section 2). Between two sub-operations EEC is idle; each part of the run is a lemma from one such point
to the next. -/

namespace Sys2Proof.Machine

/-- The invariant holds after any number of steps. -/
theorem runSteps_inv {n : Nat} {s t : State} (h : MachineInv s) (ht : runSteps n s = .next t) : MachineInv t := by
  induction n generalizing s with
  | zero => cases ht; exact h
  | succ n ih =>
    simp only [runSteps] at ht
    split at ht
    next u hu => exact ih (step_inv h hu) ht
    next => cases ht
    next => cases ht

/-- `t` is a later point of the run of one LOG operation that stands at `s`, between two sub-operations, with the chip
idle and `rest` the turns to come. -/
structure BetweenSubOps (s t : State) (rest : List Turn) : Prop where
  inv    : MachineInv t
  eec    : t.eec.state = .idle
  wip    : t.chip.wip = false
  lat    : t.lat = s.lat
  cfg    : t.cfg = s.cfg
  arb    : t.arb = s.arb
  agenda : t.agenda = rest

theorem BetweenSubOps.trans {s t u : State} {rest rest' : List Turn} (h : BetweenSubOps s t rest)
    (k : BetweenSubOps t u rest') : BetweenSubOps s u rest' :=
  ⟨k.inv, k.eec, k.wip, k.lat.trans h.lat, k.cfg.trans h.cfg, k.arb.trans h.arb, k.agenda⟩

/-- The turns of one write: eight of the sequencer and the chip's completion. -/
def writeTurns (w : List BusDraw) : List Turn := w.map Turn.sequencer ++ [.chip]

/-- The draws of one write or of a run of reads, with no fault among them. -/
def Quiet (n : Nat) (w : List BusDraw) : Prop := w.length = n ∧ ∀ d ∈ w, d.fault = false

/-! ## reset_log -/

theorem resetLog_accept_step {s : State} {r : Request} {rest : List Turn} (ha : s.agenda = .request r :: rest)
    (hdue : s.illegalDue = false) (hready : reqReady s = true) (hop : r.op = 8) :
    ∃ t, step s = .next t ∧ Accepted s t { r with op := 8 } rest ∧ t.eec = s.eec ∧
      t.log = { s.log with state := .hdr } := by
  have hstep := accept_step (latch := fun l => { l with ts := r.ts }) ha hdue hready
    fun u => by rw [decodeRequest_eq_of_op hop]; rfl
  exact ⟨_, hstep, withLog_accepted s _ rest _, rfl, rfl⟩

/-- A page write of `reset_log` with the chip's completion: LOG has taken its end, and the bytes are the sent ones. -/
theorem log_write_run {s : State} {w : List BusDraw} {rest : List Turn} {a : Addr} {len : BitVec 5} {buf : PageBuf}
    (h : MachineInv s) (he : s.eec.state = .idle) (hl : s.log.state ≠ .idle) (hop : s.lat.op = 8)
    (hwip : s.chip.wip = false) (hdue : dueOp s = some (.writePage a len buf)) (hpos : 1 ≤ len.toNat)
    (hpage : len.toNat ≤ maxSize a) (hw : Quiet 8 w) (ha : s.agenda = writeTurns w ++ rest) :
    ∃ v t, runSteps 9 s = .next t ∧ BetweenSubOps s t rest ∧ t.log = (endDriver .ok 0 v).log ∧ v.log = s.log ∧
      v.cfg = s.cfg ∧ ∀ x, t.chip.byteAt x =
        if a.toNat ≤ x.toNat ∧ x.toNat < a.toNat + len.toNat then
          (buf.toList.take len.toNat).getD (x.toNat - a.toNat) 0
        else s.chip.byteAt x := by
  have hlen16 : len.toNat ≤ 16 := hpage.trans (maxSize_bounds a).2
  have hdata := length_take_pageBuf buf hlen16
  have hbusy : reqReady s = false := Bool.eq_false_iff.mpr fun hr => hl ((reqReady_iff s).mp hr).2
  obtain ⟨v, u, t, -, h9, hu, hvlog, hvcfg, hteec, -, -, htlog, -, htlat, htcfg, htarb, -, htagenda, htwip, htmem⟩ :=
    sub_write_run s w rest _ a _ h.params_opcodes (h.not_due_of_busy hbusy) he (no_reply_of_idle h he) hl (.inl hop) hdue
      (h.sub_polls hl hdue) rfl (finalFrame_writePage a len buf) ((writeFrameLengthOk_iff _).mpr (by omega)) hwip hw.1 hw.2
      (by rw [ha, writeTurns, List.append_assoc]; rfl)
  refine ⟨v, t, h9, ⟨runSteps_inv h h9, hteec, htwip, htlat, htcfg, htarb, htagenda⟩, by rw [htlog, hu], hvlog, hvcfg,
    fun x => ?_⟩
  rw [byteAt_after_burst (by rw [hdata]; exact hpage) htmem, hdata]

/-- The bursts that a fill from `x` still needs (rule R183). -/
def burstsLeft (c : Params) (x : BitVec 10) : Nat :=
  if x.toNat < ceiling c then (ceiling c + 15) / 16 - x.toNat / 16 else 0

theorem burstsLeft_next {c : Params} {x : BitVec 10} (h : x.toNat < ceiling c) :
    burstsLeft c x = burstsLeft c (fillNext c x) + 1 := by
  simp only [burstsLeft, fillNext_toNat (Nat.le_of_lt h)]
  split_ifs <;> omega

theorem getD_take_zeroBuf (n i : Nat) : (zeroBuf.toList.take n).getD i 0 = 0 := by
  rw [show zeroBuf.toList = List.replicate 16 0 from rfl, List.take_replicate, List.getD_eq_getElem?_getD,
    List.getElem?_replicate]
  split <;> rfl

/-- One burst of the fill, from a fill address below the ceiling. -/
theorem fill_burst_run {s : State} {w : List BusDraw} {rest : List Turn} (h : MachineInv s) (he : s.eec.state = .idle)
    (hl : s.log.state = .fill) (hop : s.lat.op = 8) (hwip : s.chip.wip = false)
    (hx : s.log.fillAddr.toNat < ceiling s.cfg) (hw : Quiet 8 w) (ha : s.agenda = writeTurns w ++ rest) :
    ∃ t, runSteps 9 s = .next t ∧ BetweenSubOps s t rest ∧
      t.log = { s.log with fillAddr := fillNext s.cfg s.log.fillAddr } ∧
      ∀ x, t.chip.byteAt x =
        if s.log.fillAddr.toNat ≤ x.toNat ∧ x.toNat < (fillNext s.cfg s.log.fillAddr).toNat then 0
        else s.chip.byteAt x := by
  obtain ⟨hpos, h16, hfits, -⟩ := fillBurst_facts hx
  have hceil := (ceiling_bounds s.cfg).2
  have haddr : (s.log.fillAddr.setWidth 9).toNat = s.log.fillAddr.toNat := by
    rw [BitVec.toNat_setWidth]; omega
  have hlen : (BitVec.ofNat 5 (fillBurst s.cfg s.log.fillAddr)).toNat = fillBurst s.cfg s.log.fillAddr := by
    rw [BitVec.toNat_ofNat]; omega
  have hnext : (fillNext s.cfg s.log.fillAddr).toNat = s.log.fillAddr.toNat + fillBurst s.cfg s.log.fillAddr := by
    rw [fillNext_toNat hx.le, fillBurst_eq]; omega
  obtain ⟨v, t, hrun, hbetween, htlog, hvlog, hvcfg, hbytes⟩ :=
    log_write_run h he (by simp [hl]) hop hwip (dueOp_fill hl hx) (by rw [hlen]; exact hpos)
      (by rw [hlen, maxSize, haddr]; exact hfits) hw ha
  rw [endDriver_fill 0 (by rw [hvlog, hl]), hvlog, hvcfg] at htlog
  refine ⟨t, hrun, hbetween, htlog, fun x => ?_⟩
  rw [hbytes, haddr, hlen, hnext, getD_take_zeroBuf]

/-- The whole fill: by induction on its bursts, every byte from the fill address to the ceiling becomes zero. -/
theorem fill_run (ws : List (List BusDraw)) {s : State} {rest : List Turn} (h : MachineInv s) (he : s.eec.state = .idle)
    (hl : s.log.state = .fill) (hop : s.lat.op = 8) (hwip : s.chip.wip = false)
    (hws : ws.length = burstsLeft s.cfg s.log.fillAddr) (hquiet : ∀ w ∈ ws, Quiet 8 w)
    (ha : s.agenda = (ws.map writeTurns).flatten ++ rest) :
    ∃ t, runSteps (9 * ws.length) s = .next t ∧ BetweenSubOps s t rest ∧ t.log.state = .fill ∧
      ceiling s.cfg ≤ t.log.fillAddr.toNat ∧
      ∀ x, t.chip.byteAt x =
        if s.log.fillAddr.toNat ≤ x.toNat ∧ x.toNat < ceiling s.cfg then 0 else s.chip.byteAt x := by
  induction ws generalizing s with
  | nil =>
    have hdone : ceiling s.cfg ≤ s.log.fillAddr.toNat := by
      by_contra hlt
      rw [burstsLeft_next (by omega), List.length_nil] at hws
      omega
    exact ⟨s, rfl, ⟨h, he, hwip, rfl, rfl, rfl, ha⟩, hl, hdone, fun x => (if_neg (by omega)).symm⟩
  | cons w ws ih =>
    have hx : s.log.fillAddr.toNat < ceiling s.cfg := by
      by_contra hge
      rw [burstsLeft, if_neg hge] at hws
      cases hws
    rw [burstsLeft_next hx] at hws
    obtain ⟨t, ht, hst, htlog, htbytes⟩ := fill_burst_run h he hl hop hwip hx (hquiet w (by simp))
      (rest := (ws.map writeTurns).flatten ++ rest) (by simpa using ha)
    obtain ⟨u, hu, htu, hul, hufill, hubytes⟩ := ih hst.inv hst.eec (by rw [htlog, hl]) (by rw [hst.lat, hop]) hst.wip
      (by rw [hst.cfg, htlog]; simpa using hws) (fun w' hw' => hquiet w' (by simp [hw'])) hst.agenda
    rw [hst.cfg] at hufill hubytes
    have hnext := fillNext_toNat hx.le
    have hrun := runSteps_append 9 (9 * ws.length) ht hu
    refine ⟨u, by rwa [List.length_cons, Nat.mul_succ, Nat.add_comm], hst.trans htu, hul, hufill, fun x => ?_⟩
    have hfill : t.log.fillAddr = fillNext s.cfg s.log.fillAddr := by rw [htlog]
    rw [hubytes, htbytes, hfill]
    by_cases hburst : s.log.fillAddr.toNat ≤ x.toNat ∧ x.toNat < (fillNext s.cfg s.log.fillAddr).toNat
    · rw [if_pos hburst, ite_self, if_pos (by omega)]
    · rw [if_neg hburst]
      exact if_congr (by omega) rfl rfl

/-- The step that ends a LOG operation which has no sub-operation left. -/
theorem log_end_step {s : State} {d : BusDraw} {rest : List Turn} (he : s.eec.state = .idle)
    (hl : s.log.state ≠ .idle) (hop : RunningCode s.lat.op) (ha : s.agenda = .sequencer d :: rest) :
    step s = .next (logStep ((stepStart s rest).withBusIn d)) := by
  rw [operation_step s d rest ha (dueFrame_of_idle he) (not_reqReady_of_log hl) hop,
    continueOp_log (s := (stepStart s rest).withBusIn d) he hl]

theorem getD_take_le64Buf (ts : BitVec 64) {k : Nat} (hk : k < 8) :
    ((le64Buf ts).toList.take 8).getD k 0 = ts.extractLsb' (8 * k) 8 := by
  rw [List.getD_eq_getElem?_getD, getElem?_take_pageBuf _ (by omega) hk, getElem_le64Buf ts _ hk]
  rfl

/-- The header write: `LE64(ts)` at address 0, and LOG enters the fill at the first slot. -/
theorem header_write_run {s : State} {w : List BusDraw} {rest : List Turn} (h : MachineInv s)
    (he : s.eec.state = .idle) (hl : s.log.state = .hdr) (hop : s.lat.op = 8) (hwip : s.chip.wip = false)
    (hw : Quiet 8 w) (ha : s.agenda = writeTurns w ++ rest) :
    ∃ t, runSteps 9 s = .next t ∧ BetweenSubOps s t rest ∧ t.log = { s.log with state := .fill, fillAddr := 8 } ∧
      ∀ x, t.chip.byteAt x =
        if x.toNat < 8 then s.lat.ts.extractLsb' (8 * x.toNat) 8 else s.chip.byteAt x := by
  obtain ⟨v, t, hrun, hbetween, htlog, hvlog, -, hbytes⟩ :=
    log_write_run h he (by simp [hl]) hop hwip (dueOp_hdr hl) (by decide) (by decide) hw ha
  rw [endDriver_hdr 0 (by rw [hvlog, hl]), hvlog] at htlog
  refine ⟨t, hrun, hbetween, htlog, fun x => (hbytes x).trans ?_⟩
  by_cases hx : x.toNat < 8
  · rw [if_pos hx, ← getD_take_le64Buf _ hx]
    exact if_pos ⟨Nat.zero_le _, hx⟩
  · rw [if_neg hx]
    exact if_neg fun hin => hx (by simpa using hin.2)

/-- `reset_log` on a quiet bus: the header write, the fill and the last step. -/
theorem resetLog_run {s : State} {r : Request} {rest : List Turn} {w : List BusDraw} {ws : List (List BusDraw)}
    {last : BusDraw} (h : MachineInv s) (hready : reqReady s = true) (hdue : s.illegalDue = false)
    (hwip : s.chip.wip = false) (hop : r.op = 8) (hlen : ws.length = (ceiling s.cfg + 15) / 16) (hw : Quiet 8 w)
    (hquiet : ∀ w ∈ ws, Quiet 8 w)
    (ha : s.agenda = .request r :: (writeTurns w ++ ((ws.map writeTurns).flatten ++ .sequencer last :: rest))) :
    ∃ t, runSteps (1 + (9 + (9 * ws.length + 1))) s = .next t ∧
      t.rsp = { valid := true, status := 0, data := 0 } ∧ reqReady t = true ∧ t.log.cursor = 8 ∧
      t.agenda = rest ∧ t.arb = s.arb ∧ t.chip.wip = false ∧
      ∀ x : Addr, t.chip.byteAt x =
        if x.toNat < 8 then r.ts.extractLsb' (8 * x.toNat) 8
        else if x.toNat < ceiling s.cfg then 0 else s.chip.byteAt x := by
  obtain ⟨he, -⟩ := (reqReady_iff s).mp hready
  obtain ⟨t, hstart, hacc, hteec, htlog⟩ := resetLog_accept_step ha hdue hready hop
  obtain ⟨u, hhdr, htu, hulog, hubytes⟩ := header_write_run (step_inv h hstart) (by rw [hteec, he])
    (by rw [htlog]) (by rw [hacc.lat]) (by rw [hacc.chip, hwip]) hw hacc.agenda
  have hfirst : u.log.fillAddr.toNat = 8 := by rw [hulog]; rfl
  have hucfg : u.cfg = s.cfg := htu.cfg.trans hacc.cfg
  have hceil := ceiling_bounds s.cfg
  obtain ⟨q, hfill, huq, hqphase, hqend, hqbytes⟩ := fill_run ws htu.inv htu.eec (by rw [hulog])
    (by rw [htu.lat, hacc.lat]) htu.wip (by rw [hlen, hucfg, burstsLeft, hfirst, if_pos (by omega)]; rfl)
    hquiet htu.agenda
  have htq := htu.trans huq
  have hlast := log_end_step huq.eec (by simp [hqphase]) (by rw [htq.lat, hacc.lat]; simp [RunningCode]) huq.agenda
  rw [logStep_fill_end (s := (stepStart q rest).withBusIn last) hqphase
    (dueOp_fill_end hqphase (by rw [← huq.cfg] at hqend; exact hqend))] at hlast
  refine ⟨_, runSteps_append 1 _ (runSteps_one hstart) (runSteps_append 9 _ hhdr
      (runSteps_append _ 1 hfill (runSteps_one hlast))), rfl, (reqReady_iff _).mpr ⟨huq.eec, rfl⟩, rfl, rfl,
    htq.arb.trans hacc.arb, huq.wip, fun x => (hqbytes x).trans ?_⟩
  rw [hfirst, hucfg, hubytes, hacc.chip, hacc.lat]
  by_cases hx : x.toNat < 8
  · rw [if_neg (by omega), if_pos hx, if_pos hx]
  · rw [if_neg hx, if_neg hx]
    exact if_congr (by omega) rfl rfl

/-! ## read_header_timestamp -/

theorem byteAt_of_mem_eq {c c' : Chip} (h : c'.mem = c.mem) (x : Addr) : c'.byteAt x = c.byteAt x := by
  rw [Chip.byteAt, h, Chip.byteAt]

theorem readHeader_accept_step {s : State} {r : Request} {rest : List Turn} (ha : s.agenda = .request r :: rest)
    (hdue : s.illegalDue = false) (hready : reqReady s = true) (hop : r.op = 12)
    (hinit : headerSize ≤ s.log.cursor.toNat) :
    ∃ t, step s = .next t ∧ Accepted s t { r with op := 12 } rest ∧ t.eec = s.eec ∧
      t.log = { s.log with state := .tsread, tsK := 0, tsAcc := 0 } := by
  have hstep := accept_step (latch := id) ha hdue hready fun u => by rw [decodeRequest_eq_of_op hop]; rfl
  rw [startReadHeader_initialised (s := (stepStart s rest).withLat _) hinit] at hstep
  exact ⟨_, hstep, withLog_accepted s _ rest _, rfl, rfl⟩

/-- One byte read of the header: the byte at `tsK` goes to its place in the accumulator. -/
theorem tsread_byte_run {s : State} {ds : List BusDraw} {rest : List Turn} (h : MachineInv s)
    (he : s.eec.state = .idle) (hl : s.log.state = .tsread) (hop : s.lat.op = 12) (hwip : s.chip.wip = false)
    (hk : s.log.tsK.toNat < 8) (hq : Quiet 5 ds) (ha : s.agenda = ds.map .sequencer ++ rest) :
    ∃ t, runSteps 5 s = .next t ∧ BetweenSubOps s t rest ∧ t.chip.mem = s.chip.mem ∧
      t.log = { s.log with
        tsAcc := insertTimestampByte s.log.tsAcc s.log.tsK.toNat (s.chip.byteAt (s.log.tsK.setWidth 9))
        tsK := s.log.tsK + 1 } := by
  obtain ⟨v, t, hrun, ht, hvlog, hteec, -, -, htlat, htcfg, htarb, -, htagenda, htwip, htmem⟩ :=
    sub_read_run s ds rest _ h.params_opcodes he (no_reply_of_idle h he) (by simp [hl]) (.inr (.inr hop))
      (dueOp_tsread hl hk) hwip hq.1 hq.2 ha
  rw [endDriver_tsread _ (by rw [hvlog, hl]), hvlog] at ht
  refine ⟨t, hrun, ⟨runSteps_inv h hrun, hteec, htwip, htlat, htcfg, htarb, htagenda⟩, htmem, ?_⟩
  rw [ht, BitVec.setWidth_setWidth_of_le _ (by decide), BitVec.setWidth_eq]

/-- The bytes that are left, `n` of them: by induction, each from `tsK` on reaches its place and the others stay. -/
theorem tsread_run (n : Nat) {s : State} {ds : List BusDraw} {rest : List Turn} (h : MachineInv s)
    (he : s.eec.state = .idle) (hl : s.log.state = .tsread) (hop : s.lat.op = 12) (hwip : s.chip.wip = false)
    (hk : s.log.tsK.toNat + n = 8) (hq : Quiet (5 * n) ds) (ha : s.agenda = ds.map .sequencer ++ rest) :
    ∃ t, runSteps (5 * n) s = .next t ∧ BetweenSubOps s t rest ∧ t.chip.mem = s.chip.mem ∧ t.log.state = .tsread ∧
      t.log.cursor = s.log.cursor ∧ t.log.tsK.toNat = 8 ∧
      ∀ j, j < 8 → t.log.tsAcc.extractLsb' (8 * j) 8 =
        if s.log.tsK.toNat ≤ j then s.chip.byteAt (BitVec.ofNat 9 j) else s.log.tsAcc.extractLsb' (8 * j) 8 := by
  induction n generalizing s ds with
  | zero =>
    obtain rfl := List.eq_nil_of_length_eq_zero hq.1
    exact ⟨s, rfl, ⟨h, he, hwip, rfl, rfl, rfl, ha⟩, rfl, hl, rfl, hk, fun j hj => (if_neg (by omega)).symm⟩
  | succ n ih =>
    have hlt : s.log.tsK.toNat < 8 := by omega
    have hsplit := List.take_append_drop 5 ds
    obtain ⟨t, ht, hst, htmem, htlog⟩ := tsread_byte_run h he hl hop hwip hlt (ds := ds.take 5)
      (rest := (ds.drop 5).map .sequencer ++ rest)
      ⟨by rw [List.length_take, hq.1]; omega, fun d hd => hq.2 d (List.mem_of_mem_take hd)⟩
      (by rw [ha, ← List.append_assoc, ← List.map_append, hsplit])
    have htk : t.log.tsK.toNat = s.log.tsK.toNat + 1 := by
      rw [htlog]
      exact (BitVec.toNat_add _ _).trans (Nat.mod_eq_of_lt (by change s.log.tsK.toNat + 1 < _; omega))
    obtain ⟨u, hu, htu, humem, hul, hucursor, huk, hubytes⟩ := ih hst.inv hst.eec (by rw [htlog, hl])
      (by rw [hst.lat, hop]) hst.wip (by omega) (ds := ds.drop 5)
      ⟨by rw [List.length_drop, hq.1]; omega, fun d hd => hq.2 d (List.mem_of_mem_drop hd)⟩ hst.agenda
    have hrun := runSteps_append 5 (5 * n) ht hu
    refine ⟨u, by rwa [Nat.mul_succ, Nat.add_comm], hst.trans htu, humem.trans htmem, hul,
      hucursor.trans (by rw [htlog]), huk, fun j hj => ?_⟩
    have hacc : t.log.tsAcc.extractLsb' (8 * j) 8 =
        if j = s.log.tsK.toNat then s.chip.byteAt (BitVec.ofNat 9 j) else s.log.tsAcc.extractLsb' (8 * j) 8 := by
      rw [htlog]
      refine (insertTimestampByte_byte _ _ j hlt hj _).trans (ite_congr rfl (fun hjk => ?_) fun _ => rfl)
      rw [hjk, BitVec.ofNat_toNat]
    rw [hubytes j hj, htk, hacc, byteAt_of_mem_eq htmem]
    by_cases hjk : j = s.log.tsK.toNat
    · rw [if_neg (by omega), if_pos hjk, if_pos hjk.ge]
    · rw [if_neg hjk]
      exact if_congr (by omega) rfl rfl

/-- A 64-bit word is its eight bytes. -/
theorem eq_of_bytes_eq {a b : BitVec 64} (h : ∀ j, j < 8 → a.extractLsb' (8 * j) 8 = b.extractLsb' (8 * j) 8) : a = b := by
  apply BitVec.eq_of_getLsbD_eq
  intro i hi
  have hbit := congrArg (fun x => x.getLsbD (i % 8)) (h (i / 8) (by omega))
  simpa [BitVec.getLsbD_extractLsb', Nat.mod_lt, Nat.div_add_mod] using hbit

/-- `read_header_timestamp` on a quiet bus: eight byte reads and the last step. -/
theorem readHeader_run {s : State} {r : Request} {rest : List Turn} {ds : List BusDraw} {last : BusDraw} {ts : BitVec 64}
    (h : MachineInv s) (hready : reqReady s = true) (hdue : s.illegalDue = false) (hwip : s.chip.wip = false)
    (hop : r.op = 12) (hinit : headerSize ≤ s.log.cursor.toNat) (hq : Quiet 40 ds)
    (ha : s.agenda = .request r :: (ds.map .sequencer ++ .sequencer last :: rest))
    (hts : ∀ k, k < 8 → s.chip.byteAt (BitVec.ofNat 9 k) = ts.extractLsb' (8 * k) 8) :
    ∃ t, runSteps 42 s = .next t ∧ t.rsp = { valid := true, status := 0, data := ts } ∧ reqReady t = true ∧
      t.agenda = rest ∧ t.log.cursor = s.log.cursor ∧ t.chip.mem = s.chip.mem ∧ t.arb = s.arb := by
  obtain ⟨he, -⟩ := (reqReady_iff s).mp hready
  obtain ⟨t, hstart, hacc, hteec, htlog⟩ := readHeader_accept_step ha hdue hready hop hinit
  have hk : t.log.tsK.toNat = 0 := by rw [htlog]; rfl
  obtain ⟨u, hread, htu, humem, huphase, hucursor, huk, hubytes⟩ := tsread_run 8 (step_inv h hstart) (by rw [hteec, he])
    (by rw [htlog]) (by rw [hacc.lat]) (by rw [hacc.chip, hwip]) (by rw [hk]) hq hacc.agenda
  have htsAcc : u.log.tsAcc = ts := eq_of_bytes_eq fun j hj => by
    rw [hubytes j hj, hk, if_pos (Nat.zero_le j), hacc.chip, hts j hj]
  have hlast := log_end_step htu.eec (by simp [huphase]) (by rw [htu.lat, hacc.lat]; simp [RunningCode]) htu.agenda
  rw [logStep_tsread_end (s := (stepStart u rest).withBusIn last) huphase (dueOp_tsread_end huphase huk.ge)] at hlast
  exact ⟨_, runSteps_append 1 41 (runSteps_one hstart) (runSteps_append 40 1 hread (runSteps_one hlast)),
    by rw [← htsAcc]; rfl, (reqReady_iff _).mpr ⟨htu.eec, rfl⟩, rfl, hucursor.trans (by rw [htlog]),
    humem.trans (by rw [hacc.chip]), htu.arb.trans hacc.arb⟩

/-! ## The two together -/

/-- Put in from the lowest, the first `n` bytes of `LE64(t)` take their places and leave the others. -/
theorem foldl_insertTimestampByte_byte (t acc : BitVec 64) {n : Nat} (hn : n ≤ 8) {j : Nat} (hj : j < 8) :
    ((List.range n).foldl (fun x k => insertTimestampByte x k ((le64Buf t).toList.getD k 0)) acc).extractLsb' (8 * j) 8 =
      if j < n then t.extractLsb' (8 * j) 8 else acc.extractLsb' (8 * j) 8 := by
  induction n with
  | zero => rfl
  | succ n ih =>
    rw [List.range_succ, List.foldl_append, List.foldl_cons, List.foldl_nil,
      insertTimestampByte_byte _ n j (by omega) hj, ih (by omega)]
    by_cases hjn : j = n
    · rw [if_pos hjn, if_pos (by omega), hjn, List.getD_eq_getElem _ _ (by simp; omega), Vector.getElem_toList,
        getElem_le64Buf t _ (by omega)]
    · rw [if_neg hjn]
      exact if_congr (by omega) rfl rfl

/-- Settles O38: `resetLog_run`, `readHeader_run`, and the eight bytes put in one after the other. -/
theorem timestampRoundTrip : Obligations.TimestampRoundTrip := by
  unfold Obligations.TimestampRoundTrip
  refine ⟨?write, ?read, fun t acc => eq_of_bytes_eq fun j hj => ?bytes⟩
  case write =>
    intro s r rest ws last h hready hdue hwip hop hlen hquiet ha
    cases ws with
    | nil => simp at hlen; omega
    | cons w ws =>
      obtain ⟨t, hrun, ht⟩ := resetLog_run h hready hdue hwip hop (w := w) (ws := ws)
        (Nat.add_right_cancel (by rw [List.length_cons] at hlen; rw [hlen, Nat.add_comm, ceiling_eq]))
        (hquiet w (by simp)) (fun w' hw' => hquiet w' (by simp [hw']))
        (by rw [ha, List.map_cons, List.flatten_cons, List.append_assoc]; rfl)
      refine ⟨t, ?_, ht⟩
      rw [← hrun, List.length_cons]
      congr 1
      omega
  case read =>
    intro s r rest ds ts h hready hdue hwip hop hinit hlen hquiet ha hts
    obtain rfl | ⟨ds, last, rfl⟩ := ds.eq_nil_or_concat'
    · cases hlen
    · exact readHeader_run h hready hdue hwip hop hinit (ds := ds) (last := last)
        ⟨by simpa using hlen, fun d hd => hquiet d (by simp [hd])⟩ (by simpa using ha) hts
  case bytes => rw [foldl_insertTimestampByte_byte t acc (Nat.le_refl 8) hj, if_pos hj]

end Sys2Proof.Machine
end

section
/-! A wake of the arbiter as a whole: six turns drain the mask, and in a fair run a signalled wake is taken and every
dispatch ends (42_scheduler.md sections 1 and 3). -/

namespace Sys2Proof.Machine

/-! ## The registers of a dispatch -/

/-- The ARB registers without the worker handles and the pump's kind: what a dispatch carries from one of its steps to
the next. -/
def dispatchRegs (s : State) : ArbUnit :=
  { s.arb with liveSensor := false, livePump := false, liveHistory := false, pumpKind := .auto }

@[simp] theorem dispatchRegs_gotoArb (next : ArbState) (s : State) :
    dispatchRegs (gotoArb next s) = { dispatchRegs s with state := next } := rfl

@[simp] theorem dispatchRegs_clearBits (bits : Mask) (s : State) :
    dispatchRegs (clearBits bits s) = { dispatchRegs s with mask := maskClear s.arb.mask bits } := rfl

@[simp] theorem dispatchRegs_startSensor (k : Kind) (s : State) : dispatchRegs (startSensor k s) = dispatchRegs s := by
  unfold startSensor; split <;> rfl

@[simp] theorem dispatchRegs_startPump (k : Kind) (d : Byte) (s : State) :
    dispatchRegs (startPump k d s) = dispatchRegs s := by
  unfold startPump; split <;> rfl

@[simp] theorem dispatchRegs_startHistory (s : State) : dispatchRegs (startHistory s) = dispatchRegs s := by
  unfold startHistory; split <;> rfl

@[simp] theorem dispatchRegs_cancelAutoPump (s : State) : dispatchRegs (cancelAutoPump s) = dispatchRegs s := by
  unfold cancelAutoPump; split <;> rfl

/-- Clearing bits that are not pending changes nothing. -/
theorem maskClear_of_clear {m bits : Mask} (h : ∀ k, k < 6 → bits.getLsbD k = true → m.getLsbD k = false) :
    maskClear m bits = m := by
  apply BitVec.eq_of_getLsbD_eq
  intro k hk
  rw [maskClear_getLsbD]
  cases hbit : bits.getLsbD k with
  | false => simp
  | true => simp [h k hk hbit]

theorem maskClear_single {m bits : Mask} {b : Nat} (hbits : ∀ k, k < 6 → bits.getLsbD k = true → k = b)
    (h : m.getLsbD b = false) : maskClear m bits = m :=
  maskClear_of_clear fun k hk hset => hbits k hk hset ▸ h

/-! ## One turn of the arbiter in each state of a wake -/

theorem arbiterTurn_exec {s : State} {i : Instr} (h : decodeArbiter s.arb.state s.arb.wakePending = i) :
    runTurn .arbiter s = exec i s := by
  rw [← h]; rfl

/-- The turn of the arbiter with the next registers of its dispatch. -/
def ArbTurn (s : State) (regs : ArbUnit) : Prop := ∃ t, runTurn .arbiter s = .next t ∧ dispatchRegs t = regs

theorem wake_turn {s : State} (hs : s.arb.state = .idle) (hwake : s.arb.wakePending = true) :
    ArbTurn s { dispatchRegs s with wakePending := false, state := .dSample } :=
  ⟨_, (arbiterTurn_exec (i := .wake) (by rw [hs, hwake]; rfl)).trans ((wakes s hs).1 hwake), rfl⟩

theorem dSample_turn {s : State} (hs : s.arb.state = .dSample) :
    ArbTurn s { dispatchRegs s with
      mask := maskClear s.arb.mask (sampleClear s.cfg.sampleCollapse s.arb.mask), state := .dAutoen } := by
  have hturn := arbiterTurn_exec (s := s) (i := .dSample) (by rw [hs]; rfl)
  by_cases hpending : s.arb.mask.getLsbD 0 = true ∨ s.arb.mask.getLsbD 1 = true
  · exact ⟨_, hturn.trans (exec_dSample_pending hs hpending), by simp⟩
  · simp only [not_or, Bool.not_eq_true] at hpending
    obtain ⟨h0, h1⟩ := hpending
    refine ⟨_, hturn.trans (exec_dSample_quiet hs h0 h1), ?_⟩
    rw [maskClear_of_clear fun k hk hbit => ?unset]
    · rfl
    case unset =>
      obtain rfl | rfl : k = 0 ∨ k = 1 := by have := sampleClear_getLsbD _ _ k hk hbit; omega
      · exact h0
      · exact h1

theorem dAutoen_turn {s : State} (hs : s.arb.state = .dAutoen) :
    ArbTurn s { dispatchRegs s with
      mask := maskClear s.arb.mask setAutoEnBit, state := .dAutowater
      autoWaterEnabled := if s.arb.mask.getLsbD 4 then s.arb.autoReq else s.arb.autoWaterEnabled } := by
  have hturn := arbiterTurn_exec (s := s) (i := .dAutoen) (by rw [hs]; rfl)
  cases hbit : s.arb.mask.getLsbD 4 with
  | true => exact ⟨_, hturn.trans (exec_dAutoen_pending hs hbit), rfl⟩
  | false => exact ⟨_, hturn.trans (exec_dAutoen_quiet hs hbit), by rw [maskClear_single (by decide) hbit]; rfl⟩

theorem dAutowater_turn {s : State} (hs : s.arb.state = .dAutowater) :
    ArbTurn s { dispatchRegs s with mask := maskClear s.arb.mask autoWaterBit, state := .dManwater } := by
  have hturn := arbiterTurn_exec (s := s) (i := .dAutowater) (by rw [hs]; rfl)
  cases hbit : s.arb.mask.getLsbD 2 with
  | true =>
    cases hen : s.arb.autoWaterEnabled with
    | true => exact ⟨_, hturn.trans (exec_dAutowater_enabled hs hbit hen), by simp⟩
    | false => exact ⟨_, hturn.trans (exec_dAutowater_disabled hs hbit hen), rfl⟩
  | false => exact ⟨_, hturn.trans (exec_dAutowater_quiet hs hbit), by rw [maskClear_single (by decide) hbit]; rfl⟩

theorem dManwater_turn {s : State} (hs : s.arb.state = .dManwater) :
    ArbTurn s { dispatchRegs s with mask := maskClear s.arb.mask manualWaterBit, state := .dHistory } := by
  have hturn := arbiterTurn_exec (s := s) (i := .dManwater) (by rw [hs]; rfl)
  cases hbit : s.arb.mask.getLsbD 3 with
  | true => exact ⟨_, hturn.trans (exec_dManwater_pending hs hbit), by simp⟩
  | false => exact ⟨_, hturn.trans (exec_dManwater_quiet hs hbit), by rw [maskClear_single (by decide) hbit]; rfl⟩

theorem dHistory_turn {s : State} (hs : s.arb.state = .dHistory) :
    ArbTurn s { dispatchRegs s with
      mask := maskClear s.arb.mask dumpHistoryBit
      state := if s.arb.mask.getLsbD 5 then .wHistory else .idle } := by
  have hturn := arbiterTurn_exec (s := s) (i := .dHistory) (by rw [hs]; rfl)
  cases hbit : s.arb.mask.getLsbD 5 with
  | true => exact ⟨_, hturn.trans (exec_dHistory_pending hs hbit), by simp⟩
  | false => exact ⟨_, hturn.trans (exec_dHistory_quiet hs hbit), by rw [maskClear_single (by decide) hbit]; rfl⟩

/-- What a turn of the arbiter with an enabled step makes of the registers of a dispatch. -/
def dispatchTurn (c : Params) (a : ArbUnit) : ArbUnit :=
  match a.state with
  | .idle => { a with wakePending := false, state := .dSample }
  | .dSample => { a with mask := maskClear a.mask (sampleClear c.sampleCollapse a.mask), state := .dAutoen }
  | .dAutoen =>
    { a with
      mask := maskClear a.mask setAutoEnBit, state := .dAutowater
      autoWaterEnabled := if a.mask.getLsbD 4 then a.autoReq else a.autoWaterEnabled }
  | .dAutowater => { a with mask := maskClear a.mask autoWaterBit, state := .dManwater }
  | .dManwater => { a with mask := maskClear a.mask manualWaterBit, state := .dHistory }
  | .dHistory =>
    { a with
      mask := maskClear a.mask dumpHistoryBit
      state := if a.mask.getLsbD 5 then .wHistory else .idle }
  | .wHistory => a

theorem arbTurn_dispatch {s : State} (hidle : s.arb.state = .idle → s.arb.wakePending = true)
    (hwait : s.arb.state ≠ .wHistory) : ArbTurn s (dispatchTurn s.cfg (dispatchRegs s)) := by
  simp only [dispatchTurn, dispatchRegs]
  cases hs : s.arb.state with
  | idle => simpa [dispatchRegs, hs] using wake_turn hs (hidle hs)
  | dSample => simpa [dispatchRegs, hs] using dSample_turn hs
  | dAutoen => simpa [dispatchRegs, hs] using dAutoen_turn hs
  | dAutowater => simpa [dispatchRegs, hs] using dAutowater_turn hs
  | dManwater => simpa [dispatchRegs, hs] using dManwater_turn hs
  | dHistory => simpa [dispatchRegs, hs] using dHistory_turn hs
  | wHistory => exact absurd hs hwait

/-! ## The six turns -/

/-- `t` comes after `s` by turns of the arbiter, with the registers `regs` and `rest` the turns to come. -/
structure Dispatched (s t : State) (regs : ArbUnit) (rest : List Turn) : Prop where
  regs       : dispatchRegs t = regs
  cfg        : t.cfg = s.cfg
  illegalDue : t.illegalDue = s.illegalDue
  eec        : t.eec = s.eec
  log        : t.log = s.log
  chip       : t.chip = s.chip
  agenda     : t.agenda = rest

/-- One more turn of the arbiter, as a step. -/
theorem Dispatched.step {s t : State} {regs : ArbUnit} {rest : List Turn}
    (h : Dispatched s t regs (.arbiter :: rest)) (hdue : s.illegalDue = false)
    (hidle : regs.state = .idle → regs.wakePending = true) (hwait : regs.state ≠ .wHistory) :
    ∃ u, Machine.step t = .next u ∧ Dispatched s u (dispatchTurn s.cfg regs) rest := by
  obtain ⟨hregs, hcfg, hillegal, heec, hlog, hchip, hagenda⟩ := h
  obtain ⟨u, hu, huregs⟩ : ArbTurn (stepStart t rest) (dispatchTurn t.cfg (dispatchRegs t)) :=
    arbTurn_dispatch (by rw [← hregs] at hidle; exact hidle) (by rw [← hregs] at hwait; exact hwait)
  have hframe := arbSide_frame .arbiter _ u hu (.inl rfl)
  exact ⟨u, (step_agenda t .arbiter rest hagenda (.inl (hillegal.trans hdue))).trans hu,
    by rw [huregs, hcfg, hregs], hframe.cfg.trans hcfg, hframe.illegalDue.trans hillegal, hframe.eec.trans heec,
    hframe.log.trans hlog, hframe.chip.trans hchip, hframe.agenda⟩

/-- A signalled wake runs through the five dispatch states. -/
theorem dispatch_run {s : State} {rest : List Turn} (hs : s.arb.state = .idle) (hwake : s.arb.wakePending = true)
    (hdue : s.illegalDue = false) (ha : s.agenda = List.replicate 6 .arbiter ++ rest) :
    ∃ t, runSteps 6 s = .next t ∧ Dispatched s t ((dispatchTurn s.cfg)^[6] (dispatchRegs s)) rest := by
  obtain ⟨r, hr⟩ : ∃ r, r = dispatchRegs s := ⟨_, rfl⟩
  have hr0 : r.state = .idle := by rw [hr]; exact hs
  have hw0 : r.wakePending = true := by rw [hr]; exact hwake
  have d0 : Dispatched s s r _ := ⟨hr.symm, rfl, rfl, rfl, rfl, rfl, ha⟩
  obtain ⟨t1, h1, d1⟩ := d0.step hdue (fun _ => hw0) (by simp [hr0])
  obtain ⟨t2, h2, d2⟩ := d1.step hdue (by simp [dispatchTurn, hr0]) (by simp [dispatchTurn, hr0])
  obtain ⟨t3, h3, d3⟩ := d2.step hdue (by simp [dispatchTurn, hr0]) (by simp [dispatchTurn, hr0])
  obtain ⟨t4, h4, d4⟩ := d3.step hdue (by simp [dispatchTurn, hr0]) (by simp [dispatchTurn, hr0])
  obtain ⟨t5, h5, d5⟩ := d4.step hdue (by simp [dispatchTurn, hr0]) (by simp [dispatchTurn, hr0])
  obtain ⟨t6, h6, d6⟩ := d5.step hdue (by simp [dispatchTurn, hr0]) (by simp [dispatchTurn, hr0])
  rw [← hr]
  exact ⟨t6, by simp only [runSteps, h1, h2, h3, h4, h5, h6], d6⟩

/-- The mask after a dispatch. -/
theorem mask_drained (c : SampleCollapse) (m : Mask) :
    maskClear (maskClear (maskClear (maskClear (maskClear m (sampleClear c m)) setAutoEnBit) autoWaterBit)
      manualWaterBit) dumpHistoryBit =
    match c with
    | .clearBoth => 0
    | .keepManual => if m.getLsbD 0 && m.getLsbD 1 then 0b000010#6 else 0 := by
  revert m
  cases c <;> decide

/-- The bits that the enable change and the dump test are as they were before the steps that come first. -/
theorem mask_before_autoen (c : SampleCollapse) (m : Mask) :
    (maskClear m (sampleClear c m)).getLsbD 4 = m.getLsbD 4 := by
  revert m
  cases c <;> decide

theorem mask_before_history (c : SampleCollapse) (m : Mask) :
    (maskClear (maskClear (maskClear (maskClear m (sampleClear c m)) setAutoEnBit) autoWaterBit)
      manualWaterBit).getLsbD 5 = m.getLsbD 5 := by
  revert m
  cases c <;> decide

/-- The registers after the six turns of a wake. -/
theorem dispatchTurn_six (c : Params) {a : ArbUnit} (h : a.state = .idle) :
    (dispatchTurn c)^[6] a = { a with
      wakePending := false
      mask := (match c.sampleCollapse with
        | .clearBoth => 0
        | .keepManual => if a.mask.getLsbD 0 && a.mask.getLsbD 1 then 0b000010#6 else 0)
      state := if a.mask.getLsbD 5 then .wHistory else .idle
      autoWaterEnabled := if a.mask.getLsbD 4 then a.autoReq else a.autoWaterEnabled } := by
  rw [← mask_drained, ← mask_before_history c.sampleCollapse, ← mask_before_autoen c.sampleCollapse]
  simp only [Function.iterate_succ, Function.iterate_zero, Function.comp_apply, id, dispatchTurn, h]

/-! ## In a fair run -/

/-- A run's next ARB registers are those its turn leaves. -/
theorem IsRun.next_arb {run : Nat → State} (h : IsRun run) (n : Nat) :
    ∃ t, runTurn (nextTurn (run n)) (stepStart (run n) (restAgenda (run n))) = .next t ∧ (run (n + 1)).arb = t.arb := by
  obtain ⟨t, turns, hstep, hnext⟩ := h.step_next n
  exact ⟨t, hstep, by rw [hnext]; rfl⟩

theorem agentTurn_arb (turn : Turn) : agentTurn .arb turn = true ↔ turn = .arbiter := by
  cases turn <;> simp [agentTurn]

/-- The next step is the one that takes a signalled wake, or a reset. -/
def WakeTakenOrReset (run : Nat → State) (m : Nat) : Prop :=
  (nextTurn (run m) = .arbiter ∧ (run (m + 1)).arb.state = .dSample) ∨
    (∃ c d, nextTurn (run m) = .reset c d) ∨ ∃ c d l, nextTurn (run m) = .powerCycle c d l

/-- A signalled wake stays until the arbiter's turn takes it or a reset comes. -/
theorem wake_step {run : Nat → State} (h : IsRun run) {m : Nat} (hs : (run m).arb.state = .idle)
    (hwake : (run m).arb.wakePending = true) :
    WakeTakenOrReset run m ∨
      (nextTurn (run m) ≠ .arbiter ∧ (run (m + 1)).arb.state = .idle ∧ (run (m + 1)).arb.wakePending = true) := by
  obtain ⟨t, ht, hnext⟩ := h.next_arb m
  rw [WakeTakenOrReset, hnext]
  by_cases hturn : nextTurn (run m) = .arbiter
  · rw [hturn] at ht
    exact .inl (.inl ⟨hturn, arbiterTurn_wake (s := stepStart _ _) hs hwake ht⟩)
  · rcases otherTurn_arb _ hturn ht with ⟨hreset, -⟩ | ⟨hstate, hkept⟩
    · exact .inl (.inr hreset)
    · exact .inr ⟨hturn, hstate.trans hs, hkept hwake⟩

theorem wake_leads {run : Nat → State} (h : FairRun run) {n : Nat} (hs : (run n).arb.state = .idle)
    (hwake : (run n).arb.wakePending = true) :
    ∃ m, n ≤ m ∧ (run m).arb.state = .idle ∧ (run m).arb.wakePending = true ∧ WakeTakenOrReset run m := by
  refine (h.core .arb (by decide)).leads
    (P := fun m => (run m).arb.state = .idle ∧ (run m).arb.wakePending = true)
    (fun m ⟨hi, hw⟩ => .inr (by simp [stepEnabled, hi, hw]))
    (fun m ⟨hi, hw⟩ _ => ?stays) (fun m ⟨hi, hw⟩ htaken => .inl ?taken) ⟨hs, hwake⟩
  case stays =>
    rcases wake_step h.isRun hi hw with hq | ⟨-, hp⟩
    · exact .inl ⟨hi, hw, hq⟩
    · exact .inr (.inr hp)
  case taken =>
    have hturn := (agentTurn_arb _).mp ((stepTaken_iff _ _).mp htaken).2
    exact ⟨hi, hw, (wake_step h.isRun hi hw).resolve_right fun hother => hother.1 hturn⟩

theorem arbRank_congr {s t : State} (h : t.arb.state = s.arb.state) : arbRank t = arbRank s := by
  rw [arbRank, h, arbRank]

theorem arbRank_eq_zero_iff (s : State) : arbRank s = 0 ↔ s.arb.state = .idle ∨ s.arb.state = .wHistory := by
  unfold arbRank
  split <;> simp_all

theorem stepEnabled_arb {s : State} (h : 0 < arbRank s) : stepEnabled .arb s = true := by
  unfold arbRank at h
  unfold stepEnabled
  cases hs : s.arb.state <;> simp [hs] at h ⊢

/-- In a dispatch state a step lowers the count of steps that are left, or is not the arbiter's and keeps it. -/
theorem arbRank_step {run : Nat → State} (h : IsRun run) {m : Nat} (hr : 0 < arbRank (run m)) :
    arbRank (run (m + 1)) < arbRank (run m) ∨
      (nextTurn (run m) ≠ .arbiter ∧ arbRank (run (m + 1)) = arbRank (run m)) := by
  obtain ⟨t, ht, hnext⟩ := h.next_arb m
  rw [arbRank_congr (s := t) (by rw [hnext])]
  by_cases hturn : nextTurn (run m) = .arbiter
  · rw [hturn] at ht
    exact .inl (arbiterTurn_progress (s := stepStart _ _) hr ht)
  · rcases otherTurn_arb _ hturn ht with ⟨-, hidle⟩ | ⟨hstate, -⟩
    · exact .inl (by rwa [(arbRank_eq_zero_iff t).mpr (.inl hidle)])
    · exact .inr ⟨hturn, arbRank_congr hstate⟩

/-- A dispatch goes on: the arbiter's turn comes, or a reset. -/
theorem arbRank_leads {run : Nat → State} (h : FairRun run) {n : Nat} (hr : 0 < arbRank (run n)) :
    ∃ m, n ≤ m ∧ arbRank (run m) < arbRank (run n) := by
  refine (h.core .arb (by decide)).leads (P := fun m => arbRank (run m) = arbRank (run n))
    (fun m hm => .inr (stepEnabled_arb (hm ▸ hr))) (fun m hm _ => .inr ?stays) (fun m hm htaken => .inr ?taken) rfl
  case stays => exact (arbRank_step h.isRun (hm ▸ hr)).imp (fun hlt => hm ▸ hlt) fun hsame => hsame.2.trans hm
  case taken =>
    have hturn := (agentTurn_arb _).mp ((stepTaken_iff _ _).mp htaken).2
    exact hm ▸ (arbRank_step h.isRun (hm ▸ hr)).resolve_right fun hother => hother.1 hturn

/-- A dispatch ends: by induction on the steps that are left. -/
theorem dispatch_ends {run : Nat → State} (h : FairRun run) (n : Nat) : ∃ m, n ≤ m ∧ arbRank (run m) = 0 := by
  induction hk : arbRank (run n) using Nat.strong_induction_on generalizing n with
  | _ k ih =>
    rcases Nat.eq_zero_or_pos (arbRank (run n)) with hzero | hpos
    · exact ⟨n, Nat.le_refl n, hzero⟩
    · obtain ⟨m, hm, hlt⟩ := arbRank_leads h hpos
      obtain ⟨p, hp, hend⟩ := ih _ (by omega) m rfl
      exact ⟨p, hm.trans hp, hend⟩

/-- Settles O57: the six turns are `dispatch_run`; fairness takes the wake and ends the dispatch. -/
theorem wakeDrainsMask : Obligations.WakeDrainsMask := by
  unfold Obligations.WakeDrainsMask
  refine ⟨fun s rest hs hwake hdue ha => ?drain, fun run hrun n => ⟨wake_leads hrun, ?ends⟩⟩
  case drain =>
    obtain ⟨t, hrun, hregs, -, -, heec, hlog, hchip, hagenda⟩ := dispatch_run hs hwake hdue ha
    rw [dispatchTurn_six s.cfg (a := dispatchRegs s) hs] at hregs
    exact ⟨t, hrun, hagenda, congrArg ArbUnit.wakePending hregs, congrArg ArbUnit.mask hregs,
      congrArg ArbUnit.state hregs, congrArg ArbUnit.autoWaterEnabled hregs, heec, hlog, hchip⟩
  case ends =>
    obtain ⟨m, hm, hzero⟩ := dispatch_ends hrun n
    exact ⟨m, hm, (arbRank_eq_zero_iff _).mp hzero⟩

end Sys2Proof.Machine
end

section
/-! Polling: with no limit a busy chip is polled on and on, and in a fair run every operation ends
(70_reset_and_hazards.md sections 3 and 4). -/

namespace Sys2Proof.Machine

/-! ## Without a limit -/

theorem PollingBusyChip.not_reqReady {s : State} (h : PollingBusyChip s) : reqReady s = false :=
  not_reqReady_of_eec (by rw [h.1]; decide)

/-- The polling reads the parameters, EEC's phase, the chip's `WIP` and the waiting reply. -/
theorem PollingBusyChip.congr {s t : State} (h : PollingBusyChip s) (hcfg : t.cfg = s.cfg)
    (heec : t.eec.state = s.eec.state) (hwip : t.chip.wip = s.chip.wip) (hbus : t.bus = s.bus) : PollingBusyChip t := by
  unfold PollingBusyChip
  rw [hcfg, heec, hwip, hbus]
  exact h

/-- The poll's exchange, without a fault: the status byte says busy. -/
theorem sequencerTurn_poll_asks {s t : State} {d : BusDraw} (h : PollingBusyChip s) (hwf : s.cfg.opcodes.wf = true)
    (hreply : s.bus.reply = none) (hf : d.fault = false) (ht : runTurn (.sequencer d) s = .next t) :
    PollingBusyChip t ∧ t.cfg = s.cfg ∧ t.rsp = s.rsp := by
  obtain ⟨hs, hwip, -⟩ := h
  have hdue : dueFrame s = some .rdsr := by simp only [dueFrame, hreply, hs]
  rw [sequencerTurn_frame d s _ _ hdue (decodeFrame_command hwf).2.1] at ht
  cases ht
  rw [exchange_ok (s := s.withBusIn d) hf]
  exact ⟨⟨hs, hwip, .inr ⟨_, rfl, (busyBit_statusByte _ _ _ _).trans hwip⟩⟩, rfl, rfl⟩

/-- The step that takes the busy answer: EEC polls again. -/
theorem sequencerTurn_poll_hears {s t : State} {d : BusDraw} {b : Byte} (h : PollingBusyChip s)
    (hlimit : s.cfg.pollLimit = none) (hreply : s.bus.reply = some (.ok [b])) (hb : b.getLsbD s.cfg.wipBit = true)
    (ht : runTurn (.sequencer d) s = .next t) : PollingBusyChip t ∧ t.cfg = s.cfg ∧ t.rsp = s.rsp := by
  have hready := h.not_reqReady
  have hsame := h.congr (t := s.withBusIn d) rfl rfl rfl rfl
  obtain ⟨hs, hwip, -⟩ := h
  have hdue : dueFrame s = none := by simp only [dueFrame, hreply]
  rw [sequencerTurn_latched d hdue (.inl hready)] at ht
  rcases exec_latched_busy (s.withBusIn d) hready with hexec | hexec
  · rw [continueOp_driver (s := s.withBusIn d) (by rw [State.withBusIn_eec, hs]; decide),
      driverStep_poll_busy (s := s.withBusIn d) hs hreply hb, pollBusy_unlimited (s := s.withBusIn d) hs hlimit] at hexec
    cases hexec.symm.trans ht
    exact ⟨⟨hs, hwip, .inl rfl⟩, rfl, rfl⟩
  · cases hexec.symm.trans ht
    exact ⟨hsame, rfl, rfl⟩

/-- Any turn but the chip's and a reset, and without a fault: the polling goes on. -/
theorem polling_turn {s t : State} {turn : Turn} (h : PollingBusyChip s) (hwf : s.cfg.opcodes.wf = true)
    (hlimit : s.cfg.pollLimit = none) (ht : runTurn turn s = .next t) (hchip : turn ≠ .chip)
    (hreset : ∀ c d, turn ≠ .reset c d) (hpower : ∀ c d l, turn ≠ .powerCycle c d l)
    (hfault : ∀ d, turn = .sequencer d → d.fault = false) : PollingBusyChip t ∧ t.cfg = s.cfg ∧ t.rsp = s.rsp := by
  have hside : ArbiterFrame s t → PollingBusyChip t ∧ t.cfg = s.cfg ∧ t.rsp = s.rsp := fun k =>
    ⟨h.congr k.cfg (by rw [k.eec]) (by rw [k.chip]) k.bus, k.cfg, k.rsp⟩
  cases turn with
  | request r =>
    rcases requestTurn_cases r s t ht with ⟨hready, -⟩ | ⟨-, rfl⟩
    · rw [h.not_reqReady] at hready; contradiction
    · exact ⟨h, rfl, rfl⟩
  | events e => exact hside (arbSide_frame _ s t ht (.inr (.inr ⟨e, rfl⟩)))
  | done d => exact hside (arbSide_frame _ s t ht (.inr (.inl ⟨d, rfl⟩)))
  | arbiter => exact hside (arbSide_frame _ s t ht (.inl rfl))
  | sequencer d =>
    rcases h.2.2 with hreply | ⟨b, hreply, hb⟩
    · exact sequencerTurn_poll_asks h hwf hreply (hfault d rfl) ht
    · exact sequencerTurn_poll_hears h hlimit hreply hb ht
  | chip => exact absurd rfl hchip
  | reset c d => exact absurd rfl (hreset c d)
  | powerCycle c d l => exact absurd rfl (hpower c d l)

/-! ## In a fair run -/

/-- How far the operation in progress is from its end, and within one value of that: the chip still writes, or EEC has
still to take a busy answer. -/
def opMeasure (s : State) : Nat :=
  4 * opRank s + (if s.chip.wip then 2 else if heardBusy s then 1 else 0)

/-- The agent the operation in progress waits for: the chip while it writes, else EEC, or LOG between two
sub-operations. -/
def awaitedAgent (s : State) : FairAgent :=
  if s.chip.wip then .chip else if s.eec.state = .idle then .log else .eec

theorem awaitedAgent_enabled {s : State} (hb : reqReady s = false) : stepEnabled (awaitedAgent s) s = true := by
  unfold awaitedAgent
  split
  next hwip => exact hwip
  next =>
    split
    next he => simpa [stepEnabled, reqReady, he] using hb
    next he => simp [stepEnabled, he]

theorem awaitedAgent_of_wip {s : State} (h : s.chip.wip = true) : awaitedAgent s = .chip := if_pos h

theorem opMeasure_lt_of_rank {s t : State} (h : opRank t < opRank s) : opMeasure t < opMeasure s := by
  unfold opMeasure
  split_ifs <;> omega

theorem opMeasure_lt_of_idle {s t : State} (hrank : opRank t = opRank s) (hs : s.chip.wip = true)
    (ht : t.chip.wip = false) : opMeasure t < opMeasure s := by
  simp only [opMeasure, hrank, hs, ht, if_true, Bool.false_eq_true, if_false]
  split <;> omega

theorem opMeasure_of_wip {s t : State} (hrank : opRank t = opRank s) (hs : s.chip.wip = true)
    (ht : t.chip.wip = true) : opMeasure t = opMeasure s := by
  simp only [opMeasure, hrank, hs, ht, if_true]

/-- What a turn does to an operation in progress: it ends it, or lowers the measure, or is not of the awaited agent and
leaves the measure and that agent. -/
def TurnProgress (turn : Turn) (s t : State) : Prop :=
  reqReady t = true ∨ opMeasure t < opMeasure s ∨
    (opMeasure t = opMeasure s ∧ awaitedAgent t = awaitedAgent s ∧ agentTurn (awaitedAgent s) turn = false)

/-- The sequencer's turn while the chip writes, at best a poll that hears so. -/
theorem TurnProgress.of_wip {s t : State} (d : BusDraw) (hrank : opRank t = opRank s) (hs : s.chip.wip = true) :
    TurnProgress (.sequencer d) s t := by
  cases ht : t.chip.wip with
  | true =>
    exact .inr (.inr ⟨opMeasure_of_wip hrank hs ht, by rw [awaitedAgent_of_wip hs, awaitedAgent_of_wip ht],
      by rw [awaitedAgent_of_wip hs]; rfl⟩)
  | false => exact .inr (.inl (opMeasure_lt_of_idle hrank hs ht))

theorem sequencerTurn_measure {s t : State} (h : MachineInv s) (hb : reqReady s = false) (d : BusDraw)
    (ht : runTurn (.sequencer d) s = .next t) : TurnProgress (.sequencer d) s t := by
  rcases sequencerTurn_progress h hb d ht with hready | hrank | ⟨hheard, hunheard, hrank, hchip⟩ | ⟨-, hwip, hrank, -⟩
  · exact .inl hready
  · exact .inr (.inl (opMeasure_lt_of_rank hrank))
  · cases hw : s.chip.wip with
    | true => exact .of_wip d hrank hw
    | false => exact .inr (.inl (by simp [opMeasure, hrank, hchip, hw, hheard, hunheard]))
  · exact .of_wip d hrank hwip

/-- A turn that is not the sequencer's is the awaited agent's only if it is the chip's and the chip writes. -/
theorem agentTurn_awaited {s : State} {turn : Turn} (hseq : ∀ d, turn ≠ .sequencer d)
    (hchip : turn = .chip → s.chip.wip = false) : agentTurn (awaitedAgent s) turn = false := by
  unfold awaitedAgent
  cases turn with
  | sequencer d => exact absurd rfl (hseq d)
  | chip => rw [if_neg (Bool.eq_false_iff.mp (hchip rfl))]; split <;> rfl
  | _ => split_ifs <;> rfl

theorem otherTurn_measure {s t : State} {turn : Turn} (hb : reqReady s = false) (hseq : ∀ d, turn ≠ .sequencer d)
    (ht : runTurn turn s = .next t) : TurnProgress turn s t := by
  rcases otherTurn_progress turn hb hseq ht with hready | ⟨hcfg, heec, hlog, hbus, hchip⟩
  · exact .inl hready
  obtain ⟨hrank, -, hheard⟩ := opRank_congr hcfg heec hlog hbus
  by_cases hcompletes : turn = .chip ∧ s.chip.wip = true
  · obtain ⟨rfl, hwip⟩ := hcompletes
    cases ht
    exact .inr (.inl (opMeasure_lt_of_idle hrank hwip (complete_wip _)))
  · have hidle : turn = .chip → s.chip.wip = false := fun hturn => by simpa [hturn] using hcompletes
    have hsame : t.chip = s.chip := hchip.elim id fun ⟨hturn, hc⟩ => hc.trans (complete_idle (hidle hturn))
    exact .inr (.inr ⟨by rw [opMeasure, hrank, hheard, hsame, opMeasure],
      by rw [awaitedAgent, hsame, heec, awaitedAgent], agentTurn_awaited hseq hidle⟩)

theorem turn_measure {s t : State} {turn : Turn} (h : MachineInv s) (hb : reqReady s = false)
    (ht : runTurn turn s = .next t) : TurnProgress turn s t := by
  by_cases hseq : ∃ d, turn = .sequencer d
  · obtain ⟨d, rfl⟩ := hseq
    exact sequencerTurn_measure h hb d ht
  · exact otherTurn_measure hb (fun d hd => hseq ⟨d, hd⟩) ht

/-- A step of a run while an operation is in progress. -/
theorem IsRun.step_progress {run : Nat → State} (h : IsRun run) {m : Nat} (hinv : MachineInv (run m))
    (hb : reqReady (run m) = false) : TurnProgress (nextTurn (run m)) (run m) (run (m + 1)) := by
  obtain ⟨t, turns, hstep, hnext⟩ := h.step_next m
  rw [hnext]
  exact turn_measure (s := stepStart (run m) (restAgenda (run m))) (t := t) (hinv.stepStart _) hb hstep

/-- An operation in progress goes on: the awaited agent's turn comes, or the port is ready. -/
theorem opMeasure_leads {run : Nat → State} (h : FairRun run) (hinv : ∀ m, MachineInv (run m)) {n : Nat}
    (hb : reqReady (run n) = false) :
    ∃ m, n ≤ m ∧ (reqReady (run m) = true ∨ opMeasure (run m) < opMeasure (run n)) := by
  have hfair : WeaklyFair (awaitedAgent (run n)) run := by
    by_cases hagent : awaitedAgent (run n) = .chip
    · rw [hagent]; exact h.chip
    · exact h.core _ hagent
  refine hfair.leads (P := fun m => reqReady (run m) = false ∧ opMeasure (run m) = opMeasure (run n) ∧
      awaitedAgent (run m) = awaitedAgent (run n))
    (fun m ⟨hbm, _, ham⟩ => .inr (ham ▸ awaitedAgent_enabled hbm)) (fun m ⟨hbm, hmm, ham⟩ _ => .inr ?stays)
    (fun m ⟨hbm, hmm, ham⟩ htaken => .inr ?taken) ⟨hb, rfl, rfl⟩
  case stays =>
    rcases h.isRun.step_progress (hinv m) hbm with hready | hlower | ⟨hmeasure, hagent, -⟩
    · exact .inl (.inl hready)
    · exact .inl (.inr (hmm ▸ hlower))
    · cases hready : reqReady (run (m + 1)) with
      | true => exact .inl (.inl rfl)
      | false => exact .inr ⟨rfl, hmeasure.trans hmm, hagent.trans ham⟩
  case taken =>
    obtain ⟨-, hturn⟩ := (stepTaken_iff _ _).mp htaken
    rcases h.isRun.step_progress (hinv m) hbm with hready | hlower | ⟨-, -, hnot⟩
    · exact .inl hready
    · exact .inr (hmm ▸ hlower)
    · rw [ham, hturn] at hnot
      contradiction

/-- Every operation ends: by induction on the measure. -/
theorem operation_ends {run : Nat → State} (h : FairRun run) (hinv : ∀ m, MachineInv (run m)) (n : Nat) :
    ∃ m, n ≤ m ∧ reqReady (run m) = true := by
  induction hk : opMeasure (run n) using Nat.strong_induction_on generalizing n with
  | _ k ih =>
    cases hb : reqReady (run n) with
    | true => exact ⟨n, Nat.le_refl n, hb⟩
    | false =>
      obtain ⟨m, hm, hready | hlt⟩ := opMeasure_leads h hinv hb
      · exact ⟨m, hm, hready⟩
      · obtain ⟨p, hp, hend⟩ := ih _ (hk ▸ hlt) m rfl
        exact ⟨p, hm.trans hp, hend⟩

/-- The invariant holds all along a run, whatever turns the environment adds. -/
theorem IsRun.machineInv {run : Nat → State} (h : IsRun run) (h0 : MachineInv (run 0)) (n : Nat) :
    MachineInv (run n) :=
  h.keeps (fun _ _ hs => hs.congr rfl rfl rfl rfl rfl rfl rfl hs.history) (fun _ _ => step_inv) h0 n

/-- Settles O29: a step of the polling is one of its turns; in a fair run the measure of the operation in progress
reaches its end. -/
theorem pollHangs : Obligations.PollHangs := by
  unfold Obligations.PollHangs
  refine ⟨fun s t h hwf hlimit ht hchip hreset hpower hfault => ?hangs,
    fun run hrun h0 => operation_ends hrun (hrun.isRun.machineInv h0)⟩
  rw [step_eq_turn] at ht
  have hopcodes : s.cfg.opcodes.wf = true := by
    simp only [Params.wf, Bool.and_eq_true] at hwf
    exact hwf.1.2
  obtain ⟨hpolls, hcfg, hrsp⟩ := polling_turn (h.congr (t := stepStart s (restAgenda s)) rfl rfl rfl rfl) hopcodes hlimit ht
    hchip hreset hpower hfault
  exact ⟨hpolls, hcfg, hpolls.not_reqReady, by rw [hrsp]; rfl⟩

end Sys2Proof.Machine
end
